-- ==== Sys2Proof/Word.lean ====
section
/-!
DEFINITION. The word types of L1DSP and the complex sample (00_scope.md R13, R20; 20_memory.md R100, R101).

A DMEM word, a register and a binary32 bit pattern are all 32 bits wide; a rule says how it reads one. The arithmetic
of binary32 stands in Machine/Binary32.lean.
-/
namespace Sys2Proof

/-- A 32-bit word: a register, a DMEM word or a command word (R13, R100). -/
abbrev Word := BitVec 32

/-- One byte lane of a word (R107). -/
abbrev Byte := BitVec 8

/-- The bit pattern of an IEEE-754 binary32 value (R13, R14). -/
abbrev F32 := BitVec 32

/-- A complex sample: a pair of binary32 values (R13, R16). -/
structure Cplx where
  re : F32
  im : F32
  deriving DecidableEq, Repr, Inhabited

/-- The binary32 operations whose result can be a NaN, as labels for the free NaN pattern (R14, log entry 5). -/
inductive FloatOp where
  | add | sub | mul | div | sqrt
  deriving DecidableEq, Repr

/-- The 32-bit word of a bit (R22, `BWrite` writes `zext_32` of the bit). -/
def Word.ofBit (b : Bool) : Word := if b then 1#32 else 0#32

end Sys2Proof
end

