-- ==== Sys2Proof/Config.lean ====
section
/-!
DEFINITION. What an implementation of L1DSP fixes (00_scope.md R9, R11, R15) and the free values of the model.

`Config` holds the parameters that are data; every state carries one, so a statement about every state is a statement
about every configuration (log entry 3). The parameters that are functions are opaque constants: nothing in Lean can
evaluate them (log entries 4 and 5).
-/
namespace Sys2Proof

/-- The implementation parameters of R11 that are data. -/
structure Config where
  /-- `DMEM_WORDS`: DMEM size in words. -/
  dmemWords : Nat
  /-- `FFT_SIZE`: FFT length of the frequency detector. -/
  fftSize : Nat
  /-- `X_CAP`: capacity of XBUF in complex samples. -/
  xCap : Nat
  /-- `E_CAP`: capacity of EBUF in binary32 values. -/
  eCap : Nat
  /-- `GP_MAX`: longest Gaussian pulse. -/
  gpMax : Nat
  /-- `NF_MAX`: longest DFE feedforward filter. -/
  nfMax : Nat
  /-- `H_MAX`: longest channel response for DFE design. -/
  hMax : Nat
  /-- `G_RESET`: reset value of `FCCH_G`. -/
  gReset : F32
  /-- `P_RESET`: reset value of `FCCH_P`. -/
  pReset : F32
  /-- `INTERP_WINDOW` is not rectangular (R203). -/
  windowed : Bool
  /-- The configuration supplies `RESAMPLE_FN` and `RESAMPLE_LEN` (R66, R231). -/
  resample : Bool
  deriving DecidableEq, Repr

/-- The default of every parameter in the table of R11. -/
def Config.default : Config where
  dmemWords := 1048576
  fftSize := 1024
  xCap := 8192
  eCap := 1048576
  gpMax := 128
  nfMax := 64
  hMax := 64
  gReset := 0x3DA3D70A#32
  pReset := 0x3D000000#32
  windowed := false
  resample := false

/-- `n` is a power of two (R11, constraints on `DMEM_WORDS` and `FFT_SIZE`). -/
def Config.powerOfTwo (n : Nat) : Bool := n == 2 ^ Nat.log2 n

/-- The constraint column of R11. DEDUCED: `NF_MAX` and `H_MAX` also fit the 8-bit fields of `CFG_GPMAX` in which R66
reports them (log entry 3). -/
def Config.wf (c : Config) : Bool :=
  Config.powerOfTwo c.dmemWords && decide (2 ^ 12 ≤ c.dmemWords) && decide (c.dmemWords ≤ 2 ^ 22)
    && Config.powerOfTwo c.fftSize && decide (256 ≤ c.fftSize) && decide (c.fftSize ≤ 65536)
    && decide (17 + 32 ≤ c.xCap) && decide (c.xCap < 2 ^ 32)
    && decide (1 ≤ c.eCap) && decide (c.eCap ≤ 2 ^ 24)
    && decide (3 ≤ c.gpMax) && decide (c.gpMax ≤ 128)
    && decide (2 ≤ c.nfMax) && decide (c.nfMax ≤ 255)
    && decide (1 ≤ c.hMax) && decide (c.hMax ≤ 255)

/-- `SIN32`: the binary32 sine, a total function of unknown bits (R11, R15). -/
opaque Config.sin32 : F32 → F32

/-- `EXP32`: the binary32 exponential, a total function of unknown bits (R11, R15). -/
opaque Config.exp32 : F32 → F32

/-- Bin `k` of `FFT_N` of a buffer, for an FFT of the given length (R11, R15, R294). -/
opaque Config.fftBin : Nat → List Cplx → Nat → Cplx

/-- `INTERP_WINDOW` away from 0 (R11 constrains only w(0) = 1). -/
opaque Config.windowAt : F32 → F32

/-- `RESAMPLE_LEN(n, L, M)` (R8, R231). -/
opaque Config.resampleLen : Nat → Nat → Nat → Nat

/-- Element `i` of `RESAMPLE_FN(src, L, M)` (R8, R231). -/
opaque Config.resampleAt : List Cplx → Nat → Nat → Nat → Cplx

/-- What a result register holds after an integer result of 2^32 or more, free for each such integer: R19 says that none
occurs, but a host-written `FCCH_D` can bring one about (log entry 25). -/
opaque Config.oversized : Nat → Word

/-- The sign and payload of a NaN that an operation produces, free for each operation and operands: IEEE-754 leaves them
open (R14, log entry 5). `Machine/Binary32.lean` keeps only the parts that leave the result a NaN. -/
opaque Config.nanBits : FloatOp → F32 → F32 → BitVec 32

end Sys2Proof
end

