-- ==== Sys2Proof/Syntax.lean ====
section
/-!
DEFINITION. The instructions of L1DSP: the command words (30_encoding.md R140-R147), and the fields of a command word.
-/
namespace Sys2Proof

/-- A command of L1DSP, one constructor per row of spec/opcode_table.json. The operands are in the argument registers
(R143, R145); the only operand in the word is the flag X of the two Viterbi decoders (R141, R380). -/
inductive Instr where
  | nop
  | sinc
  | interp
  | peak
  | p2m
  | rot
  | rrot
  | conv
  | convNd
  | corr
  | corrNd
  | delay
  | scale
  | conj
  | sliceSoft
  | slice
  | norm2
  | resample
  | modulate
  | fcchInit
  | fcchFlush
  | fcchFeed
  | fcchWalk
  | fcchScan
  | freqDetect
  | fcchEdump
  | chanresp
  | designDfe
  | equalize
  | parityCheck
  | parityEncode
  | convEncode
  | viterbiHard (x : Bool)
  | viterbiSoft (x : Bool)
  | schFields
  deriving DecidableEq, Repr

/-- The fields of the one command-word format CMDW (R141). -/
structure CmdFields where
  /-- bits 7:0 -/
  opc : BitVec 8
  /-- bit 8 -/
  x : Bool
  /-- bits 15:9 -/
  flagsRsvd : BitVec 7
  /-- bits 31:16 -/
  rsvd : BitVec 16
  deriving DecidableEq, Repr

end Sys2Proof
end

