-- ==== Sys2Proof/WellFormed.lean ====
section
/-!
DEFINITION. When a command word is legal (30_encoding.md R142, R146, R147).
-/
namespace Sys2Proof

/-- The opcodes R146 assigns. -/
def assignedOpcodes : List (BitVec 8) :=
  [0x00#8, 0x10#8, 0x11#8, 0x12#8, 0x13#8, 0x14#8, 0x15#8, 0x16#8, 0x17#8, 0x18#8, 0x19#8, 0x1A#8, 0x1B#8, 0x1C#8,
   0x1D#8, 0x1E#8, 0x1F#8, 0x20#8, 0x30#8, 0x40#8, 0x41#8, 0x42#8, 0x43#8, 0x44#8, 0x45#8, 0x46#8, 0x50#8, 0x51#8,
   0x58#8, 0x60#8, 0x61#8, 0x62#8, 0x63#8, 0x64#8, 0x65#8]

/-- `w[7:0]` is an opcode of R146. -/
def CmdFields.opcodeAssigned (f : CmdFields) : Bool := assignedOpcodes.contains f.opc

/-- `w[31:16]` is 0 (R141, R142). -/
def CmdFields.rsvdZero (f : CmdFields) : Bool := f.rsvd == 0#16

/-- `w[15:9]` is 0 (R141, R142). -/
def CmdFields.flagsZero (f : CmdFields) : Bool := f.flagsRsvd == 0#7

/-- `w[8]` is 0 unless the opcode is that of `VITERBI_HARD` or `VITERBI_SOFT` (R141, R142). -/
def CmdFields.xAllowed (f : CmdFields) : Bool := !f.x || f.opc == 0x63#8 || f.opc == 0x64#8

/-- The command word is legal (R142). -/
def CmdFields.wellFormed (f : CmdFields) : Bool :=
  f.opcodeAssigned && f.rsvdZero && f.flagsZero && f.xAllowed

end Sys2Proof
end

