-- ==== Sys2Proof/Decode.lean ====
section
/-!
DEFINITION. Decoding and encoding of command words (30_encoding.md R141, R142, R146, R147).
-/
namespace Sys2Proof

/-- Why a word is not a command: every reason is `ERR_ILLEGAL` on the machine (R142, R412), except `truncated`, which only
a byte stream shorter than one word can give. -/
inductive DecodeError where
  /-- `w[7:0]` is not assigned by R146. -/
  | reservedOpcode
  /-- `w[31:16]` is not 0. -/
  | rsvdNonzero
  /-- `w[15:9]` is not 0. -/
  | flagsNonzero
  /-- X = 1 on a command that has no X. -/
  | flagXNotAllowed
  /-- fewer than four bytes -/
  | truncated
  deriving DecidableEq, Repr

/-- The fields of a command word (R141). -/
def fieldsOf (w : Word) : CmdFields where
  opc := w.extractLsb' 0 8
  x := w.getLsbD 8
  flagsRsvd := w.extractLsb' 9 7
  rsvd := w.extractLsb' 16 16

/-- The command of an opcode, given the flag X (R146). -/
def opcodeInstr (x : Bool) (opc : BitVec 8) : Option Instr :=
  match opc.toNat with
  | 0x00 => some .nop
  | 0x10 => some .sinc
  | 0x11 => some .interp
  | 0x12 => some .peak
  | 0x13 => some .p2m
  | 0x14 => some .rot
  | 0x15 => some .rrot
  | 0x16 => some .conv
  | 0x17 => some .convNd
  | 0x18 => some .corr
  | 0x19 => some .corrNd
  | 0x1A => some .delay
  | 0x1B => some .scale
  | 0x1C => some .conj
  | 0x1D => some .sliceSoft
  | 0x1E => some .slice
  | 0x1F => some .norm2
  | 0x20 => some .resample
  | 0x30 => some .modulate
  | 0x40 => some .fcchInit
  | 0x41 => some .fcchFlush
  | 0x42 => some .fcchFeed
  | 0x43 => some .fcchWalk
  | 0x44 => some .fcchScan
  | 0x45 => some .freqDetect
  | 0x46 => some .fcchEdump
  | 0x50 => some .chanresp
  | 0x51 => some .designDfe
  | 0x58 => some .equalize
  | 0x60 => some .parityCheck
  | 0x61 => some .parityEncode
  | 0x62 => some .convEncode
  | 0x63 => some (.viterbiHard x)
  | 0x64 => some (.viterbiSoft x)
  | 0x65 => some .schFields
  | _ => none

/-- Decoding of a command word: total, rejecting by name (R142, R147). -/
def decodeWord (w : Word) : Except DecodeError Instr :=
  let f := fieldsOf w
  match opcodeInstr f.x f.opc with
  | none => .error .reservedOpcode
  | some i =>
    if !f.rsvdZero then .error .rsvdNonzero
    else if !f.flagsZero then .error .flagsNonzero
    else if !f.xAllowed then .error .flagXNotAllowed
    else .ok i

/-- The word of four byte lanes, lane 0 first (R107). -/
def wordOfLanes (b0 b1 b2 b3 : Byte) : Word := b3 ++ b2 ++ b1 ++ b0

/-- Byte lane `i` of a word: bits 8i+7:8i (R107). -/
def laneOf (w : Word) (i : Nat) : Byte := w.extractLsb' (8 * i) 8

/-- Decoding of a stream of bytes: one command word is four byte lanes, the lowest first (R107, R140), and the rest of the
stream is left over. -/
def decode (bytes : List Byte) : Except DecodeError (Instr × List Byte) :=
  match bytes with
  | b0 :: b1 :: b2 :: b3 :: rest =>
    match decodeWord (wordOfLanes b0 b1 b2 b3) with
    | .ok i => .ok (i, rest)
    | .error e => .error e
  | _ => .error .truncated

/-- The opcode of a command (R146). -/
def opcodeOf : Instr → BitVec 8
  | .nop => 0x00#8
  | .sinc => 0x10#8
  | .interp => 0x11#8
  | .peak => 0x12#8
  | .p2m => 0x13#8
  | .rot => 0x14#8
  | .rrot => 0x15#8
  | .conv => 0x16#8
  | .convNd => 0x17#8
  | .corr => 0x18#8
  | .corrNd => 0x19#8
  | .delay => 0x1A#8
  | .scale => 0x1B#8
  | .conj => 0x1C#8
  | .sliceSoft => 0x1D#8
  | .slice => 0x1E#8
  | .norm2 => 0x1F#8
  | .resample => 0x20#8
  | .modulate => 0x30#8
  | .fcchInit => 0x40#8
  | .fcchFlush => 0x41#8
  | .fcchFeed => 0x42#8
  | .fcchWalk => 0x43#8
  | .fcchScan => 0x44#8
  | .freqDetect => 0x45#8
  | .fcchEdump => 0x46#8
  | .chanresp => 0x50#8
  | .designDfe => 0x51#8
  | .equalize => 0x58#8
  | .parityCheck => 0x60#8
  | .parityEncode => 0x61#8
  | .convEncode => 0x62#8
  | .viterbiHard _ => 0x63#8
  | .viterbiSoft _ => 0x64#8
  | .schFields => 0x65#8

/-- The flag X of a command (R141). -/
def xOf : Instr → Bool
  | .viterbiHard x => x
  | .viterbiSoft x => x
  | _ => false

/-- The command word of a command (R141, R146). -/
def encode (i : Instr) : Word := 0#23 ++ BitVec.ofBool (xOf i) ++ opcodeOf i

/-- The bytes of a command word, in the byte order of the host window (R107). -/
def encodeBytes (i : Instr) : List Byte :=
  [laneOf (encode i) 0, laneOf (encode i) 1, laneOf (encode i) 2, laneOf (encode i) 3]

/-- The instruction the decoder reads from the first `nbits` bits of `w`, laid out as bytes; every bit above is 0. -/
def decodeTableWord (nbits w : Nat) : Option Instr :=
  let v : Word := BitVec.ofNat 32 (w % 2 ^ nbits)
  match decode [laneOf v 0, laneOf v 1, laneOf v 2, laneOf v 3] with
  | .ok (i, _) => some i
  | .error _ => none

end Sys2Proof
end

