-- ==== Sys2Proof/Machine/Binary32.lean ====
section
/-!
DEFINITION. IEEE-754 binary32 arithmetic (00_scope.md R13, R14, R16-R18).

An operation converts finite operands to exact values m * 2^e, computes exactly, and rounds once, to nearest even, in
`F32.round`. A NaN result has a free sign and payload (log entry 5).
-/
namespace Sys2Proof

/-! ## Fields and classes -/

/-- The sign bit. -/
def F32.sign (a : F32) : Bool := a.getLsbD 31

/-- The pattern without its sign bit; as a number it orders the magnitudes. -/
def F32.mag (a : F32) : Nat := a.toNat % 2 ^ 31

/-- The magnitude of ±∞. -/
def F32.infMag : Nat := 0x7F800000

def F32.isNaN (a : F32) : Bool := decide (F32.infMag < F32.mag a)
def F32.isInf (a : F32) : Bool := F32.mag a == F32.infMag
def F32.isZero (a : F32) : Bool := F32.mag a == 0
/-- Neither NaN nor ±∞. -/
def F32.isFinite (a : F32) : Bool := decide (F32.mag a < F32.infMag)

/-- The pattern with sign `s` and magnitude `m`. -/
def F32.ofMag (s : Bool) (m : Nat) : F32 := BitVec.ofNat 32 (if s then m + 2 ^ 31 else m)

def F32.inf (s : Bool) : F32 := F32.ofMag s F32.infMag
def F32.zero (s : Bool) : F32 := F32.ofMag s 0

/-- The integer significand of a finite value: |a| = `sig a` * 2 ^ `expo a`. -/
def F32.sig (a : F32) : Nat :=
  if F32.mag a < 2 ^ 23 then F32.mag a else F32.mag a % 2 ^ 23 + 2 ^ 23

/-- The exponent that goes with `F32.sig`. -/
def F32.expo (a : F32) : Int :=
  if F32.mag a < 2 ^ 23 then -149 else (F32.mag a / 2 ^ 23 : Nat) - 150

/-- The NaN an operation produces: its sign and payload are free (IEEE-754 leaves them open), but it is a NaN. -/
def F32.nanOf (op : FloatOp) (a b : F32) : F32 :=
  let free := (Config.nanBits op a b).toNat
  let payload := free % 2 ^ 23
  F32.ofMag (decide (2 ^ 31 ≤ free)) (F32.infMag + if payload = 0 then 2 ^ 22 else payload)

/-! ## Rounding -/

/-- `m / 2^k` to the nearest integer, ties to even. -/
def F32.divPow2Even (m k : Nat) : Nat :=
  let q := m / 2 ^ k
  let r := 2 * (m % 2 ^ k)
  if 2 ^ k < r ∨ (r = 2 ^ k ∧ q % 2 = 1) then q + 1 else q

/-- The binary32 nearest to ±m * 2^e, ties to even, subnormals kept, overflow to ±∞ (R14). The result is counted in units
of 2^u, where u is the exponent of the last place; a count of 2^24 carries into the next exponent by itself. -/
def F32.round (s : Bool) (m : Nat) (e : Int) : F32 :=
  if m = 0 then F32.zero s
  else
    let u : Int := max ((Nat.log2 m : Int) + e - 23) (-149)
    let n : Nat := if u ≤ e then m * 2 ^ (e - u).toNat else F32.divPow2Even m (u - e).toNat
    F32.ofMag s (min ((u + 149).toNat * 2 ^ 23 + n) F32.infMag)

/-! ## Operations -/

/-- Sign flip, exact, also for zeros and NaN (R16). -/
def F32.neg (a : F32) : F32 := a ^^^ 0x80000000#32

/-- Sign clear, exact (R202). -/
def F32.abs (a : F32) : F32 := a &&& 0x7FFFFFFF#32

/-- The signed integer significand of a finite value, in units of 2^e (for e no more than its exponent). -/
def F32.scaled (a : F32) (e : Int) : Int :=
  let m : Nat := F32.sig a * 2 ^ (F32.expo a - e).toNat
  if F32.sign a then -(m : Int) else m

/-- The sum of two finite values. An exact zero is +0 unless both operands have the sign bit. -/
def F32.addFinite (a b : F32) : F32 :=
  let e := min (F32.expo a) (F32.expo b)
  let t := F32.scaled a e + F32.scaled b e
  if t = 0 then F32.zero (F32.sign a && F32.sign b)
  else F32.round (decide (t < 0)) t.natAbs e

def F32.add (a b : F32) : F32 :=
  if F32.isNaN a || F32.isNaN b then F32.nanOf .add a b
  else if F32.isInf a then
    if F32.isInf b && F32.sign a != F32.sign b then F32.nanOf .add a b else a
  else if F32.isInf b then b
  else F32.addFinite a b

def F32.sub (a b : F32) : F32 :=
  if F32.isNaN a || F32.isNaN b then F32.nanOf .sub a b
  else if F32.isInf a then
    if F32.isInf b && F32.sign a == F32.sign b then F32.nanOf .sub a b else a
  else if F32.isInf b then F32.neg b
  else F32.addFinite a (F32.neg b)

def F32.mul (a b : F32) : F32 :=
  let s := F32.sign a != F32.sign b
  if F32.isNaN a || F32.isNaN b then F32.nanOf .mul a b
  else if F32.isInf a then if F32.isZero b then F32.nanOf .mul a b else F32.inf s
  else if F32.isInf b then if F32.isZero a then F32.nanOf .mul a b else F32.inf s
  else F32.round s (F32.sig a * F32.sig b) (F32.expo a + F32.expo b)

/-- The quotient of finite values, the divisor not 0: 51 extra quotient bits and a last bit that says whether a remainder
is left round as the exact quotient does. -/
def F32.divFinite (s : Bool) (a b : F32) : F32 :=
  let m := F32.sig a * 2 ^ 51
  let q := 2 * (m / F32.sig b) + if m % F32.sig b = 0 then 0 else 1
  F32.round s q (F32.expo a - F32.expo b - 52)

/-- Division; by zero it gives ±∞ or NaN and never an error (R14). -/
def F32.div (a b : F32) : F32 :=
  let s := F32.sign a != F32.sign b
  if F32.isNaN a || F32.isNaN b then F32.nanOf .div a b
  else if F32.isInf a then if F32.isInf b then F32.nanOf .div a b else F32.inf s
  else if F32.isInf b then F32.zero s
  else if F32.isZero b then if F32.isZero a then F32.nanOf .div a b else F32.inf s
  else F32.divFinite s a b

/-- The bits k-1 .. 0 of the integer square root of n, below the part `acc` already found. -/
def F32.isqrtBits (n : Nat) : Nat → Nat → Nat
  | 0, acc => acc
  | k + 1, acc =>
    let c := acc + 2 ^ k
    F32.isqrtBits n k (if c * c ≤ n then c else acc)

/-- The correctly rounded square root (R14, R15). -/
def F32.sqrt (a : F32) : F32 :=
  if F32.isNaN a then F32.nanOf .sqrt a a
  else if F32.isZero a then a
  else if F32.sign a then F32.nanOf .sqrt a a
  else if F32.isInf a then a
  else
    let odd : Bool := F32.expo a % 2 != 0
    let m := (if odd then 2 * F32.sig a else F32.sig a) * 2 ^ 52
    let e := (if odd then F32.expo a - 1 else F32.expo a) / 2 - 26
    let r := F32.isqrtBits m 39 0
    F32.round false (2 * r + if r * r = m then 0 else 1) (e - 1)

/-! ## Comparisons (every one with a NaN operand is false) -/

/-- The value's place in the order of the reals; both zeros are 0. -/
def F32.key (a : F32) : Int := if F32.sign a then -(F32.mag a : Int) else F32.mag a

def F32.lt (a b : F32) : Bool := !F32.isNaN a && !F32.isNaN b && decide (F32.key a < F32.key b)
def F32.le (a b : F32) : Bool := !F32.isNaN a && !F32.isNaN b && decide (F32.key a ≤ F32.key b)

/-! ## Conversions (R18). They read finite values; a rule checks that first. -/

/-- The mathematical floor of a finite value. -/
def F32.floor (a : F32) : Int :=
  if 0 ≤ F32.expo a then F32.scaled a 0
  else F32.scaled a (F32.expo a) / 2 ^ (-F32.expo a).toNat

/-- The mathematical ceiling of a finite value. -/
def F32.ceil (a : F32) : Int := -F32.floor (F32.neg a)

/-- The nearest integer, halfway cases away from zero, of a finite value. -/
def F32.roundInt (a : F32) : Int :=
  let m : Nat :=
    if 0 ≤ F32.expo a then F32.sig a * 2 ^ (F32.expo a).toNat
    else
      let k := (-F32.expo a).toNat
      (2 * F32.sig a + 2 ^ k) / 2 ^ (k + 1)
  if F32.sign a then -(m : Int) else m

/-- `flt(k)`: an integer to binary32, to nearest even. -/
def F32.ofInt (k : Int) : F32 := F32.round (decide (k < 0)) k.natAbs 0

/-- `x` is finite and `c` of it, an integer, lies in [-2^31, 2^31). -/
def F32.convertible (c : F32 → Int) (x : F32) : Bool :=
  F32.isFinite x && decide (-2 ^ 31 ≤ c x) && decide (c x < 2 ^ 31)

/-! ## Literals (R17) -/

def F32.one : F32 := 0x3F800000#32
def F32.two : F32 := 0x40000000#32
def F32.minusOne : F32 := 0xBF800000#32
def F32.half : F32 := 0x3F000000#32
def F32.pi : F32 := 0x40490FDB#32
/-- `GSM_RATE` (R9, R17) -/
def F32.gsmRate : F32 := 0x48843E2B#32

/-- A bit as binary32: `flt(b)`. -/
def F32.ofBit (b : Bool) : F32 := if b then F32.one else 0#32

end Sys2Proof
end

