-- ==== Sys2Proof/Machine/Complex.lean ====
section
/-!
DEFINITION. Complex arithmetic on binary32 pairs (00_scope.md R16) and the rotator tables (10_state.md R69).
-/
namespace Sys2Proof

/-- (+0, +0) -/
def Cplx.zero : Cplx := ⟨0#32, 0#32⟩

/-- A real value as a complex one, imaginary part +0. -/
def Cplx.ofReal (a : F32) : Cplx := ⟨a, 0#32⟩

def Cplx.add (z w : Cplx) : Cplx := ⟨F32.add z.re w.re, F32.add z.im w.im⟩

def Cplx.sub (z w : Cplx) : Cplx := ⟨F32.sub z.re w.re, F32.sub z.im w.im⟩

def Cplx.mul (z w : Cplx) : Cplx :=
  ⟨F32.sub (F32.mul z.re w.re) (F32.mul z.im w.im), F32.add (F32.mul z.re w.im) (F32.mul z.im w.re)⟩

/-- real × complex -/
def Cplx.smul (s : F32) (z : Cplx) : Cplx := ⟨F32.mul s z.re, F32.mul s z.im⟩

/-- complex ÷ real -/
def Cplx.divReal (z : Cplx) (s : F32) : Cplx := ⟨F32.div z.re s, F32.div z.im s⟩

/-- the source's |z|² -/
def Cplx.norm (z : Cplx) : F32 := F32.add (F32.mul z.re z.re) (F32.mul z.im z.im)

/-- complex ÷ complex -/
def Cplx.div (z w : Cplx) : Cplx :=
  let n := Cplx.norm w
  ⟨F32.div (F32.add (F32.mul z.re w.re) (F32.mul z.im w.im)) n,
    F32.div (F32.sub (F32.mul z.im w.re) (F32.mul z.re w.im)) n⟩

def Cplx.conj (z : Cplx) : Cplx := ⟨z.re, F32.neg z.im⟩

def Cplx.neg (z : Cplx) : Cplx := ⟨F32.neg z.re, F32.neg z.im⟩

/-- the source's |z| -/
def Cplx.abs (z : Cplx) : F32 := F32.sqrt (Cplx.norm z)

/-- ROT[n] = exp(+j·(π/2)·(n mod 4)), exact (R69). -/
def rotEntry (n : Nat) : Cplx :=
  match n % 4 with
  | 0 => ⟨F32.one, 0#32⟩
  | 1 => ⟨0#32, F32.one⟩
  | 2 => ⟨F32.minusOne, 0#32⟩
  | _ => ⟨0#32, F32.minusOne⟩

/-- RROT[n] = exp(−j·(π/2)·(n mod 4)), exact (R69). -/
def rrotEntry (n : Nat) : Cplx :=
  match n % 4 with
  | 0 => ⟨F32.one, 0#32⟩
  | 1 => ⟨0#32, F32.minusOne⟩
  | 2 => ⟨F32.minusOne, 0#32⟩
  | _ => ⟨0#32, F32.one⟩

end Sys2Proof
end

