-- ==== Sys2Proof/Machine/State.lean ====
section
/-!
DEFINITION. The state of L1DSP (10_state.md), the reasons a step can stop, and the state after reset
(70_reset_and_hazards.md R450, R451).
-/
namespace Sys2Proof.Machine

/-- The error codes of R412; codes 12-255 are never produced, so the type has no other value. -/
inductive ErrCode where
  | none | illegal | range | align | overlap | length | value | capacity | valley | unimpl | fftsize | data
  deriving DecidableEq, Repr

/-- Why the machine stops. -/
inductive Fault where
  /-- `FAULT_UNWRITTEN` (R105, R430): an unwritten DMEM word was read, by a host read (`cmd` is none) or by the engine step
  of the command word `cmd`. Raised by the host's DMEM read and by the shared operation `perform`. Safe: the spec itself
  stops here, and hardware that goes on with some value is not followed. -/
  | unwritten (addr : Nat) (cmd : Option Word)
  deriving DecidableEq, Repr

/-- Why the machine has no meaning for an instruction. -/
inductive Refusal where
  /-- The instruction has no meaning in this model. No arm of `exec` answers with it: L1DSP refuses nothing (R433). Safe:
  nothing can be proved of a run past it. -/
  | notModelled (mnemonic : String)
  deriving DecidableEq, Repr

/-- STATUS by its fields (R57). The reserved bits read 0 and have no storage. -/
structure Status where
  busy : Bool
  done : Bool
  err : Bool
  detect : Bool
  accViol : Bool
  cmdLost : Bool
  errcode : ErrCode
  lastOpc : BitVec 8
  deriving DecidableEq, Repr

/-- The state of the FCCH predictor (R63, R64, R65, R280). -/
structure Fcch where
  /-- `FCCH_D`, the prediction horizon -/
  d : Word
  /-- `FCCH_P`, the forgetting factor -/
  p : F32
  /-- `FCCH_G`, the step size m_G -/
  g : F32
  /-- `FCCH_ME`, the leaky error average m_e -/
  me : F32
  /-- `FCCH_W[0..16]` -/
  taps : Vector Cplx 17
  /-- XBUF, oldest first -/
  xbuf : List Cplx
  /-- EBUF, oldest first -/
  ebuf : List F32
  /-- `FCCH_ESUM` -/
  esum : F32
  deriving DecidableEq, Repr

/-- The transition detector (R67, R287). -/
structure TransDet where
  /-- `TD_LOW` -/
  low : Bool
  /-- `TD_COUNT` -/
  count : Word
  /-- `TD_START` -/
  start : Word
  /-- `TD_THRESH` -/
  thresh : F32
  deriving DecidableEq, Repr

/-- The Gaussian-pulse cache (R68, R262). `samples` holds GP[0..GP_LEN-1]; `GP_LEN` is its length (log entry 16). -/
structure Pulse where
  /-- `GP_VALID` -/
  valid : Bool
  /-- `GP_SPS` -/
  sps : F32
  /-- `GP[0..GP_LEN-1]` -/
  samples : List F32
  deriving DecidableEq, Repr

/-- The width of a host access (R107). -/
inductive Width where
  | w8 | w16 | w32 | w64
  deriving DecidableEq, Repr

/-- A host access at a byte offset of the 2^25-byte window (R106, R107). The data of a write of another width than 32 bits
has no effect (R107), so one data word is all a write carries. -/
inductive Access where
  | read (w : Width) (off : BitVec 25)
  | write (w : Width) (off : BitVec 25) (data : Word)
  deriving DecidableEq, Repr

/-- The bus answer to a host access (R107, R431). -/
inductive BusAnswer where
  /-- a read's value -/
  | data (w : Word)
  /-- a write was taken from the bus (also one that is ignored) -/
  | taken
  /-- wrong width or misaligned: no state of L1DSP changed -/
  | busError
  deriving DecidableEq, Repr

/-- One turn of an agent (R26, R421, R450). -/
inductive Event where
  /-- a host access takes effect -/
  | host (a : Access)
  /-- the engine performs the command in flight, if there is one -/
  | engine
  /-- the platform's reset input -/
  | reset
  deriving DecidableEq, Repr

/-- DMEM as bytes: key 4a + i is byte lane i of word a (R100, R107; log entry 8). An unlisted word is unwritten (R105). -/
abbrev Memory := List Host.Cell

/-- The architectural state of L1DSP (R50). `ID`, `VERSION`, ROT and RROT never change and are constants of the operations
that read them; `IRQ` is a function of the state (R425). `agenda` and `answer` are the model's own fields. -/
structure State where
  /-- the implementation parameters, readable in `CFG_*` (R11, R66) -/
  cfg : Config
  /-- DMEM (R100) -/
  mem : Memory
  /-- `CTRL.IRQ_EN` (R56) -/
  irqEn : Bool
  /-- `STATUS` (R57) -/
  status : Status
  /-- `CMD` (R61), the command in flight while BUSY -/
  cmd : Word
  /-- `ARG0`-`ARG15` (R53) -/
  args : Vector Word 16
  /-- `RES0`-`RES7` (R54) -/
  res : Vector Word 8
  /-- `SAMPLE_RATE` (R62) -/
  sampleRate : F32
  /-- the FCCH predictor (R63-R65) -/
  fcch : Fcch
  /-- the transition detector (R67) -/
  td : TransDet
  /-- the Gaussian-pulse cache (R68) -/
  pulse : Pulse
  /-- the fault record (R430) -/
  fault : Option Fault
  /-- the MODEL's own: the turns still to take effect, oldest first (log entry 1) -/
  agenda : List Event
  /-- the MODEL's own: the bus answer to the last host access (log entry 15) -/
  answer : Option BusAnswer
  deriving DecidableEq, Repr

/-- STATUS after reset: 0 (R57, R451). -/
def Status.reset : Status where
  busy := false
  done := false
  err := false
  detect := false
  accViol := false
  cmdLost := false
  errcode := .none
  lastOpc := 0#8

/-- The predictor after reset (R451), which `FCCH_INIT` restores (R288). -/
def Fcch.reset (c : Config) : Fcch where
  d := 32#32
  p := c.pReset
  g := c.gReset
  me := 0#32
  taps := Vector.replicate 17 ⟨0#32, 0#32⟩
  xbuf := []
  ebuf := []
  esum := 0#32

/-- The transition detector after reset (R451). -/
def TransDet.reset : TransDet where
  low := false
  count := 0#32
  start := 0#32
  thresh := 0#32

/-- The pulse cache after reset: empty (R451). -/
def Pulse.reset : Pulse where
  valid := false
  sps := 0#32
  samples := []

/-- The state after reset of an L1DSP of configuration `c` (R450, R451). -/
def State.resetOf (c : Config) : State where
  cfg := c
  mem := []
  irqEn := false
  status := .reset
  cmd := 0#32
  args := Vector.replicate 16 0#32
  res := Vector.replicate 8 0#32
  sampleRate := 0x48843E2B#32
  fcch := .reset c
  td := .reset
  pulse := .reset
  fault := none
  agenda := []
  answer := none

/-- The machine right after reset, at the default parameters of R11 (R450, R451; log entry 3). -/
def State.reset : State := State.resetOf Config.default

end Sys2Proof.Machine
end

