-- ==== Sys2Proof/Machine/Flags.lean ====
section
/-!
DEFINITION. STATUS, CTRL and the interrupt line: every flag computation of L1DSP (10_state.md R56-R60,
60_exceptions.md R412, R425).
-/
namespace Sys2Proof.Machine

/-- The code of an error (R412). -/
def ErrCode.code : ErrCode → BitVec 8
  | .none => 0#8
  | .illegal => 1#8
  | .range => 2#8
  | .align => 3#8
  | .overlap => 4#8
  | .length => 5#8
  | .value => 6#8
  | .capacity => 7#8
  | .valley => 8#8
  | .unimpl => 9#8
  | .fftsize => 10#8
  | .data => 11#8

/-- STATUS as it reads: bit 0 BUSY, 1 DONE, 2 ERR, 3 DETECT, 4 ACC_VIOL, 5 CMD_LOST, 15:8 ERRCODE, 23:16 LAST_OPC, the
rest 0 (R57). -/
def Status.word (t : Status) : Word :=
  0#8 ++ t.lastOpc ++ t.errcode.code ++ 0#2 ++ BitVec.ofBool t.cmdLost ++ BitVec.ofBool t.accViol
    ++ BitVec.ofBool t.detect ++ BitVec.ofBool t.err ++ BitVec.ofBool t.done ++ BitVec.ofBool t.busy

/-- A host write to STATUS clears DONE, ERR, ACC_VIOL and CMD_LOST where the written bit is 1 and leaves every other bit
(R60). -/
def Status.writeOneToClear (t : Status) (w : Word) : Status :=
  { t with
    done := t.done && !w.getLsbD 1
    err := t.err && !w.getLsbD 2
    accViol := t.accViol && !w.getLsbD 4
    cmdLost := t.cmdLost && !w.getLsbD 5 }

/-- STATUS when a command word is accepted (R58). -/
def Status.accept (t : Status) (w : Word) : Status :=
  { t with
    busy := true
    done := false
    err := false
    detect := false
    errcode := .none
    lastOpc := w.extractLsb' 0 8 }

/-- STATUS when a command completes without error, with the outcome flag of its rule (R59, R200). -/
def Status.completeOk (t : Status) (detect : Bool) : Status :=
  { t with busy := false, done := true, err := false, errcode := .none, detect := detect }

/-- STATUS when a command ends with an error (R59, R414). -/
def Status.completeErr (t : Status) (c : ErrCode) : Status :=
  { t with busy := false, done := true, err := true, errcode := c, detect := false }

/-- CTRL as it reads: bit 0 IRQ_EN, the rest 0 (R56). -/
def ctrlWord (irqEn : Bool) : Word := Word.ofBit irqEn

/-- The interrupt output: DONE AND IRQ_EN (R425). -/
def State.irq (s : State) : Bool := s.status.done && s.irqEn

end Sys2Proof.Machine
end

