-- ==== Sys2Proof/Machine/Ops.lean ====
section
/-!
DEFINITION. The named operations over memory and registers, and the two shared operations that end a command: the
completion update with an error and the completion update without one (10_state.md R59, 60_exceptions.md R410-R415, R421).

L1DSP has no exception entry and no return from exception (R410, R422). Its counterpart of taking an exception is
`State.completeErr`; there is nothing to return to.
-/
namespace Sys2Proof.Machine

/-! ## DMEM (R22, R100, R105, R107) -/

/-- The byte at a byte address, none where nothing is written. -/
def Memory.readByte (m : Memory) (k : Nat) : Option Byte :=
  match m with
  | [] => none
  | (k', b) :: rest => if k' = k then some b else Memory.readByte rest k

/-- Writes one byte, keeping the addresses strictly rising. -/
def Memory.writeByte (m : Memory) (k : Nat) (b : Byte) : Memory :=
  match m with
  | [] => [(k, b)]
  | (k', b') :: rest =>
    if k < k' then (k, b) :: (k', b') :: rest
    else if k = k' then (k, b) :: rest
    else (k', b') :: Memory.writeByte rest k b

/-- `MemRead(a, 1)`: the word at word address `a`, none where it is unwritten (R22, R105). -/
def Memory.readWord (m : Memory) (a : Nat) : Option Word :=
  match m.readByte (4 * a), m.readByte (4 * a + 1), m.readByte (4 * a + 2), m.readByte (4 * a + 3) with
  | some b0, some b1, some b2, some b3 => some (wordOfLanes b0 b1 b2 b3)
  | _, _, _, _ => none

/-- `MemWrite(a, 1, w)` (R22). -/
def Memory.writeWord (m : Memory) (a : Nat) (w : Word) : Memory :=
  Memory.writeByte (Memory.writeByte (Memory.writeByte (Memory.writeByte m (4 * a) (laneOf w 0))
    (4 * a + 1) (laneOf w 1)) (4 * a + 2) (laneOf w 2)) (4 * a + 3) (laneOf w 3)

/-- Writes consecutive words from word address `a` on. -/
def Memory.writeWords (m : Memory) (a : Nat) (ws : List Word) : Memory :=
  match ws with
  | [] => m
  | w :: rest => Memory.writeWords (m.writeWord a w) (a + 1) rest

/-- Makes the words [a, a + n) unwritten (R452). -/
def Memory.unwrite (m : Memory) (a n : Nat) : Memory :=
  m.filter fun c => !(decide (4 * a ≤ c.1) && decide (c.1 < 4 * (a + n)))

/-- The canonical form: addresses strictly rising. An unlisted byte has no value, so no entry can equal it. -/
abbrev Memory.wf (m : Memory) : Prop := m.Pairwise fun c d => c.1 < d.1

/-- Every listed byte lies in DMEM (R100). -/
abbrev Memory.within (m : Memory) (words : Nat) : Prop := ∀ c ∈ m, c.1 < 4 * words

/-- A word is written whole or not at all (R105, R107): with one of its bytes all four are listed. -/
abbrev Memory.whole (m : Memory) : Prop :=
  ∀ c ∈ m, (m.readWord (c.1 / 4)).isSome = true

/-! ## Reading in a command: a computation that stops at an unwritten word, naming it (R105, R430) -/

/-- A value computed from DMEM words, or the address of the first unwritten word that was read. -/
abbrev Rd (α : Type) := Except Nat α

def rdWord (m : Memory) (a : Nat) : Rd Word :=
  match m.readWord a with
  | some w => .ok w
  | none => .error a

/-- `f lo`, …, `f (lo + n - 1)` in ascending order. -/
def tabRd {α : Type} (f : Nat → Rd α) : (lo n : Nat) → Rd (List α)
  | _, 0 => .ok []
  | lo, n + 1 =>
    match f lo with
    | .error a => .error a
    | .ok x =>
      match tabRd f (lo + 1) n with
      | .error a => .error a
      | .ok xs => .ok (x :: xs)

/-- `for i in [lo, lo + n): acc <- f i acc` (R23). -/
def foldRd {σ : Type} (f : Nat → σ → Rd σ) : (lo n : Nat) → σ → Rd σ
  | _, 0, acc => .ok acc
  | lo, n + 1, acc =>
    match f lo acc with
    | .error a => .error a
    | .ok acc' => foldRd f (lo + 1) n acc'

/-- `for x in xs: acc <- f x acc`. -/
def foldRdList {α σ : Type} (f : α → σ → Rd σ) : List α → σ → Rd σ
  | [], acc => .ok acc
  | x :: xs, acc =>
    match f x acc with
    | .error a => .error a
    | .ok acc' => foldRdList f xs acc'

/-! ## Registers (R21, R53, R54) -/

/-- `ARG[i]`. -/
def State.arg (s : State) (i : Fin 16) : Word := s.args[i]

/-- `RES[i] <- w`. -/
def State.setRes (s : State) (i : Fin 8) (w : Word) : State := { s with res := s.res.set i w }

/-- `RES[i] <- w` for each pair, in order. -/
def State.setResults (s : State) (rs : List (Fin 8 × Word)) : State :=
  match rs with
  | [] => s
  | (i, w) :: rest => (s.setRes i w).setResults rest

/-- Writes each vector of words at its word address, in order. -/
def State.storeAll (s : State) (vs : List (Nat × List Word)) : State :=
  match vs with
  | [] => s
  | (a, ws) :: rest => State.storeAll { s with mem := s.mem.writeWords a ws } rest

/-! ## The end of a command (R59, R414, R421) -/

/-- The completion update with error code `c`: STATUS, and nothing else (R59, R414). It is the one shared operation by
which a command reports that it cannot be performed (R410). -/
def State.completeErr (s : State) (c : ErrCode) : State :=
  { s with status := s.status.completeErr c }

/-- The completion update without error, with the outcome flag of the command's rule (R59). -/
def State.completeOk (s : State) (detect : Bool) : State :=
  { s with status := s.status.completeOk detect }

/-- Everything a command writes when it completes without error: its destination vectors, its result registers, and the
internal state its rule names; `none` leaves that piece of state as it is (R421). -/
structure Effect where
  /-- destination vectors: word address and words -/
  stores : List (Nat × List Word) := []
  /-- result registers (R54) -/
  results : List (Fin 8 × Word) := []
  /-- the FCCH predictor -/
  fcch : Option Fcch := none
  /-- the transition detector -/
  td : Option TransDet := none
  /-- the Gaussian-pulse cache -/
  pulse : Option Pulse := none
  /-- the outcome flag `STATUS.DETECT` (R59) -/
  detect : Bool := false
  deriving DecidableEq, Repr

/-- All writes of a command and its completion update, in one update (R113, R421). -/
def State.apply (s : State) (e : Effect) : State :=
  let t := (s.storeAll e.stores).setResults e.results
  { t with
    fcch := e.fcch.getD s.fcch
    td := e.td.getD s.td
    pulse := e.pulse.getD s.pulse
    status := s.status.completeOk e.detect }

/-- The engine step of a command (R421): when its checks report an error code, the error completion; else its whole effect
with the completion. Reading an unwritten word is the fault of R430, with the command word. The effect is a function, so
that it is computed only after the checks. -/
def perform (s : State) (checks : Rd (Option ErrCode)) (effect : State → Rd Effect) :
    Host.Outcome State Fault Refusal :=
  match checks with
  | .error a => .fault (.unwritten a (some s.cmd))
  | .ok (some c) => .next (s.completeErr c)
  | .ok none =>
    match effect s with
    | .error a => .fault (.unwritten a (some s.cmd))
    | .ok e => .next (s.apply e)

end Sys2Proof.Machine
end

