-- ==== Sys2Proof/Machine/Operands.lean ====
section
/-!
DEFINITION. Operand forms, vector operands and the checks on them (30_encoding.md R144; 20_memory.md R101, R103, R111;
60_exceptions.md R413).
-/
namespace Sys2Proof.Machine

/-! ## Operand forms (R21, R144) -/

/-- `addr` and `len`: an unsigned 32-bit integer. -/
def State.argN (s : State) (i : Fin 16) : Nat := (s.arg i).toNat

/-- `int`: a two's-complement signed 32-bit integer (`ARGs[i]`). -/
def State.argI (s : State) (i : Fin 16) : Int := (s.arg i).toInt

/-- `real`: a binary32 value (`ARGf[i]`). -/
def State.argF (s : State) (i : Fin 16) : F32 := s.arg i

/-- `creal`: the pair of two argument registers. -/
def State.argC (s : State) (i j : Fin 16) : Cplx := ⟨s.arg i, s.arg j⟩

/-! ## Elements of vectors in DMEM (R22, R101) -/

/-- `RRead(a, k)`. -/
def rread (m : Memory) (a k : Nat) : Rd F32 := rdWord m (a + k)

/-- `BRead(a, k)`: bit 0 of the word. -/
def bread (m : Memory) (a k : Nat) : Rd Bool :=
  match rdWord m (a + k) with
  | .error e => .error e
  | .ok w => .ok (w.getLsbD 0)

/-- `CRead(a, k)`: the real part first. -/
def cread (m : Memory) (a k : Nat) : Rd Cplx :=
  match rdWord m (a + 2 * k) with
  | .error e => .error e
  | .ok re =>
    match rdWord m (a + 2 * k + 1) with
    | .error e => .error e
    | .ok im => .ok ⟨re, im⟩

/-- Elements 0 .. n-1 of a complex vector, in ascending order. -/
def creadAll (m : Memory) (a n : Nat) : Rd (List Cplx) := tabRd (cread m a) 0 n

/-- Elements 0 .. n-1 of a bit vector, in ascending order. -/
def breadAll (m : Memory) (a n : Nat) : Rd (List Bool) := tabRd (bread m a) 0 n

/-- The words of a complex vector: re then im of each element (R101). -/
def cplxWords (zs : List Cplx) : List Word := zs.flatMap fun z => [z.re, z.im]

/-- The words of a bit vector: bit 0, bits 31:1 zero (R101). -/
def bitWords (bs : List Bool) : List Word := bs.map Word.ofBit

/-! ## Conditions of the checks -/

/-- A vector of `w` words at word address `a` is in range (R103). -/
def State.inRange (s : State) (a w : Nat) : Bool := decide (a + w ≤ s.cfg.dmemWords)

/-- The address of a complex vector is a multiple of 2 (R101). -/
def isEven (a : Nat) : Bool := a % 2 == 0

/-- Two word ranges overlap (R111). -/
def overlap (a n b m : Nat) : Bool :=
  decide (0 < n) && decide (0 < m) && decide (a < b + m) && decide (b < a + n)

/-- Two word ranges are disjoint (R200). -/
def disjoint (a n b m : Nat) : Bool := !overlap a n b m

/-- The code of the first condition that fails, in the order the checks are listed (R413). -/
def firstFailing : List (Bool × ErrCode) → Option ErrCode
  | [] => none
  | (ok, c) :: rest => if ok then firstFailing rest else some c

/-- Checks that read no DMEM word. -/
def pureChecks (cs : List (Bool × ErrCode)) : Rd (Option ErrCode) := .ok (firstFailing cs)

/-- A word that holds an unsigned integer result. -/
def natWord (n : Nat) : Word := BitVec.ofNat 32 n

/-- A word that holds a signed integer result, in two's complement. -/
def intWord (n : Int) : Word := BitVec.ofInt 32 n

end Sys2Proof.Machine
end

