-- ==== Sys2Proof/Machine/Primitives.lean ====
section
/-!
DEFINITION. The complex-DSP primitive commands (40_dsp_primitives.md R200-R231).

Every command has its checks in the order of its rule, the DMEM ranges its rule names as written (used by the soft reset,
R452, R453), its effect, and its meaning: `perform` of the two.
-/
namespace Sys2Proof.Machine

/-! ## NOP (R201) -/

def nopChecks (_ : State) : Rd (Option ErrCode) := pureChecks []

def nopEffect (_ : State) : Rd Effect := .ok {}

/-- `NOP` does nothing and completes (R201). -/
def execNop (s : State) : Host.Outcome State Fault Refusal := perform s (nopChecks s) nopEffect

/-! ## Sinc, interpolation and peak detection (R202-R205) -/

/-- `SincF` (R202): SIN32(x) ÷ x for |x| > 1e-4, else 1. -/
def sincF (x : F32) : F32 :=
  if F32.lt 0x38D1B717#32 (F32.abs x) then F32.div (Config.sin32 x) x else F32.one

def sincChecks (_ : State) : Rd (Option ErrCode) := pureChecks []

def sincEffect (s : State) : Rd Effect := .ok { results := [(0, sincF (s.argF 0))] }

/-- `SINC` (R202). -/
def execSinc (s : State) : Host.Outcome State Fault Refusal := perform s (sincChecks s) sincEffect

/-- `INTERP_WINDOW`, 1 at 0 (R11). -/
def interpWindow (x : F32) : F32 := if F32.isZero x then F32.one else Config.windowAt x

/-- The weight of element `k` in the interpolation at `t` (R203). -/
def interpWeight (windowed : Bool) (t : F32) (k : Nat) : F32 :=
  let u := F32.sub t (F32.ofInt k)
  let w := sincF (F32.mul F32.pi u)
  if windowed then F32.mul w (interpWindow u) else w

/-- `InterpF` (R203) of a vector of `n` elements read by `rd`, at a finite `t`. -/
def interpF (windowed : Bool) (rd : Nat → Rd Cplx) (n : Nat) (t : F32) : Rd Cplx :=
  let fl := F32.floor t
  let lo := max (fl - 10) 0
  let hi := min (fl + 10) ((n : Int) - 1) + 1
  foldRd (fun k acc => do
    let z ← rd k
    .ok (acc.add (Cplx.smul (interpWeight windowed t k) z))) lo.toNat (hi - lo).toNat Cplx.zero

def interpChecks (s : State) : Rd (Option ErrCode) :=
  pureChecks
    [(F32.convertible F32.floor (s.argF 2), .value),
     (isEven (s.argN 0), .align),
     (s.inRange (s.argN 0) (2 * s.argN 1), .range)]

def interpEffect (s : State) : Rd Effect := do
  let z ← interpF s.cfg.windowed (cread s.mem (s.argN 0)) (s.argN 1) (s.argF 2)
  .ok { results := [(0, z.re), (1, z.im)] }

/-- `INTERP` (R203). -/
def execInterp (s : State) : Host.Outcome State Fault Refusal := perform s (interpChecks s) interpEffect

/-- What `PeakDetectF` returns (R204). -/
structure PeakResult where
  maxI : F32
  peak : Cplx
  avg : F32
  imax : Nat
  deriving DecidableEq, Repr

/-- The sum of powers, the greatest power so far (from −1) and its first index (R204). -/
def peakScan (rd : Nat → Rd Cplx) (n : Nat) : Rd (F32 × F32 × Nat) :=
  foldRd (fun i acc => do
    let z ← rd i
    let pw := z.norm
    let sum := F32.add acc.1 pw
    if F32.lt acc.2.1 pw then .ok (sum, pw, i) else .ok (sum, acc.2.1, acc.2.2)) 0 n (0#32, F32.minusOne, 0)

/-- The search of R204 for the fractional maximum: `early` moves toward the larger side by `incr`, which halves, until
incr < 1/1024 or a tie. `incr` starts at 0.5, so it falls below 1/1024 before the fuel of 11 rounds ends. -/
def peakSearch (windowed : Bool) (rd : Nat → Rd Cplx) (n : Nat) : (fuel : Nat) → (early incr : F32) → Rd F32
  | 0, early, _ => .ok early
  | fuel + 1, early, incr =>
    if F32.le 0x3A800000#32 incr then do
      let e ← interpF windowed rd n early
      let l ← interpF windowed rd n (F32.add early F32.two)
      let pe := e.norm
      let pl := l.norm
      if F32.lt pe pl then peakSearch windowed rd n fuel (F32.add early incr) (F32.div incr F32.two)
      else if F32.lt pl pe then peakSearch windowed rd n fuel (F32.sub early incr) (F32.div incr F32.two)
      else .ok early
    else .ok early

/-- `PeakDetectF` (R204) of a vector of `n` elements read by `rd`. -/
def peakDetectF (windowed : Bool) (rd : Nat → Rd Cplx) (n : Nat) : Rd PeakResult := do
  let (sumP, _, imax) ← peakScan rd n
  let early ← peakSearch windowed rd n 11 (F32.sub (F32.ofInt imax) F32.one) F32.half
  let maxI := F32.add early F32.one
  let peak ← interpF windowed rd n maxI
  .ok { maxI := maxI, peak := peak, avg := F32.div (F32.sub sumP peak.norm) (F32.ofInt ((n : Int) - 1)), imax := imax }

def peakChecks (s : State) : Rd (Option ErrCode) :=
  pureChecks
    [(decide (1 ≤ s.argN 1), .length),
     (isEven (s.argN 0), .align),
     (s.inRange (s.argN 0) (2 * s.argN 1), .range)]

def peakEffect (s : State) : Rd Effect := do
  let r ← peakDetectF s.cfg.windowed (cread s.mem (s.argN 0)) (s.argN 1)
  .ok { results := [(0, r.maxI), (1, r.peak.re), (2, r.peak.im), (3, r.avg), (4, natWord r.imax)] }

/-- `PEAK` (R204). -/
def execPeak (s : State) : Host.Outcome State Fault Refusal := perform s (peakChecks s) peakEffect

/-- `j` as an index of a vector of `n` elements, if it is one. -/
def indexIn (n : Nat) (j : Int) : List Nat := if 0 ≤ j ∧ j < n then [j.toNat] else []

/-- The least i ≥ 2 with peak_index − i or peak_index + i inside a vector of `n` elements, if there is one. -/
def valleyFirst (n : Nat) (peakIndex : Int) : Nat := max 2 (max (-peakIndex) (peakIndex - n + 1)).toNat

/-- One more than the greatest i with peak_index − i or peak_index + i inside a vector of `n` elements, if there is one. -/
def valleyEnd (n : Nat) (peakIndex : Int) : Nat := (max (peakIndex + 1) (n - peakIndex)).toNat

/-- The indices `P2M` accumulates, in order: peak_index − i, then peak_index + i, for i in [2, 2 + width), inside the vector
only (R205). The i that can reach no element of the vector are left out; Laws/Primitives.lean shows that they add
nothing. -/
def valleyIndices (n : Nat) (peakIndex : Int) (width : Nat) : List Nat :=
  let first := valleyFirst n peakIndex
  (List.range' first (min (2 + width) (valleyEnd n peakIndex) - first)).flatMap fun (i : Nat) =>
    indexIn n (peakIndex - i) ++ indexIn n (peakIndex + i)

def p2mChecks (s : State) : Rd (Option ErrCode) :=
  pureChecks
    [(isEven (s.argN 0), .align),
     (s.inRange (s.argN 0) (2 * s.argN 1), .range),
     (decide (2 ≤ (valleyIndices (s.argN 1) (s.argI 4) (s.argN 5)).length), .valley)]

/-- Σ norm over the given elements, in order, from +0. -/
def energyOver (rd : Nat → Rd Cplx) (is : List Nat) : Rd F32 :=
  foldRdList (fun i acc => do
    let z ← rd i
    .ok (F32.add acc z.norm)) is 0#32

def p2mEffect (s : State) : Rd Effect := do
  let is := valleyIndices (s.argN 1) (s.argI 4) (s.argN 5)
  let acc ← energyOver (cread s.mem (s.argN 0)) is
  let valley := F32.add (F32.sqrt (F32.div acc (F32.ofInt is.length))) 0x3727C5AC#32
  .ok { results := [(0, F32.div (s.argC 2 3).abs valley), (1, natWord is.length)] }

/-- `P2M` (R205). -/
def execP2m (s : State) : Host.Outcome State Fault Refusal := perform s (p2mChecks s) p2mEffect

/-! ## π/2 rotation (R206, R207) -/

def rotChecks (s : State) : Rd (Option ErrCode) :=
  pureChecks
    [(decide (s.argN 2 + s.argN 1 ≤ 1024), .length),
     (isEven (s.argN 0), .align),
     (s.inRange (s.argN 0) (2 * s.argN 1), .range)]

/-- The vector each of whose elements is multiplied by the table's entry at offset + i. -/
def rotated (table : Nat → Cplx) (rd : Nat → Rd Cplx) (n offset : Nat) : Rd (List Cplx) :=
  tabRd (fun i => do
    let z ← rd i
    .ok (z.mul (table (offset + i)))) 0 n

def rotDst (s : State) : List (Nat × Nat) := [(s.argN 0, 2 * s.argN 1)]

def rotEffect (s : State) : Rd Effect := do
  let zs ← rotated rotEntry (cread s.mem (s.argN 0)) (s.argN 1) (s.argN 2)
  .ok { stores := [(s.argN 0, cplxWords zs)] }

/-- `ROT` (R206), in place. -/
def execRot (s : State) : Host.Outcome State Fault Refusal := perform s (rotChecks s) rotEffect

def rrotEffect (s : State) : Rd Effect := do
  let zs ← rotated rrotEntry (cread s.mem (s.argN 0)) (s.argN 1) (s.argN 2)
  .ok { stores := [(s.argN 0, cplxWords zs)] }

/-- `RROT` (R207), in place; its checks are those of `ROT`. -/
def execRrot (s : State) : Host.Outcome State Fault Refusal := perform s (rotChecks s) rrotEffect

/-! ## Convolution and correlation (R208-R212) -/

/-- `ConvF` (R208): output sample `n` of the full convolution of x (`xn` elements) with the taps h (`hn` elements), the tap
as the left factor, k ascending, only elements inside x. -/
def convAt (rh rx : Nat → Rd Cplx) (hn xn n : Nat) : Rd Cplx :=
  foldRd (fun k acc =>
    if k ≤ n ∧ n - k < xn then do
      let h ← rh k
      let x ← rx (n - k)
      .ok (acc.add (h.mul x))
    else .ok acc) 0 hn Cplx.zero

/-- `RevConj` (R208): tap `k` of the reversed, conjugated reference. -/
def revConj (m : Memory) (r rn k : Nat) : Rd Cplx := do
  let z ← cread m r (rn - 1 - k)
  .ok z.conj

/-- The shift of the centred variants: floor((hn − 1) / 2) (R208). -/
def centreShift (hn : Nat) : Nat := (hn - 1) / 2

/-- The checks of the four convolution commands, for an output of `outLen` elements (R209, R210). -/
def convChecksFor (s : State) (outLen : Nat) : Rd (Option ErrCode) :=
  pureChecks
    [(decide (1 ≤ s.argN 1), .length), (decide (1 ≤ s.argN 3), .length),
     (isEven (s.argN 0), .align), (isEven (s.argN 2), .align), (isEven (s.argN 4), .align),
     (s.inRange (s.argN 0) (2 * s.argN 1), .range), (s.inRange (s.argN 2) (2 * s.argN 3), .range),
     (s.inRange (s.argN 4) (2 * outLen), .range),
     (disjoint (s.argN 4) (2 * outLen) (s.argN 0) (2 * s.argN 1), .overlap),
     (disjoint (s.argN 4) (2 * outLen) (s.argN 2) (2 * s.argN 3), .overlap)]

/-- The length of the full convolution: xn + hn − 1 (R209). -/
def State.fullLen (s : State) : Nat := s.argN 1 + s.argN 3 - 1

def convChecks (s : State) : Rd (Option ErrCode) := convChecksFor s s.fullLen

def convDst (s : State) : List (Nat × Nat) := [(s.argN 4, 2 * s.fullLen)]

def convEffect (s : State) : Rd Effect := do
  let ys ← tabRd (convAt (cread s.mem (s.argN 2)) (cread s.mem (s.argN 0)) (s.argN 3) (s.argN 1)) 0 s.fullLen
  .ok { stores := [(s.argN 4, cplxWords ys)], results := [(0, natWord s.fullLen)] }

/-- `CONV` (R209). -/
def execConv (s : State) : Host.Outcome State Fault Refusal := perform s (convChecks s) convEffect

def convNdChecks (s : State) : Rd (Option ErrCode) := convChecksFor s (s.argN 1)

def convNdDst (s : State) : List (Nat × Nat) := [(s.argN 4, 2 * s.argN 1)]

def convNdEffect (s : State) : Rd Effect := do
  let ys ← tabRd (fun n => convAt (cread s.mem (s.argN 2)) (cread s.mem (s.argN 0)) (s.argN 3) (s.argN 1)
    (n + centreShift (s.argN 3))) 0 (s.argN 1)
  .ok { stores := [(s.argN 4, cplxWords ys)], results := [(0, natWord (s.argN 1))] }

/-- `CONV_ND` (R210). -/
def execConvNd (s : State) : Host.Outcome State Fault Refusal := perform s (convNdChecks s) convNdEffect

def corrEffect (s : State) : Rd Effect := do
  let ys ← tabRd (convAt (revConj s.mem (s.argN 2) (s.argN 3)) (cread s.mem (s.argN 0)) (s.argN 3) (s.argN 1)) 0 s.fullLen
  .ok { stores := [(s.argN 4, cplxWords ys)], results := [(0, natWord s.fullLen)] }

/-- `CORR` (R211); its checks are those of `CONV` with h = r. -/
def execCorr (s : State) : Host.Outcome State Fault Refusal := perform s (convChecks s) corrEffect

def corrNdEffect (s : State) : Rd Effect := do
  let ys ← tabRd (fun n => convAt (revConj s.mem (s.argN 2) (s.argN 3)) (cread s.mem (s.argN 0)) (s.argN 3) (s.argN 1)
    (n + centreShift (s.argN 3))) 0 (s.argN 1)
  .ok { stores := [(s.argN 4, cplxWords ys)], results := [(0, natWord (s.argN 1))] }

/-- `CORR_ND` (R212); its checks are those of `CONV_ND` with h = r. -/
def execCorrNd (s : State) : Host.Outcome State Fault Refusal := perform s (convNdChecks s) corrNdEffect

/-! ## Fractional-sample delay (R213) -/

def delayChecks (s : State) : Rd (Option ErrCode) :=
  pureChecks
    [(F32.convertible F32.floor (s.argF 2), .value),
     (isEven (s.argN 0), .align),
     (s.inRange (s.argN 0) (2 * s.argN 1), .range)]

/-- Tap `i` of the 21-tap shifted-sinc filter, centre 10 (R213). -/
def delayTap (fds : F32) (i : Nat) : Cplx :=
  Cplx.ofReal (sincF (F32.mul F32.pi (F32.sub (F32.ofInt ((i : Int) - 10)) fds)))

/-- The intermediate buffer: the centred convolution when fds ≥ 0.01, else a copy (R213). -/
def delayBuffer (rd : Nat → Rd Cplx) (n : Nat) (fds : F32) : Rd (List Cplx) :=
  if F32.le 0x3C23D70A#32 fds then tabRd (fun m => convAt (fun k => .ok (delayTap fds k)) rd 21 n (m + 10)) 0 n
  else tabRd rd 0 n

/-- The buffer moved later by `ids` samples, the vacated places zero (R213). -/
def shifted (buf : List Cplx) (n : Nat) (ids : Int) : List Cplx :=
  (List.range n).map fun (m : Nat) =>
    if 0 ≤ (m : Int) - ids ∧ (m : Int) - ids < n then buf.getD ((m : Int) - ids).toNat Cplx.zero else Cplx.zero

def delayDst (s : State) : List (Nat × Nat) := [(s.argN 0, 2 * s.argN 1)]

def delayEffect (s : State) : Rd Effect := do
  let ids := F32.floor (s.argF 2)
  let fds := F32.sub (s.argF 2) (F32.ofInt ids)
  let buf ← delayBuffer (cread s.mem (s.argN 0)) (s.argN 1) fds
  .ok { stores := [(s.argN 0, cplxWords (shifted buf (s.argN 1) ids))], results := [(0, intWord ids), (1, fds)] }

/-- `DELAY` (R213), in place. -/
def execDelay (s : State) : Host.Outcome State Fault Refusal := perform s (delayChecks s) delayEffect

/-! ## Scaling, conjugation, slicing and energy (R214-R218) -/

/-- The checks of `SCALE` and `CONJ`: the destination is the source or disjoint from it (R214, R215). -/
def scaleChecks (s : State) : Rd (Option ErrCode) :=
  pureChecks
    [(isEven (s.argN 0), .align), (isEven (s.argN 2), .align),
     (s.inRange (s.argN 0) (2 * s.argN 1), .range), (s.inRange (s.argN 2) (2 * s.argN 1), .range),
     (s.argN 2 == s.argN 0 || disjoint (s.argN 2) (2 * s.argN 1) (s.argN 0) (2 * s.argN 1), .overlap)]

/-- Each element of a vector, mapped, in ascending order. -/
def mappedVec {α β : Type} (f : α → β) (rd : Nat → Rd α) (n : Nat) : Rd (List β) :=
  tabRd (fun i => do
    let z ← rd i
    .ok (f z)) 0 n

def scaleDst (s : State) : List (Nat × Nat) := [(s.argN 2, 2 * s.argN 1)]

def scaleEffect (s : State) : Rd Effect := do
  let zs ← mappedVec (Cplx.smul (s.argF 3)) (cread s.mem (s.argN 0)) (s.argN 1)
  .ok { stores := [(s.argN 2, cplxWords zs)] }

/-- `SCALE` (R214). -/
def execScale (s : State) : Host.Outcome State Fault Refusal := perform s (scaleChecks s) scaleEffect

def conjEffect (s : State) : Rd Effect := do
  let zs ← mappedVec Cplx.conj (cread s.mem (s.argN 0)) (s.argN 1)
  .ok { stores := [(s.argN 2, cplxWords zs)] }

/-- `CONJ` (R215). -/
def execConj (s : State) : Host.Outcome State Fault Refusal := perform s (scaleChecks s) conjEffect

/-- `SoftF` (R216): (1 − Re z) ÷ 2 clamped to [0, 1]; a NaN passes both comparisons. -/
def softF (z : Cplx) : F32 :=
  let y := F32.div (F32.sub F32.one z.re) F32.two
  if F32.lt y 0#32 then 0#32
  else if F32.lt F32.one y then F32.one
  else y

def sliceSoftChecks (s : State) : Rd (Option ErrCode) :=
  pureChecks
    [(isEven (s.argN 0), .align),
     (s.inRange (s.argN 0) (2 * s.argN 1), .range), (s.inRange (s.argN 2) (s.argN 1), .range),
     (disjoint (s.argN 2) (s.argN 1) (s.argN 0) (2 * s.argN 1), .overlap)]

def sliceSoftDst (s : State) : List (Nat × Nat) := [(s.argN 2, s.argN 1)]

def sliceSoftEffect (s : State) : Rd Effect := do
  let ys ← mappedVec softF (cread s.mem (s.argN 0)) (s.argN 1)
  .ok { stores := [(s.argN 2, ys)] }

/-- `SLICE_SOFT` (R216). -/
def execSliceSoft (s : State) : Host.Outcome State Fault Refusal :=
  perform s (sliceSoftChecks s) sliceSoftEffect

/-- The hard slice: 1 exactly when the soft value is above 0.5 (R217). -/
def sliceBit (y : F32) : Bool := F32.lt F32.half y

def sliceChecks (s : State) : Rd (Option ErrCode) :=
  pureChecks
    [(s.inRange (s.argN 0) (s.argN 1), .range), (s.inRange (s.argN 2) (s.argN 1), .range),
     (s.argN 2 == s.argN 0 || disjoint (s.argN 2) (s.argN 1) (s.argN 0) (s.argN 1), .overlap)]

def sliceDst (s : State) : List (Nat × Nat) := [(s.argN 2, s.argN 1)]

def sliceEffect (s : State) : Rd Effect := do
  let bs ← mappedVec sliceBit (rread s.mem (s.argN 0)) (s.argN 1)
  .ok { stores := [(s.argN 2, bitWords bs)] }

/-- `SLICE` (R217). -/
def execSlice (s : State) : Host.Outcome State Fault Refusal := perform s (sliceChecks s) sliceEffect

def norm2Checks (s : State) : Rd (Option ErrCode) :=
  pureChecks
    [(isEven (s.argN 0), .align),
     (s.inRange (s.argN 0) (2 * s.argN 1), .range)]

def norm2Effect (s : State) : Rd Effect := do
  let acc ← energyOver (cread s.mem (s.argN 0)) (List.range (s.argN 1))
  .ok { results := [(0, acc)] }

/-- `NORM2` (R218). -/
def execNorm2 (s : State) : Host.Outcome State Fault Refusal := perform s (norm2Checks s) norm2Effect

/-! ## Polyphase resampler (R231) -/

/-- `RESAMPLE_LEN` of the operands (R231). -/
def State.resampleOut (s : State) : Nat := Config.resampleLen (s.argN 1) (s.argN 3) (s.argN 4)

def resampleChecks (s : State) : Rd (Option ErrCode) :=
  pureChecks
    [(s.cfg.resample, .unimpl),
     (decide (1 ≤ s.argN 3), .length), (decide (1 ≤ s.argN 4), .length),
     (isEven (s.argN 0), .align), (isEven (s.argN 2), .align),
     (s.inRange (s.argN 0) (2 * s.argN 1), .range), (s.inRange (s.argN 2) (2 * s.resampleOut), .range),
     (disjoint (s.argN 2) (2 * s.resampleOut) (s.argN 0) (2 * s.argN 1), .overlap)]

def resampleDst (s : State) : List (Nat × Nat) := [(s.argN 2, 2 * s.resampleOut)]

def resampleEffect (s : State) : Rd Effect := do
  let xs ← creadAll s.mem (s.argN 0) (s.argN 1)
  let ys := (List.range s.resampleOut).map (Config.resampleAt xs (s.argN 3) (s.argN 4))
  .ok { stores := [(s.argN 2, cplxWords ys)], results := [(0, natWord s.resampleOut)] }

/-- `RESAMPLE` (R231): the open functions where the configuration supplies them, else `ERR_UNIMPL`. -/
def execResample (s : State) : Host.Outcome State Fault Refusal :=
  perform s (resampleChecks s) resampleEffect

end Sys2Proof.Machine
end

