-- ==== Sys2Proof/Machine/Detector.lean ====
section
/-!
DEFINITION. The adaptive linear-prediction filter and the FCCH detector (42_fcch_detector.md R280-R294).
-/
namespace Sys2Proof.Machine

/-! ## The predictor (R281-R283) -/

/-- `XBUF[i]`. -/
def Fcch.x (f : Fcch) (i : Nat) : Cplx := f.xbuf.getD i Cplx.zero

/-- `w[i]`. -/
def Fcch.tap (f : Fcch) (i : Nat) : Cplx := f.taps.toList.getD i Cplx.zero

/-- The window energy E: Σ norm(XBUF[i]), i in [0, 17) (R281). -/
def Fcch.energy (f : Fcch) : F32 := (List.range 17).foldl (fun acc i => F32.add acc (f.x i).norm) 0#32

/-- The step size of this step: 1/E when G ≥ 2/E, else G (R281). -/
def Fcch.stepSize (f : Fcch) : F32 :=
  if F32.le (F32.div F32.two f.energy) f.g then F32.div F32.one f.energy else f.g

/-- The prediction y: Σ conj(w[i]) × XBUF[16 − i] (R281). -/
def Fcch.predicted (f : Fcch) : Cplx :=
  (List.range 17).foldl (fun acc i => acc.add ((f.tap i).conj.mul (f.x (16 - i)))) Cplx.zero

/-- The prediction error e: XBUF[16 + D] − y (R281). -/
def Fcch.error (f : Fcch) : Cplx := (f.x (16 + f.d.toNat)).sub f.predicted

/-- The leaky error average after the step: ((1 − p) × me) + (p × norm(e)) (R281). -/
def Fcch.nextMe (f : Fcch) : F32 :=
  F32.add (F32.mul (F32.sub F32.one f.p) f.me) (F32.mul f.p f.error.norm)

/-- The normalized error the step outputs: me ÷ (E ÷ 17) (R281). -/
def Fcch.normalizedError (f : Fcch) : F32 := F32.div f.nextMe (F32.div f.energy 0x41880000#32)

/-- The taps after the step: w[i] + (G × conj(e)) × XBUF[16 − i] (R281). -/
def Fcch.nextTaps (f : Fcch) : Vector Cplx 17 :=
  let ge := Cplx.smul f.stepSize f.error.conj
  Vector.ofFn fun i : Fin 17 => (f.tap i).add (ge.mul (f.x (16 - i)))

/-- `PredictStep` (R281): it needs 17 + D samples in XBUF. -/
def Fcch.predictStep (f : Fcch) : Fcch :=
  { f with
    g := f.stepSize
    taps := f.nextTaps
    me := f.nextMe
    ebuf := f.ebuf ++ [f.normalizedError]
    esum := F32.add f.esum f.normalizedError
    xbuf := f.xbuf.tail }

/-- `FeedSample(x)` (R282). -/
def Fcch.feedSample (f : Fcch) (x : Cplx) : Fcch :=
  let f' := { f with xbuf := f.xbuf ++ [x] }
  if 17 + f'.d.toNat ≤ f'.xbuf.length then f'.predictStep else f'

/-- `FeedSample` of each sample in order. -/
def Fcch.feedAll (f : Fcch) (xs : List Cplx) : Fcch := xs.foldl Fcch.feedSample f

/-- `FlushF` (R283). -/
def Fcch.flush (f : Fcch) : Fcch := { f with xbuf := [], ebuf := [], esum := 0#32 }

/-! ## Frequency detection (R294) -/

/-- The zero-padded buffer of the slice s[start .. start + sl) (R294). -/
def fftBuffer (rd : Nat → Rd Cplx) (fftSize start sl : Nat) : Rd (List Cplx) :=
  tabRd (fun m => if m < sl then rd (start + m) else .ok Cplx.zero) 0 fftSize

/-- The spectrum with its halves swapped: Y[k] = X[(k + N/2) mod N] (R294). -/
def fftShifted (fftSize : Nat) (buf : List Cplx) : List Cplx :=
  (List.range fftSize).map fun k => Config.fftBin fftSize buf ((k + fftSize / 2) % fftSize)

/-- What `FreqDetectF` returns (R294). -/
structure FreqResult where
  freq : F32
  pm : F32
  maxI : F32
  deriving DecidableEq, Repr

/-- `FreqDetectF` (R294). -/
def freqDetectF (c : Config) (sampleRate : F32) (rd : Nat → Rd Cplx) (start sl : Nat) : Rd FreqResult := do
  let buf ← fftBuffer rd c.fftSize start sl
  let y := fftShifted c.fftSize buf
  let r ← peakDetectF c.windowed (fun k => .ok (y.getD k Cplx.zero)) c.fftSize
  .ok { freq := F32.mul (F32.sub (F32.div r.maxI (F32.ofInt c.fftSize)) F32.half) sampleRate
        pm := F32.div r.peak.norm r.avg
        maxI := r.maxI }

/-! ## The walk (R284, R285, R287) -/

/-- The transition detector during a walk, before its counts are written to the 32-bit registers. -/
structure WalkTd where
  low : Bool
  count : Nat
  start : Nat
  deriving DecidableEq, Repr

/-- A detection: frequency, peak-to-mean, run start and slice length (R284). -/
structure Detection where
  freq : F32
  pm : F32
  runStart : Nat
  sliceLen : Nat
  deriving DecidableEq, Repr

/-- One error below the limit: it starts a run or lengthens it (R284). -/
def WalkTd.below (t : WalkTd) (i : Nat) : WalkTd :=
  if t.low then { t with count := t.count + 1 } else { low := true, count := 1, start := i }

/-- The examination of a run of length `run` that has just ended (R284, R285): when flt(run) ≥ 100 × sps, the frequency
detector on the slice; a detection when its peak-to-mean is above 50. -/
def examineRun (c : Config) (sampleRate sps : F32) (burst : Nat) (rd : Nat → Rd Cplx) (start run : Nat) :
    Rd (Option Detection) :=
  if F32.le (F32.mul 0x42C80000#32 sps) (F32.ofInt run) then do
    let r ← freqDetectF c sampleRate rd start (min run burst)
    if F32.lt 0x42480000#32 r.pm then
      .ok (some { freq := r.freq, pm := r.pm, runStart := start, sliceLen := min run burst })
    else .ok none
  else .ok none

/-- The walk over the errors from index `i` on (R284). `examine start run` is `examineRun`. -/
def walkErrors (limit : F32) (examine : Nat → Nat → Rd (Option Detection)) :
    (errors : List F32) → (i : Nat) → WalkTd → Rd (WalkTd × Option Detection)
  | [], _, t => .ok (t, none)
  | a :: rest, i, t =>
    if F32.lt a limit then walkErrors limit examine rest (i + 1) (t.below i)
    else if t.low then do
      let t' : WalkTd := { t with low := false, count := 0 }
      match ← examine t.start t.count with
      | some d => .ok (t', some d)
      | none => walkErrors limit examine rest (i + 1) t'
    else walkErrors limit examine rest (i + 1) t

/-- The limit: 0.7 × (ESUM ÷ flt(M)) (R284). -/
def Fcch.limit (f : Fcch) : F32 :=
  F32.mul 0x3F333333#32 (F32.div f.esum (F32.ofInt f.ebuf.length))

/-- sps = SAMPLE_RATE ÷ GSM_RATE (R62). -/
def State.sps (s : State) : F32 := F32.div s.sampleRate F32.gsmRate

/-- fcch_burst_len = floor(148.0 × sps) (R284). -/
def State.burstLen (s : State) : Nat := (F32.floor (F32.mul 0x43140000#32 s.sps)).toNat

/-- What `WalkF` leaves: the transition detector, the result registers and the outcome flag (R284, R287, R291). -/
structure WalkResult where
  td : TransDet
  results : List (Fin 8 × Word)
  detect : Bool
  deriving DecidableEq, Repr

/-- The result register of the consumed count (R284): the integer, free where it is 2^32 or more (R19, log entry 25). -/
def consumedWord (n : Nat) : Word := if n < 2 ^ 32 then natWord n else Config.oversized n

/-- `WalkF(s, s_len)` (R284) of the errors in `f`, with the samples at word address `a`. -/
def walkF (s : State) (f : Fcch) (a sLen : Nat) : Rd WalkResult := do
  let (t, found) ← walkErrors f.limit (examineRun s.cfg s.sampleRate s.sps s.burstLen (cread s.mem a)) f.ebuf 0
    { low := false, count := 0, start := 0 }
  let td : TransDet := { low := t.low, count := natWord t.count, start := natWord t.start, thresh := f.limit }
  match found with
  | some d =>
    .ok { td := td, detect := true
          results := [(0, d.freq), (1, d.pm), (2, consumedWord (d.runStart + d.sliceLen + 16 + f.d.toNat)),
            (3, natWord d.runStart), (4, natWord d.sliceLen)] }
  | none =>
    .ok { td := td, detect := false
          results := [(0, 0#32), (1, 0#32), (2, natWord sLen), (3, 0#32), (4, 0#32)] }

/-! ## Commands -/

/-- `SAMPLE_RATE` is finite and greater than 0 (R62). -/
def State.rateOk (s : State) : Bool := F32.isFinite s.sampleRate && F32.lt 0#32 s.sampleRate

def fcchInitChecks (_ : State) : Rd (Option ErrCode) := pureChecks []

def fcchInitEffect (s : State) : Rd Effect :=
  .ok { fcch := some (Fcch.reset s.cfg), td := some TransDet.reset }

/-- `FCCH_INIT` (R288). -/
def execFcchInit (s : State) : Host.Outcome State Fault Refusal :=
  perform s (fcchInitChecks s) fcchInitEffect

def fcchFlushChecks (_ : State) : Rd (Option ErrCode) := pureChecks []

def fcchFlushEffect (s : State) : Rd Effect := .ok { fcch := some s.fcch.flush }

/-- `FCCH_FLUSH` (R289). -/
def execFcchFlush (s : State) : Host.Outcome State Fault Refusal :=
  perform s (fcchFlushChecks s) fcchFlushEffect

/-- max(0, XAVAIL + n − (16 + D)) (R282, R290). DESIGN CHOICE where more than 16 + D samples are pending: the pseudocode of
R290, against its corner-case line for n = 0 (log entry 10). -/
def Fcch.errorsFor (f : Fcch) (n : Nat) : Nat := f.xbuf.length + n - (16 + f.d.toNat)

def fcchFeedChecks (s : State) : Rd (Option ErrCode) :=
  pureChecks
    [(isEven (s.argN 0), .align),
     (s.inRange (s.argN 0) (2 * s.argN 1), .range),
     (decide (17 + s.fcch.d.toNat ≤ s.cfg.xCap), .capacity),
     (decide (s.fcch.ebuf.length + s.fcch.errorsFor (s.argN 1) ≤ s.cfg.eCap), .capacity)]

def fcchFeedEffect (s : State) : Rd Effect := do
  let xs ← creadAll s.mem (s.argN 0) (s.argN 1)
  .ok { results := [(0, natWord (s.fcch.errorsFor (s.argN 1)))], fcch := some (s.fcch.feedAll xs) }

/-- `FCCH_FEED` (R290). -/
def execFcchFeed (s : State) : Host.Outcome State Fault Refusal :=
  perform s (fcchFeedChecks s) fcchFeedEffect

/-- The checks of R291. DESIGN CHOICE: R63 has a command that uses FCCH_D report ERR_CAPACITY when 17 + D > X_CAP, and R291 and
the table of R412 give FCCH_WALK no such check; the model makes none (log entry 26). -/
def fcchWalkChecks (s : State) : Rd (Option ErrCode) :=
  pureChecks
    [(s.rateOk, .value),
     (decide (s.fcch.ebuf.length ≤ s.argN 1), .length),
     (isEven (s.argN 0), .align),
     (s.inRange (s.argN 0) (2 * s.argN 1), .range),
     (decide (s.burstLen < s.cfg.fftSize), .fftsize)]

def fcchWalkEffect (s : State) : Rd Effect := do
  let r ← walkF s s.fcch (s.argN 0) (s.argN 1)
  .ok { results := r.results, td := some r.td, detect := r.detect }

/-- `FCCH_WALK` (R291). -/
def execFcchWalk (s : State) : Host.Outcome State Fault Refusal :=
  perform s (fcchWalkChecks s) fcchWalkEffect

def fcchScanChecks (s : State) : Rd (Option ErrCode) :=
  pureChecks
    [(s.rateOk, .value),
     (isEven (s.argN 0), .align),
     (s.inRange (s.argN 0) (2 * s.argN 1), .range),
     (decide (17 + s.fcch.d.toNat ≤ s.cfg.xCap), .capacity),
     (decide (s.fcch.flush.errorsFor (s.argN 1) ≤ s.cfg.eCap), .capacity),
     (decide (s.burstLen < s.cfg.fftSize), .fftsize)]

def fcchScanEffect (s : State) : Rd Effect := do
  let xs ← creadAll s.mem (s.argN 0) (s.argN 1)
  let fed := s.fcch.flush.feedAll xs
  let r ← walkF s fed (s.argN 0) (s.argN 1)
  .ok { results := r.results, td := some r.td, detect := r.detect, fcch := some fed.flush }

/-- `FCCH_SCAN` (R293): flush, feed, walk, flush. -/
def execFcchScan (s : State) : Host.Outcome State Fault Refusal :=
  perform s (fcchScanChecks s) fcchScanEffect

def freqDetectChecks (s : State) : Rd (Option ErrCode) :=
  pureChecks
    [(s.rateOk, .value),
     (decide (1 ≤ s.argN 1), .length),
     (isEven (s.argN 0), .align),
     (s.inRange (s.argN 0) (2 * s.argN 1), .range),
     (decide (s.argN 1 < s.cfg.fftSize), .fftsize)]

def freqDetectEffect (s : State) : Rd Effect := do
  let r ← freqDetectF s.cfg s.sampleRate (cread s.mem (s.argN 0)) 0 (s.argN 1)
  .ok { results := [(0, r.freq), (1, r.pm), (2, r.maxI)] }

/-- `FREQ_DETECT` (R294). -/
def execFreqDetect (s : State) : Host.Outcome State Fault Refusal :=
  perform s (freqDetectChecks s) freqDetectEffect

def fcchEdumpChecks (s : State) : Rd (Option ErrCode) :=
  pureChecks [(s.inRange (s.argN 0) s.fcch.ebuf.length, .range)]

def fcchEdumpDst (s : State) : List (Nat × Nat) := [(s.argN 0, s.fcch.ebuf.length)]

def fcchEdumpEffect (s : State) : Rd Effect :=
  .ok { stores := [(s.argN 0, s.fcch.ebuf)], results := [(0, natWord s.fcch.ebuf.length)] }

/-- `FCCH_EDUMP` (R292). -/
def execFcchEdump (s : State) : Host.Outcome State Fault Refusal :=
  perform s (fcchEdumpChecks s) fcchEdumpEffect

end Sys2Proof.Machine
end

