-- ==== Sys2Proof/Machine/Equalizer.lean ====
section
/-!
DEFINITION. The channel estimator, the MMSE DFE designer and the equalizer (43_channel_dfe.md R330-R335).
-/
namespace Sys2Proof.Machine

/-! ## Channel response (R331) -/

/-- r = round(toa) (R331). -/
def State.chanR (s : State) : Int := F32.roundInt (s.argF 3)

/-- The first valid window start: max(r − c + 1, 0) (R331). -/
def State.chanFirst (s : State) : Int := max (s.chanR - s.argN 2 + 1) 0

/-- The last valid window start: it contains r and ends inside the vector (R331). -/
def State.chanLast (s : State) : Int := min s.chanR ((s.argN 1 : Int) - s.argN 2)

def chanrespChecks (s : State) : Rd (Option ErrCode) :=
  pureChecks
    [(F32.convertible F32.roundInt (s.argF 3), .value),
     (decide (1 ≤ s.argN 2), .length), (decide (s.chanFirst ≤ s.chanLast), .length),
     (isEven (s.argN 0), .align), (isEven (s.argN 6), .align),
     (s.inRange (s.argN 0) (2 * s.argN 1), .range), (s.inRange (s.argN 6) (2 * s.argN 2), .range),
     (disjoint (s.argN 6) (2 * s.argN 2) (s.argN 0) (2 * s.argN 1), .overlap)]

/-- The search over the valid windows in ascending order: a window is taken when its energy exceeds 0.95 × the energy of
the window last taken (R331). The state is (best start, energy last taken). -/
def bestWindow (rd : Nat → Rd Cplx) (c first count : Nat) : Rd (Nat × F32) :=
  foldRd (fun st acc => do
    let e ← energyOver rd ((List.range c).map (st + ·))
    if F32.lt (F32.mul 0x3F733333#32 acc.2) e then .ok (st, e) else .ok acc) first count (first, F32.minusOne)

def chanrespDst (s : State) : List (Nat × Nat) := [(s.argN 6, 2 * s.argN 2)]

def chanrespEffect (s : State) : Rd Effect := do
  let rd := cread s.mem (s.argN 0)
  let (best, mx) ← bestWindow rd (s.argN 2) s.chanFirst.toNat (s.chanLast - s.chanFirst + 1).toNat
  let zs ← mappedVec (fun z => z.div (s.argC 4 5)) (fun k => rd (best + k)) (s.argN 2)
  .ok { stores := [(s.argN 6, cplxWords zs)], results := [(0, natWord best), (1, mx)] }

/-- `CHANRESP` (R331). -/
def execChanresp (s : State) : Host.Outcome State Fault Refusal :=
  perform s (chanrespChecks s) chanrespEffect

/-! ## DFE design (R332, R333) -/

/-- The variables of the factorization loop (R332): the row vectors Gl and Gr, d, and the columns of L written so far.
Column i holds its rows i .. i + nu; every other entry of L is +0. -/
structure DesignState where
  gl : List Cplx
  gr : List Cplx
  d : F32
  cols : List (List Cplx)
  deriving DecidableEq, Repr

/-- Element `j` of a vector. -/
def el (v : List Cplx) (j : Nat) : Cplx := v.getD j Cplx.zero

/-- `L[col][row]` (R332). -/
def lEntry (cols : List (List Cplx)) (col row : Nat) : Cplx :=
  if col ≤ row then el (cols.getD col []) (row - col) else Cplx.zero

/-- d = |Gl[0]|² + |Gr[0]|² (R332 step 1). -/
def DesignState.pivot (t : DesignState) : F32 := F32.add (el t.gl 0).norm (el t.gr 0).norm

/-- Column i of L (R332 step 2). -/
def DesignState.column (t : DesignState) (nu : Nat) : List Cplx :=
  (List.range (nu + 1)).map fun j =>
    (((el t.gl j).mul (el t.gl 0).conj).add ((el t.gr j).mul (el t.gr 0).conj)).divReal t.pivot

/-- Gl and Gr after the rotation, the shift of Gr and the division (R332 step 3). -/
def DesignState.rotatedRows (t : DesignState) (nu : Nat) : List Cplx × List Cplx :=
  let k := (el t.gr 0).div (el t.gl 0)
  let tGl := (List.range (nu + 1)).map fun j => (el t.gl j).add (k.conj.mul (el t.gr j))
  let tGr := (List.range (nu + 1)).map fun j => (k.neg.mul (el t.gl j)).add (el t.gr j)
  let tGr' := tGr.tail ++ [Cplx.zero]
  let sc := F32.sqrt (F32.add F32.one k.norm)
  (tGl.map fun z => z.divReal sc, tGr'.map fun z => z.divReal sc)

/-- One turn of the loop; the last one leaves Gl and Gr as they are (R332). -/
def DesignState.turn (t : DesignState) (nu : Nat) (last : Bool) : DesignState :=
  let rows := if last then (t.gl, t.gr) else t.rotatedRows nu
  { gl := rows.1, gr := rows.2, d := t.pivot, cols := t.cols ++ [t.column nu] }

/-- The loop for i in [0, Nf): `n` turns are left (R332). -/
def DesignState.turns (nu : Nat) : (n : Nat) → DesignState → DesignState
  | 0, t => t
  | n + 1, t => DesignState.turns nu n (t.turn nu (n == 0))

/-- The start of the loop (R332). -/
def DesignState.start (h : List Cplx) (snr : F32) : DesignState where
  gl := Cplx.ofReal (F32.div F32.one (F32.sqrt snr)) :: List.replicate (h.length - 1) Cplx.zero
  gr := h.map Cplx.conj
  d := 0#32
  cols := []

/-- Back-substitution (R332): `v[k .. Nf)` from `v[k + 1 .. Nf)`, for k = n − 1 down to 0. -/
def backSubst (cols : List (List Cplx)) : (n : Nat) → (v : List Cplx) → List Cplx
  | 0, v => v
  | k + 1, v =>
    let acc := (v.mapIdx fun m vj => (lEntry cols k (k + 1 + m)).mul vj).foldl Cplx.add Cplx.zero
    backSubst cols k (acc.neg :: v)

/-- What `DesignF` returns (R332). -/
structure DesignResult where
  ff : List Cplx
  fb : List Cplx
  d : F32
  deriving DecidableEq, Repr

/-- `DesignF` (R332) of the channel response `h`, not empty, with `nf` feedforward taps. -/
def designF (h : List Cplx) (snr : F32) (nf : Nat) : DesignResult :=
  let nu := h.length - 1
  let t := DesignState.turns nu nf (DesignState.start h snr)
  let fb := (List.range nu).map fun j => ((lEntry t.cols (nf - 1) (nf + j)).conj).neg
  let v := backSubst t.cols (nf - 1) [Cplx.ofReal F32.one]
  let ff := (List.range nf).map fun i =>
    ((List.range (min nu (nf - 1 - i) + 1)).foldl (fun acc k => acc.add ((el v (k + i)).mul (el h k).conj))
      Cplx.zero).divReal t.d
  { ff := ff, fb := fb, d := t.d }

def designDfeChecks (s : State) : Rd (Option ErrCode) :=
  pureChecks
    [(F32.isFinite (s.argF 2) && F32.lt 0#32 (s.argF 2), .value),
     (decide (2 ≤ s.argN 3) && decide (s.argN 3 ≤ s.cfg.nfMax), .length),
     (decide (1 ≤ s.argN 1) && decide (s.argN 1 ≤ s.cfg.hMax), .length),
     (isEven (s.argN 0), .align), (isEven (s.argN 4), .align), (isEven (s.argN 5), .align),
     (s.inRange (s.argN 0) (2 * s.argN 1), .range), (s.inRange (s.argN 4) (2 * s.argN 3), .range),
     (s.inRange (s.argN 5) (2 * (s.argN 1 - 1)), .range),
     (disjoint (s.argN 4) (2 * s.argN 3) (s.argN 0) (2 * s.argN 1), .overlap),
     (disjoint (s.argN 5) (2 * (s.argN 1 - 1)) (s.argN 0) (2 * s.argN 1), .overlap),
     (disjoint (s.argN 4) (2 * s.argN 3) (s.argN 5) (2 * (s.argN 1 - 1)), .overlap)]

def designDfeDst (s : State) : List (Nat × Nat) := [(s.argN 4, 2 * s.argN 3), (s.argN 5, 2 * (s.argN 1 - 1))]

def designDfeEffect (s : State) : Rd Effect := do
  let h ← creadAll s.mem (s.argN 0) (s.argN 1)
  let r := designF h (s.argF 2) (s.argN 3)
  .ok { stores := [(s.argN 4, cplxWords r.ff), (s.argN 5, cplxWords r.fb)], results := [(0, r.d)] }

/-- `DESIGN_DFE` (R333). -/
def execDesignDfe (s : State) : Host.Outcome State Fault Refusal :=
  perform s (designDfeChecks s) designDfeEffect

/-! ## Equalization (R335) -/

def equalizeChecks (s : State) : Rd (Option ErrCode) :=
  pureChecks
    [(decide (1 ≤ s.argN 1) && decide (s.argN 1 ≤ 1024), .length), (decide (1 ≤ s.argN 3), .length),
     (isEven (s.argN 0), .align), (isEven (s.argN 2), .align), (isEven (s.argN 4), .align),
     (s.inRange (s.argN 0) (2 * s.argN 1), .range), (s.inRange (s.argN 2) (2 * s.argN 3), .range),
     (s.inRange (s.argN 4) (2 * s.argN 5), .range), (s.inRange (s.argN 6) (s.argN 1), .range),
     (disjoint (s.argN 0) (2 * s.argN 1) (s.argN 2) (2 * s.argN 3), .overlap),
     (disjoint (s.argN 0) (2 * s.argN 1) (s.argN 4) (2 * s.argN 5), .overlap),
     (disjoint (s.argN 6) (s.argN 1) (s.argN 0) (2 * s.argN 1), .overlap),
     (disjoint (s.argN 6) (s.argN 1) (s.argN 2) (2 * s.argN 3), .overlap),
     (disjoint (s.argN 6) (s.argN 1) (s.argN 4) (2 * s.argN 5), .overlap)]

/-- The feedback contribution Σ fb[j] × p[i − j − 1], j in [0, min(fbn, i)); `past` holds p[i − 1], p[i − 2], … (R335). -/
def feedback (rfb : Nat → Rd Cplx) (fbn : Nat) (past : List Cplx) : Rd Cplx :=
  foldRd (fun j acc => do
    let b ← rfb j
    .ok (acc.add (b.mul (el past j)))) 0 (min fbn past.length) Cplx.zero

/-- The de-rotated DFE output of sample `i`, before the decision (R335). -/
def dfeOutput (p fbk : Cplx) (i : Nat) : Cplx := (p.add fbk).mul (rrotEntry i)

/-- The decision on a DFE output, +1 when its real part is above 0 and −1 otherwise, rotated again (R335). -/
def dfeDecision (o : Cplx) (i : Nat) : Cplx :=
  (Cplx.ofReal (if F32.lt 0#32 o.re then F32.one else F32.minusOne)).mul (rotEntry i)

/-- The equalizer loop over the post-forward samples: the soft values and the decisions, in order (R335). -/
def equalizeLoop (rfb : Nat → Rd Cplx) (fbn : Nat) :
    (ps : List Cplx) → (i : Nat) → (past : List Cplx) → Rd (List F32 × List Cplx)
  | [], _, past => .ok ([], past.reverse)
  | p :: ps, i, past => do
    let fbk ← feedback rfb fbn past
    let o := dfeOutput p fbk i
    let (softs, ds) ← equalizeLoop rfb fbn ps (i + 1) (dfeDecision o i :: past)
    .ok (softF o :: softs, ds)

def equalizeDst (s : State) : List (Nat × Nat) := [(s.argN 6, s.argN 1), (s.argN 0, 2 * s.argN 1)]

def equalizeEffect (s : State) : Rd Effect := do
  let ps ← tabRd (fun n => convAt (cread s.mem (s.argN 2)) (cread s.mem (s.argN 0)) (s.argN 3) (s.argN 1)
    (n + s.argN 3 - 1)) 0 (s.argN 1)
  let (softs, ds) ← equalizeLoop (cread s.mem (s.argN 4)) (s.argN 5) ps 0 []
  .ok { stores := [(s.argN 6, softs), (s.argN 0, cplxWords ds)] }

/-- `EQUALIZE` (R335), in place, with the soft values at its destination. -/
def execEqualize (s : State) : Host.Outcome State Fault Refusal :=
  perform s (equalizeChecks s) equalizeEffect

end Sys2Proof.Machine
end

