-- ==== Sys2Proof/Machine/Modulator.lean ====
section
/-!
DEFINITION. The Gaussian-pulse GMSK modulator (41_gmsk_modulator.md R260-R263).
-/
namespace Sys2Proof.Machine

/-- The length of the pulse: ceil((2.0 × sps) + 1.0) (R261). -/
def pulseLen (sps : F32) : Nat := (F32.ceil (F32.add (F32.mul F32.two sps) F32.one)).toNat

/-- Sample `i` of the pulse before normalization (R261); `0xBF91A9FC` is −1.138. -/
def pulseRaw (sps c : F32) (i : Nat) : F32 :=
  let a := F32.div (F32.sub (F32.ofInt i) c) sps
  let a2 := F32.mul a a
  let a4 := F32.mul a2 a2
  F32.mul 0x3F75C28F#32 (Config.exp32 (F32.sub (F32.mul 0xBF91A9FC#32 a2) (F32.mul 0x3F06E979#32 a4)))

/-- `GaussPulseF` (R261). -/
def gaussPulse (sps : F32) : List F32 :=
  let len := pulseLen sps
  let c := F32.mul (F32.ofInt ((len : Int) - 1)) F32.half
  let g := (List.range len).map (pulseRaw sps c)
  let e := g.foldl (fun acc x => F32.add acc (F32.mul x x)) 0#32
  let nrm := F32.sqrt (F32.div e sps)
  g.map fun x => F32.div x nrm

/-- sps × flt(N + guard), the signal length before rounding up (R263). -/
def State.modSpan (s : State) : F32 := F32.mul (s.argF 3) (F32.ofInt (s.argN 1 + s.argN 2 : Nat))

/-- The signal length ln (R263). -/
def State.modLen (s : State) : Nat := (F32.ceil s.modSpan).toNat

/-- The checks of R263. A product that overflows to ∞ cannot be converted, which is a VALUE error (R18, log entry 11). -/
def modulateChecks (s : State) : Rd (Option ErrCode) :=
  pureChecks
    [(F32.isFinite (s.argF 3) && F32.le F32.one (s.argF 3), .value), (F32.isFinite s.modSpan, .value),
     (decide (1 ≤ s.argN 1), .length), (decide (1 ≤ s.argN 2), .length), (decide (s.modLen ≤ 1024), .length),
     (isEven (s.argN 4), .align),
     (s.inRange (s.argN 0) (s.argN 1), .range), (s.inRange (s.argN 4) (2 * s.modLen), .range),
     (disjoint (s.argN 4) (2 * s.modLen) (s.argN 0) (s.argN 1), .overlap),
     (s.pulse.valid || decide (pulseLen (s.argF 3) ≤ s.cfg.gpMax), .capacity)]

/-- The pulse cache after a `MODULATE` with the given sps: built once, kept for ever after (R262). -/
def Pulse.built (p : Pulse) (sps : F32) : Pulse :=
  if p.valid then p else { valid := true, sps := sps, samples := gaussPulse sps }

/-- The symbol of a bit: 1.0 − (2.0 × flt(b)) (R263). -/
def symbolOf (b : Bool) : Cplx := Cplx.ofReal (F32.sub F32.one (F32.mul F32.two (F32.ofBit b)))

/-- Writes the symbols of the bits into the signal, `step` apart, from index `at` on. -/
def placeSymbols (step : Nat) : (sig : List Cplx) → (at_ : Nat) → List Bool → List Cplx
  | sig, _, [] => sig
  | sig, at_, b :: bs => placeSymbols step (sig.set at_ (symbolOf b)) (at_ + step) bs

/-- The rotated impulse train of length `len` (R263). -/
def impulseTrain (len step : Nat) (bits : List Bool) : List Cplx :=
  (placeSymbols step (List.replicate len Cplx.zero) 0 bits).mapIdx fun i z => z.mul (rotEntry i)

def modulateDst (s : State) : List (Nat × Nat) := [(s.argN 4, 2 * s.modLen)]

def modulateEffect (s : State) : Rd Effect := do
  let bits ← breadAll s.mem (s.argN 0) (s.argN 1)
  let gp := s.pulse.built (s.argF 3)
  let sig := impulseTrain s.modLen (F32.floor (s.argF 3)).toNat bits
  let hn := gp.samples.length
  let ys ← tabRd (fun n => convAt (fun k => .ok (Cplx.ofReal (gp.samples.getD k 0#32))) (fun k => .ok (sig.getD k Cplx.zero))
    hn s.modLen (n + centreShift hn)) 0 s.modLen
  .ok { stores := [(s.argN 4, cplxWords ys)], results := [(0, natWord s.modLen)], pulse := some gp }

/-- `MODULATE` (R263). -/
def execModulate (s : State) : Host.Outcome State Fault Refusal :=
  perform s (modulateChecks s) modulateEffect

end Sys2Proof.Machine
end

