-- ==== Sys2Proof/Machine/SchDecoder.lean ====
section
/-!
DEFINITION. The SCH parity code, the K = 5 convolutional code, the Viterbi decoders and the field extraction
(44_sch_decoder.md R370-R386).
-/
namespace Sys2Proof.Machine

/-! ## Parity (R371, R373, R374) -/

/-- The coefficients of the generator from x^10 down to x^0 (R371). -/
def parityGen : List Bool := [true, false, true, false, true, true, true, false, true, false, true]

/-- One step of the long division: when the leading bit is 1 the generator is added under it; the leading bit is then 0 and
drops out (R371). -/
def divisionStep : List Bool → List Bool
  | [] => []
  | b :: rest => if b then (List.zipWith xor (rest.take 10) parityGen.tail) ++ rest.drop 10 else rest

/-- `n` steps of the long division. -/
def divisionSteps : (n : Nat) → List Bool → List Bool
  | 0, b => b
  | n + 1, b => divisionSteps n (divisionStep b)

/-- `ResidueF` (R371): the ten bits left of a 35-bit block after 25 steps. -/
def residueF (b : List Bool) : List Bool := divisionSteps 25 b

/-- Bits as a number, the first listed the most significant. -/
def bitsMsb (bs : List Bool) : Nat := bs.foldl (fun acc b => 2 * acc + b.toNat) 0

def parityCheckChecks (s : State) : Rd (Option ErrCode) :=
  pureChecks [(s.inRange (s.argN 0) 35, .range)]

def parityCheckEffect (s : State) : Rd Effect := do
  let b ← breadAll s.mem (s.argN 0) 35
  let r := residueF b
  let pass := r.all id
  .ok { results := [(0, Word.ofBit (!pass)), (1, natWord (bitsMsb r))], detect := pass }

/-- `PARITY_CHECK` (R373). -/
def execParityCheck (s : State) : Host.Outcome State Fault Refusal :=
  perform s (parityCheckChecks s) parityCheckEffect

/-- The systematic block: info, then the complement of the residue of info ++ 0^10 (R374). -/
def parityEncodeF (info : List Bool) : List Bool :=
  info ++ (residueF (info ++ List.replicate 10 false)).map not

def parityEncodeChecks (s : State) : Rd (Option ErrCode) :=
  pureChecks
    [(s.inRange (s.argN 0) 25, .range), (s.inRange (s.argN 1) 35, .range),
     (disjoint (s.argN 1) 35 (s.argN 0) 25, .overlap)]

def parityEncodeDst (s : State) : List (Nat × Nat) := [(s.argN 1, 35)]

def parityEncodeEffect (s : State) : Rd Effect := do
  let info ← breadAll s.mem (s.argN 0) 25
  .ok { stores := [(s.argN 1, bitWords (parityEncodeF info))] }

/-- `PARITY_ENCODE` (R374). -/
def execParityEncode (s : State) : Host.Outcome State Fault Refusal :=
  perform s (parityEncodeChecks s) parityEncodeEffect

/-! ## Convolutional code (R372, R376) -/

/-- `NEXT(s, b)` of a state s below 16: ((s << 1) | b) AND 0xF (R372). -/
def nextState (s : Nat) (b : Bool) : Nat := (2 * s + b.toNat) % 16

/-- The first code bit g0 = b XOR u3 XOR u4 (R372). -/
def codeG0 (s : Nat) (b : Bool) : Bool := xor b (xor (s.testBit 2) (s.testBit 3))

/-- The second code bit g1 = b XOR u1 XOR u3 XOR u4 (R372). -/
def codeG1 (s : Nat) (b : Bool) : Bool := xor b (xor (s.testBit 0) (xor (s.testBit 2) (s.testBit 3)))

/-- `ENC(s, b)` = 2·g0 + g1 (R372). -/
def encOutput (s : Nat) (b : Bool) : Nat := 2 * (codeG0 s b).toNat + (codeG1 s b).toNat

/-- `PREV_NEXT(p, n)`: the bit that leads from p to n, 2 when there is none (R372). -/
def prevNext (p n : Nat) : Nat :=
  if nextState p false = n then 0 else if nextState p true = n then 1 else 2

/-- The code bits of an input sequence from state `s` on: g0, g1 for each bit (R372, R376). -/
def convEncodeFrom : (s : Nat) → List Bool → List Bool
  | _, [] => []
  | s, b :: bs => codeG0 s b :: codeG1 s b :: convEncodeFrom (nextState s b) bs

/-- The block with its four zero tail bits, encoded from state 0 (R376). -/
def convEncodeF (block : List Bool) : List Bool := convEncodeFrom 0 (block ++ List.replicate 4 false)

def convEncodeChecks (s : State) : Rd (Option ErrCode) :=
  pureChecks
    [(s.inRange (s.argN 0) 35, .range), (s.inRange (s.argN 1) 78, .range),
     (disjoint (s.argN 1) 78 (s.argN 0) 35, .overlap)]

def convEncodeDst (s : State) : List (Nat × Nat) := [(s.argN 1, 78)]

def convEncodeEffect (s : State) : Rd Effect := do
  let block ← breadAll s.mem (s.argN 0) 35
  .ok { stores := [(s.argN 1, bitWords (convEncodeF block))] }

/-- `CONV_ENCODE` (R376). -/
def execConvEncode (s : State) : Host.Outcome State Fault Refusal :=
  perform s (convEncodeChecks s) convEncodeEffect

/-! ## Viterbi decoder (R378-R382) -/

/-- How a decoder measures: its received values, its accumulated errors, and the branch metric of an edge output (R379). -/
structure Metric (β ε : Type) where
  zero : ε
  maxError : ε
  add : ε → ε → ε
  lt : ε → ε → Bool
  /-- the metric of the edge output o against the pair (r1, r2) -/
  branch : Nat → β → β → ε

/-- Hamming distance, exact integers, MAX_ERROR = 79 (R379). -/
def hardMetric : Metric Bool Nat where
  zero := 0
  maxError := 79
  add := (· + ·)
  lt a b := decide (a < b)
  branch o r1 r2 := (xor (o.testBit 1) r1).toNat + (xor (o.testBit 0) r2).toNat

/-- |o1 − r1| + |o2 − r2| in binary32, MAX_ERROR = 79.0 (R379). DEDUCED: this order, although the Example of R382 differs from it
in the last bit of RES0 (log entry 24). -/
def softMetric : Metric F32 F32 where
  zero := 0#32
  maxError := 0x429E0000#32
  add := F32.add
  lt := F32.lt
  branch o r1 r2 :=
    F32.add (F32.abs (F32.sub (F32.ofBit (o.testBit 1)) r1)) (F32.abs (F32.sub (F32.ofBit (o.testBit 0)) r2))

/-- The accumulated errors of the 16 states and, for the stage in work, each state's predecessor. -/
structure Stage (ε : Type) where
  errs : List ε
  preds : List Nat
  deriving DecidableEq, Repr

/-- The extension of state `s`, of error `err`, by bit `b`: it replaces a worse path into its next state (R378). -/
def Stage.extend {β ε : Type} (m : Metric β ε) (r1 r2 : β) (err : ε) (s : Nat) (b : Bool) (t : Stage ε) : Stage ε :=
  let ns := nextState s b
  let acc := m.add err (m.branch (encOutput s b) r1 r2)
  if m.lt acc (t.errs.getD ns m.maxError) then { errs := t.errs.set ns acc, preds := t.preds.set ns s } else t

/-- The extensions of state `s` by 0 and then by 1, when its error is below MAX_ERROR (R378). -/
def Stage.extendState {β ε : Type} (m : Metric β ε) (r1 r2 : β) (errs : List ε) (t : Stage ε) (s : Nat) : Stage ε :=
  let err := errs.getD s m.maxError
  if m.lt err m.maxError then (t.extend m r1 r2 err s false).extend m r1 r2 err s true else t

/-- One trellis stage: from the errors before it to the errors after it and the predecessors (R378). -/
def viterbiStage {β ε : Type} (m : Metric β ε) (errs : List ε) (r1 r2 : β) : Stage ε :=
  (List.range 16).foldl (Stage.extendState m r1 r2 errs)
    { errs := List.replicate 16 m.maxError, preds := List.replicate 16 0 }

/-- All stages over the received pairs, from `errs` on: the final errors, and the predecessors of each stage, the last
stage first (R378). -/
def viterbiStages {β ε : Type} (m : Metric β ε) : List (β × β) → (errs : List ε) → (hist : List (List Nat)) →
    List ε × List (List Nat)
  | [], errs, hist => (errs, hist)
  | (r1, r2) :: rest, errs, hist =>
    let t := viterbiStage m errs r1 r2
    viterbiStages m rest t.errs (t.preds :: hist)

/-- The lowest state of least final error (R378). -/
def bestState {β ε : Type} (m : Metric β ε) (errs : List ε) : Nat :=
  (List.range' 1 15).foldl (fun fs s => if m.lt (errs.getD s m.maxError) (errs.getD fs m.maxError) then s else fs) 0

/-- The traceback from state `cur` through the predecessors, the last stage first; `out` collects the bits (R378). -/
def traceback : List (List Nat) → (cur : Nat) → (out : List Nat) → List Nat
  | [], _, out => out
  | preds :: hist, later, out =>
    let cur := preds.getD later 0
    traceback hist cur (prevNext cur later :: out)

/-- What `ViterbiF` returns (R378). -/
structure ViterbiResult (ε : Type) where
  out : List Nat
  metric : ε
  state : Nat
  deriving DecidableEq, Repr

/-- The received values in pairs: (r[2t], r[2t + 1]) for stage t (R378). -/
def inPairs {β : Type} : List β → List (β × β)
  | a :: b :: rest => (a, b) :: inPairs rest
  | _ => []

/-- `ViterbiF` (R378). -/
def viterbiF {β ε : Type} (m : Metric β ε) (r : List β) : ViterbiResult ε :=
  let (errs, hist) := viterbiStages m (inPairs r) (m.zero :: List.replicate 15 m.maxError) []
  let fs := bestState m errs
  { out := traceback hist fs [], metric := errs.getD fs m.maxError, state := fs }

/-- The words a Viterbi source spans: 78, or 145 with X (R380). -/
def gatherSpan (x : Bool) : Nat := if x then 145 else 78

/-- `Gather` (R380): src[0..78), or src[3..42) ++ src[106..145) with X. -/
def gather {β : Type} (rd : Nat → Rd β) (x : Bool) : Rd (List β) :=
  if x then do
    let a ← tabRd rd 3 39
    let b ← tabRd rd 106 39
    .ok (a ++ b)
  else tabRd rd 0 78

/-- The decoded bits as words: bit 0 of each (R101). -/
def decodedWords (out : List Nat) : List Word := out.map fun b => Word.ofBit (b.testBit 0)

/-- The checks on registers that the two decoders share (R381, R382). -/
def viterbiChecks (x : Bool) (s : State) : Option ErrCode :=
  firstFailing
    [(s.inRange (s.argN 0) (gatherSpan x), .range), (s.inRange (s.argN 1) 39, .range),
     (disjoint (s.argN 1) 39 (s.argN 0) (gatherSpan x), .overlap)]

def viterbiDst (s : State) : List (Nat × Nat) := [(s.argN 1, 39)]

def viterbiHardChecks (x : Bool) (s : State) : Rd (Option ErrCode) := .ok (viterbiChecks x s)

def viterbiHardEffect (x : Bool) (s : State) : Rd Effect := do
  let r ← gather (bread s.mem (s.argN 0)) x
  let v := viterbiF hardMetric r
  .ok { stores := [(s.argN 1, decodedWords v.out)], results := [(0, natWord v.metric), (1, natWord v.state)] }

/-- `VITERBI_HARD` (R381), with the flag X. -/
def execViterbiHard (x : Bool) (s : State) : Host.Outcome State Fault Refusal :=
  perform s (viterbiHardChecks x s) (viterbiHardEffect x)

/-- A soft value of [0, 1]; false for NaN, true for −0 (R382). -/
def softInRange (v : F32) : Bool := F32.le 0#32 v && F32.le v F32.one

/-- The checks of R382: the registers first, then the DATA check on the gathered values. DESIGN CHOICE: all 78 are read before
one is judged, so an unwritten word faults also beside a value out of range (log entry 27). -/
def viterbiSoftChecks (x : Bool) (s : State) : Rd (Option ErrCode) :=
  match viterbiChecks x s with
  | some c => .ok (some c)
  | none => do
    let r ← gather (rread s.mem (s.argN 0)) x
    if r.all softInRange then .ok none else .ok (some .data)

def viterbiSoftEffect (x : Bool) (s : State) : Rd Effect := do
  let r ← gather (rread s.mem (s.argN 0)) x
  let v := viterbiF softMetric r
  .ok { stores := [(s.argN 1, decodedWords v.out)], results := [(0, v.metric), (1, natWord v.state)] }

/-- `VITERBI_SOFT` (R382), with the flag X. -/
def execViterbiSoft (x : Bool) (s : State) : Host.Outcome State Fault Refusal :=
  perform s (viterbiSoftChecks x s) (viterbiSoftEffect x)

/-! ## Field extraction (R384-R386) -/

/-- The fields of the SCH information (R384, R385). -/
structure SchFields where
  bsic : Nat
  t1 : Nat
  t2 : Nat
  t3p : Nat
  t3 : Nat
  fn : Nat
  deriving DecidableEq, Repr

/-- `while tt < T2: tt <- tt + 26`. T2 is at most 31 and tt at least 1, so two turns are enough (R385); the fuel is 32. -/
def raiseTo (t2 : Nat) : (fuel : Nat) → (tt : Nat) → Nat
  | 0, tt => tt
  | fuel + 1, tt => if tt < t2 then raiseTo t2 fuel (tt + 26) else tt

/-- The fields of the bits d[0..24] and the frame number, unreduced (R384-R386). -/
def schFieldsF (d : List Bool) : SchFields :=
  let bit (i : Nat) : Bool := d.getD i false
  let t1 := bitsMsb ([1, 0, 15, 14, 13, 12, 11, 10, 9, 8, 23].map bit)
  let t2 := bitsMsb ([22, 21, 20, 19, 18].map bit)
  let t3p := bitsMsb ([17, 16, 24].map bit)
  let t3 := 10 * t3p + 1
  let tt := (raiseTo t2 32 t3 - t2) % 26
  { bsic := bitsMsb ([7, 6, 5, 4, 3, 2].map bit)
    t1 := t1, t2 := t2, t3p := t3p, t3 := t3
    fn := 51 * 26 * t1 + 51 * tt + t3 }

def schFieldsChecks (s : State) : Rd (Option ErrCode) :=
  pureChecks [(s.inRange (s.argN 0) 25, .range)]

def schFieldsEffect (s : State) : Rd Effect := do
  let d ← breadAll s.mem (s.argN 0) 25
  let f := schFieldsF d
  .ok { results := [(0, natWord f.bsic), (1, natWord f.t1), (2, natWord f.t2), (3, natWord f.t3p), (4, natWord f.t3),
    (5, natWord f.fn)] }

/-- `SCH_FIELDS` (R385). -/
def execSchFields (s : State) : Host.Outcome State Fault Refusal :=
  perform s (schFieldsChecks s) schFieldsEffect

end Sys2Proof.Machine
end

