-- ==== Sys2Proof/Machine/SoftReset.lean ====
section
/-!
DEFINITION. The soft reset and the abort of a command in flight (70_reset_and_hazards.md R452-R454).
-/
namespace Sys2Proof.Machine

/-- `Checks(c, s)` (R453): the check sequence of a command's rule. -/
def checksOf (i : Instr) (s : State) : Rd (Option ErrCode) :=
  match i with
  | .nop => nopChecks s
  | .sinc => sincChecks s
  | .interp => interpChecks s
  | .peak => peakChecks s
  | .p2m => p2mChecks s
  | .rot => rotChecks s
  | .rrot => rotChecks s
  | .conv => convChecks s
  | .convNd => convNdChecks s
  | .corr => convChecks s
  | .corrNd => convNdChecks s
  | .delay => delayChecks s
  | .scale => scaleChecks s
  | .conj => scaleChecks s
  | .sliceSoft => sliceSoftChecks s
  | .slice => sliceChecks s
  | .norm2 => norm2Checks s
  | .resample => resampleChecks s
  | .modulate => modulateChecks s
  | .fcchInit => fcchInitChecks s
  | .fcchFlush => fcchFlushChecks s
  | .fcchFeed => fcchFeedChecks s
  | .fcchWalk => fcchWalkChecks s
  | .fcchScan => fcchScanChecks s
  | .freqDetect => freqDetectChecks s
  | .fcchEdump => fcchEdumpChecks s
  | .chanresp => chanrespChecks s
  | .designDfe => designDfeChecks s
  | .equalize => equalizeChecks s
  | .parityCheck => parityCheckChecks s
  | .parityEncode => parityEncodeChecks s
  | .convEncode => convEncodeChecks s
  | .viterbiHard x => viterbiHardChecks x s
  | .viterbiSoft x => viterbiSoftChecks x s
  | .schFields => schFieldsChecks s

/-- `DstWords(c)` (R453): the ranges (word address, words) the command's rule names as written. -/
def dstWords (i : Instr) (s : State) : List (Nat × Nat) :=
  match i with
  | .nop => []
  | .sinc => []
  | .interp => []
  | .peak => []
  | .p2m => []
  | .rot => rotDst s
  | .rrot => rotDst s
  | .conv => convDst s
  | .convNd => convNdDst s
  | .corr => convDst s
  | .corrNd => convNdDst s
  | .delay => delayDst s
  | .scale => scaleDst s
  | .conj => scaleDst s
  | .sliceSoft => sliceSoftDst s
  | .slice => sliceDst s
  | .norm2 => []
  | .resample => resampleDst s
  | .modulate => modulateDst s
  | .fcchInit => []
  | .fcchFlush => []
  | .fcchFeed => []
  | .fcchWalk => []
  | .fcchScan => []
  | .freqDetect => []
  | .fcchEdump => fcchEdumpDst s
  | .chanresp => chanrespDst s
  | .designDfe => designDfeDst s
  | .equalize => equalizeDst s
  | .parityCheck => []
  | .parityEncode => parityEncodeDst s
  | .convEncode => convEncodeDst s
  | .viterbiHard _ => viterbiDst s
  | .viterbiSoft _ => viterbiDst s
  | .schFields => []

/-- Makes every word of the ranges unwritten. -/
def Memory.unwriteAll (m : Memory) : List (Nat × Nat) → Memory
  | [] => m
  | (a, n) :: rest => Memory.unwriteAll (m.unwrite a n) rest

/-- DMEM after the command in flight, if any, is aborted: when its checks pass, its destination words are unwritten; when
one fails, DMEM is unchanged (R452). DESIGN CHOICE: a DATA check that reads an unwritten word decides nothing and counts as
passed (log entry 9). -/
def State.abortedMem (s : State) : Memory :=
  if s.status.busy then
    match decodeWord s.cmd with
    | .error _ => s.mem
    | .ok i =>
      match checksOf i s with
      | .ok (some _) => s.mem
      | .ok none => s.mem.unwriteAll (dstWords i s)
      | .error _ => s.mem.unwriteAll (dstWords i s)
  else s.mem

/-- The soft reset: the command in flight is aborted, every register and internal state takes its reset value, DMEM keeps
the words the abort does not name (R452). The host's remaining turns are the host's (log entry 1). A
faulted state has no step (R430), so no host write reaches this there. -/
def State.softReset (s : State) : State :=
  { State.resetOf s.cfg with mem := s.abortedMem, agenda := s.agenda }

/-- Reset: as after power-on, every DMEM word unwritten; the configuration and the turns still to come are not L1DSP's to
change (R450, R454). -/
def State.hardReset (s : State) : State := { State.resetOf s.cfg with agenda := s.agenda }

end Sys2Proof.Machine
end

