-- ==== Sys2Proof/Machine/Dispatch.lean ====
section
/-!
DEFINITION. The meaning of every command: one arm per constructor (30_encoding.md R146).
-/
namespace Sys2Proof.Machine

def exec (i : Instr) (s : State) : Host.Outcome State Fault Refusal :=
  match i with
  | .nop => Sys2Proof.Machine.execNop s
  | .sinc => Sys2Proof.Machine.execSinc s
  | .interp => Sys2Proof.Machine.execInterp s
  | .peak => Sys2Proof.Machine.execPeak s
  | .p2m => Sys2Proof.Machine.execP2m s
  | .rot => Sys2Proof.Machine.execRot s
  | .rrot => Sys2Proof.Machine.execRrot s
  | .conv => Sys2Proof.Machine.execConv s
  | .convNd => Sys2Proof.Machine.execConvNd s
  | .corr => Sys2Proof.Machine.execCorr s
  | .corrNd => Sys2Proof.Machine.execCorrNd s
  | .delay => Sys2Proof.Machine.execDelay s
  | .scale => Sys2Proof.Machine.execScale s
  | .conj => Sys2Proof.Machine.execConj s
  | .sliceSoft => Sys2Proof.Machine.execSliceSoft s
  | .slice => Sys2Proof.Machine.execSlice s
  | .norm2 => Sys2Proof.Machine.execNorm2 s
  | .resample => Sys2Proof.Machine.execResample s
  | .modulate => Sys2Proof.Machine.execModulate s
  | .fcchInit => Sys2Proof.Machine.execFcchInit s
  | .fcchFlush => Sys2Proof.Machine.execFcchFlush s
  | .fcchFeed => Sys2Proof.Machine.execFcchFeed s
  | .fcchWalk => Sys2Proof.Machine.execFcchWalk s
  | .fcchScan => Sys2Proof.Machine.execFcchScan s
  | .freqDetect => Sys2Proof.Machine.execFreqDetect s
  | .fcchEdump => Sys2Proof.Machine.execFcchEdump s
  | .chanresp => Sys2Proof.Machine.execChanresp s
  | .designDfe => Sys2Proof.Machine.execDesignDfe s
  | .equalize => Sys2Proof.Machine.execEqualize s
  | .parityCheck => Sys2Proof.Machine.execParityCheck s
  | .parityEncode => Sys2Proof.Machine.execParityEncode s
  | .convEncode => Sys2Proof.Machine.execConvEncode s
  | .viterbiHard x => Sys2Proof.Machine.execViterbiHard x s
  | .viterbiSoft x => Sys2Proof.Machine.execViterbiSoft x s
  | .schFields => Sys2Proof.Machine.execSchFields s

end Sys2Proof.Machine
end

