-- ==== Sys2Proof/Machine/HostBus.lean ====
section
/-!
DEFINITION. The host's view: the window, the register map, and host reads and writes (10_state.md register map and
R53-R68; 20_memory.md R106-R108, R112; 60_exceptions.md R431, R432, R435).
-/
namespace Sys2Proof.Machine

/-- A register of the map; the words that read 0 and ignore writes are `reserved`. -/
inductive Reg where
  | id | version | ctrl | status | cmd
  | arg (i : Fin 16)
  | res (i : Fin 8)
  | sampleRate | fcchD | fcchP | fcchG | fcchMe
  | fcchXavail | fcchXspace | fcchEavail | fcchEspace | fcchEsum
  | tdState | tdCount | tdStart | tdThresh
  | gpStatus | gpSps
  | cfgDmemWords | cfgFftSize | cfgXcap | cfgEcap | cfgGpmax | cfgFeatures
  | tapRe (i : Fin 17)
  | tapIm (i : Fin 17)
  | gp (i : Nat)
  | reserved
  deriving DecidableEq, Repr

/-- The register at an aligned byte offset of the register block (10_state.md register map). -/
def regAt (c : Config) (off : Nat) : Reg :=
  if off < 0x020 then
    match off with
    | 0x000 => .id
    | 0x004 => .version
    | 0x008 => .ctrl
    | 0x00C => .status
    | 0x010 => .cmd
    | _ => .reserved
  else if off < 0x060 then .arg (Fin.ofNat 16 ((off - 0x020) / 4))
  else if off < 0x080 then .res (Fin.ofNat 8 ((off - 0x060) / 4))
  else if off < 0x100 then
    match off with
    | 0x080 => .sampleRate
    | 0x084 => .fcchD
    | 0x088 => .fcchP
    | 0x08C => .fcchG
    | 0x090 => .fcchMe
    | 0x094 => .fcchXavail
    | 0x098 => .fcchXspace
    | 0x09C => .fcchEavail
    | 0x0A0 => .fcchEspace
    | 0x0A4 => .fcchEsum
    | 0x0A8 => .tdState
    | 0x0AC => .tdCount
    | 0x0B0 => .tdStart
    | 0x0B4 => .tdThresh
    | 0x0B8 => .gpStatus
    | 0x0BC => .gpSps
    | 0x0C0 => .cfgDmemWords
    | 0x0C4 => .cfgFftSize
    | 0x0C8 => .cfgXcap
    | 0x0CC => .cfgEcap
    | 0x0D0 => .cfgGpmax
    | 0x0D4 => .cfgFeatures
    | _ => .reserved
  else if off < 0x188 then
    let i := Fin.ofNat 17 ((off - 0x100) / 8)
    if off % 8 = 0 then .tapRe i else .tapIm i
  else if 0x200 ≤ off ∧ (off - 0x200) / 4 < c.gpMax then .gp ((off - 0x200) / 4)
  else .reserved

/-- What an aligned offset of the window names (R106). -/
inductive Target where
  | reg (r : Reg)
  | dmem (a : Nat)
  deriving DecidableEq, Repr

/-- The target of an aligned byte offset (R106): the register block, DMEM, or reserved. -/
def targetAt (c : Config) (off : Nat) : Target :=
  if off < 0x1000 then .reg (regAt c off)
  else if 0x01000000 ≤ off ∧ (off - 0x01000000) / 4 < c.dmemWords then .dmem ((off - 0x01000000) / 4)
  else .reg .reserved

/-- The register is marked B in the map: refused while BUSY (R112). -/
def Reg.busyRefused : Reg → Bool
  | .arg _ | .sampleRate | .fcchD | .fcchP | .fcchG | .fcchMe | .fcchXavail | .fcchXspace | .fcchEavail | .fcchEspace
  | .fcchEsum | .tdState | .tdCount | .tdStart | .tdThresh | .gpStatus | .gpSps | .tapRe _ | .tapIm _ | .gp _ => true
  | .id | .version | .ctrl | .status | .cmd | .res _ | .cfgDmemWords | .cfgFftSize | .cfgXcap | .cfgEcap | .cfgGpmax
  | .cfgFeatures | .reserved => false

def Target.busyRefused : Target → Bool
  | .reg r => r.busyRefused
  | .dmem _ => true

/-- `GP_LEN` (R68). -/
def State.gpLen (s : State) : Nat := s.pulse.samples.length

/-- The value a register reads (R53-R68 and the register map). -/
def State.readReg (s : State) : Reg → Word
  | .id => 0x4C314450#32
  | .version => 0x00000007#32
  | .ctrl => ctrlWord s.irqEn
  | .status => s.status.word
  | .cmd => s.cmd
  | .arg i => s.args[i]
  | .res i => s.res[i]
  | .sampleRate => s.sampleRate
  | .fcchD => s.fcch.d
  | .fcchP => s.fcch.p
  | .fcchG => s.fcch.g
  | .fcchMe => s.fcch.me
  | .fcchXavail => natWord s.fcch.xbuf.length
  | .fcchXspace => natWord (s.cfg.xCap - s.fcch.xbuf.length)
  | .fcchEavail => natWord s.fcch.ebuf.length
  | .fcchEspace => natWord (s.cfg.eCap - s.fcch.ebuf.length)
  | .fcchEsum => s.fcch.esum
  | .tdState => Word.ofBit s.td.low
  | .tdCount => s.td.count
  | .tdStart => s.td.start
  | .tdThresh => s.td.thresh
  | .gpStatus => BitVec.ofNat 16 s.gpLen ++ 0#15 ++ BitVec.ofBool s.pulse.valid
  | .gpSps => s.pulse.sps
  | .cfgDmemWords => natWord s.cfg.dmemWords
  | .cfgFftSize => natWord s.cfg.fftSize
  | .cfgXcap => natWord s.cfg.xCap
  | .cfgEcap => natWord s.cfg.eCap
  | .cfgGpmax => 0#8 ++ BitVec.ofNat 8 s.cfg.hMax ++ BitVec.ofNat 8 s.cfg.nfMax ++ BitVec.ofNat 8 s.cfg.gpMax
  | .cfgFeatures => Word.ofBit s.cfg.resample
  | .tapRe i => s.fcch.taps[i].re
  | .tapIm i => s.fcch.taps[i].im
  | .gp i => s.pulse.samples.getD i 0#32
  | .reserved => 0#32

/-- The acceptance of a command word, when no command is in flight (R58, R420). -/
def State.accept (s : State) (w : Word) : State := { s with cmd := w, status := s.status.accept w }

/-- A host write to CMD: accepted when idle; dropped while BUSY, with `CMD_LOST` (R58). -/
def State.writeCmd (s : State) (w : Word) : State :=
  if s.status.busy then { s with status := { s.status with cmdLost := true } } else s.accept w

/-- A host write to CTRL: the soft reset when bit 1 is 1, else IRQ_EN from bit 0 (R56, R452). -/
def State.writeCtrl (s : State) (w : Word) : State :=
  if w.getLsbD 1 then s.softReset else { s with irqEn := w.getLsbD 0 }

/-- A host write to a register that is not refused; a read-only register or a reserved offset ignores it (R108). -/
def State.writeReg (s : State) (r : Reg) (w : Word) : State :=
  match r with
  | .ctrl => s.writeCtrl w
  | .status => { s with status := s.status.writeOneToClear w }
  | .cmd => s.writeCmd w
  | .arg i => { s with args := s.args.set i w }
  | .sampleRate => { s with sampleRate := w }
  | .fcchD => { s with fcch := { s.fcch with d := w } }
  | .fcchP => { s with fcch := { s.fcch with p := w } }
  | .fcchG => { s with fcch := { s.fcch with g := w } }
  | .fcchMe => { s with fcch := { s.fcch with me := w } }
  | .tapRe i => { s with fcch := { s.fcch with taps := s.fcch.taps.set i { s.fcch.taps[i] with re := w } } }
  | .tapIm i => { s with fcch := { s.fcch with taps := s.fcch.taps.set i { s.fcch.taps[i] with im := w } } }
  | .id | .version | .res _ | .fcchXavail | .fcchXspace | .fcchEavail | .fcchEspace | .fcchEsum | .tdState | .tdCount
  | .tdStart | .tdThresh | .gpStatus | .gpSps | .cfgDmemWords | .cfgFftSize | .cfgXcap | .cfgEcap | .cfgGpmax
  | .cfgFeatures | .gp _ | .reserved => s

/-- The bus answer is given to the host. -/
def State.answered (s : State) (a : BusAnswer) : State := { s with answer := some a }

/-- A refused access sets ACC_VIOL and has no other effect (R112, R432). -/
def State.refuse (s : State) : State := { s with status := { s.status with accViol := true } }

/-- The access is 32 bits wide and aligned (R107). -/
def accessOk (w : Width) (off : BitVec 25) : Bool := w == .w32 && off.toNat % 4 == 0

/-- A host read takes effect (R105, R107, R108, R112). -/
def hostRead (s : State) (w : Width) (off : BitVec 25) : Host.Outcome State Fault Refusal :=
  if !accessOk w off then .next (s.answered .busError)
  else
    let t := targetAt s.cfg off.toNat
    if s.status.busy && t.busyRefused then .next (s.refuse.answered (.data 0#32))
    else
      match t with
      | .reg r => .next (s.answered (.data (s.readReg r)))
      | .dmem a =>
        match s.mem.readWord a with
        | some v => .next (s.answered (.data v))
        | none => .fault (.unwritten a none)

/-- A host write takes effect (R107, R108, R112). -/
def hostWrite (s : State) (w : Width) (off : BitVec 25) (v : Word) : State :=
  if !accessOk w off then s.answered .busError
  else
    let t := targetAt s.cfg off.toNat
    if s.status.busy && t.busyRefused then s.refuse.answered .taken
    else
      match t with
      | .reg r => (s.writeReg r v).answered .taken
      | .dmem a => { s with mem := s.mem.writeWord a v }.answered .taken

/-- A host access takes effect. -/
def hostAccess (s : State) : Access → Host.Outcome State Fault Refusal
  | .read w off => hostRead s w off
  | .write w off v => .next (hostWrite s w off v)

end Sys2Proof.Machine
end

