-- ==== Sys2Proof/Machine/Step.lean ====
section
/-!
DEFINITION. One step of L1DSP: one turn of one agent (00_scope.md R26; 20_memory.md R113; 60_exceptions.md R421).
-/
namespace Sys2Proof.Machine

/-- The engine's turn: it performs the command in flight (an illegal word completes with `ERR_ILLEGAL`, R142); without one
it does nothing (R446). -/
def engineStep (s : State) : Host.Outcome State Fault Refusal :=
  if s.status.busy then
    match decodeWord s.cmd with
    | .error _ => .next (s.completeErr .illegal)
    | .ok i => exec i s
  else .next s

/-- One turn: of the agent the agenda names first, or of the engine when the agenda is empty (log entry 1). A faulted state
has no further step (R430). -/
def step (s : State) : Host.Outcome State Fault Refusal :=
  match s.fault with
  | some f => .fault f
  | none =>
    match s.agenda with
    | [] => engineStep s
    | .engine :: rest => engineStep { s with agenda := rest }
    | .host a :: rest => hostAccess { s with agenda := rest } a
    | .reset :: rest => .next { s with agenda := rest }.hardReset

/-- `s` with the command word `w` (its first `nbits` bits, the rest 0) accepted and the engine's turn next: L1DSP fetches no
program, a host writes command words to CMD (R52, R58, R140; log entry 2). -/
def State.withFetchWord (s : State) (nbits w : Nat) : State :=
  { s.accept (BitVec.ofNat 32 (w % 2 ^ nbits)) with fault := none, agenda := .engine :: s.agenda }

end Sys2Proof.Machine
end

