-- ==== Sys2Proof/Safety.lean ====
section
/-!
DEFINITION. What counts as a safe run of L1DSP, and the invariant every step keeps, in the terms the claims use.
-/
namespace Sys2Proof.Machine

/-- The pulse cache is empty exactly as reset leaves it until a pulse is built, and its pulse fits (R11, R68, R262). -/
def State.pulseOk (s : State) : Prop :=
  (s.pulse.valid = false → s.pulse.samples = [] ∧ s.pulse.sps = 0#32) ∧ s.pulse.samples.length ≤ s.cfg.gpMax

/-- The STATUS fields agree with one another and with CMD: a command in flight shows no outcome yet, an outcome flag never
stands beside an error code, ERR stands only beside one, and LAST_OPC is the opcode field of CMD (R57-R61). -/
def State.statusOk (s : State) : Prop :=
  (s.status.busy = true → s.status.done = false ∧ s.status.err = false ∧ s.status.detect = false ∧ s.status.errcode = .none)
    ∧ (s.status.detect = true → s.status.errcode = .none)
    ∧ (s.status.err = true → s.status.errcode ≠ .none)
    ∧ s.status.lastOpc = s.cmd.extractLsb' 0 8

/-- The invariant of L1DSP: no fault record, DMEM in its canonical form, inside its bounds and written by whole words, both
FCCH buffers within their capacities (R64), the pulse cache and STATUS in order. -/
structure State.Inv (s : State) : Prop where
  noFault : s.fault = none
  memWf : s.mem.wf
  memWithin : s.mem.within s.cfg.dmemWords
  memWhole : s.mem.whole
  xbufFits : s.fcch.xbuf.length ≤ s.cfg.xCap
  ebufFits : s.fcch.ebuf.length ≤ s.cfg.eCap
  pulseOk : s.pulseOk
  statusOk : s.statusOk

/-- A host that obeyed the BUSY discipline sees neither sticky flag (R432, R464). -/
def State.disciplined (s : State) : Bool := !s.status.accViol && !s.status.cmdLost

/-- The end of a run (R436): nothing in flight, no fault, no turn left. -/
def State.runOver (s : State) : Bool := !s.status.busy && s.fault.isNone && s.agenda.isEmpty

/-- `k` steps from `s` meet no fault and no refusal. -/
def runsSafely (s : State) (k : Nat) : Prop := ∃ t, Sys2Proof.core.run k s = .next t

/-- Everything but STATUS, CTRL, the turns still to come and the last bus answer: what a host access that is allowed while
BUSY cannot change (R435). -/
def State.sameData (s t : State) : Prop :=
  s.cfg = t.cfg ∧ s.mem = t.mem ∧ s.cmd = t.cmd ∧ s.args = t.args ∧ s.res = t.res ∧ s.sampleRate = t.sampleRate
    ∧ s.fcch = t.fcch ∧ s.td = t.td ∧ s.pulse = t.pulse ∧ s.fault = t.fault

end Sys2Proof.Machine
end

