-- ==== Sys2Proof/Certificates/Slice0/Obligations.lean ====
section
/-!
DEFINITION. The statements for the provers.

`Sys2Proof.Spec` says, from the rules of spec/ and beside the model, what the statements are about: a vector of DMEM as a
function of its index, the checks of every command in the order of R413, and what a command computes as a function of its
operands. A statement then says that the meaning of the command does exactly that.
-/
namespace Sys2Proof.Spec

open Sys2Proof.Machine

/-! ## Vectors in DMEM (20_memory.md R101, R103, R111) -/

/-- Each listed element `k` of the complex vector at word address `a` is written and is `x k` (R101). -/
abbrev CplxOn (m : Memory) (a : Nat) (ks : List Nat) (x : Nat → Cplx) : Prop :=
  ∀ k ∈ ks, m.readWord (a + 2 * k) = some (x k).re ∧ m.readWord (a + 2 * k + 1) = some (x k).im

/-- Each listed element `k` of the real vector at word address `a` is written and is `x k` (R101). -/
abbrev RealOn (m : Memory) (a : Nat) (ks : List Nat) (x : Nat → F32) : Prop :=
  ∀ k ∈ ks, m.readWord (a + k) = some (x k)

/-- Each listed element `k` of the bit vector at word address `a` is written and has bit 0 equal to `b k` (R101). -/
abbrev BitOn (m : Memory) (a : Nat) (ks : List Nat) (b : Nat → Bool) : Prop :=
  ∀ k ∈ ks, (m.readWord (a + k)).map (fun w => w.getLsbD 0) = some (b k)

/-- The words of the complex vector of `n` elements `x` (R101). -/
def cplxVec (n : Nat) (x : Nat → Cplx) : List Word := (List.range n).flatMap fun k => [(x k).re, (x k).im]

/-- The words of the real vector of `n` elements `x` (R101). -/
def realVec (n : Nat) (x : Nat → F32) : List Word := (List.range n).map x

/-- The words of the bit vector of `n` elements `b`: bit 0, the rest 0 (R101). -/
def bitVec (n : Nat) (b : Nat → Bool) : List Word := (List.range n).map fun k => if b k then 1#32 else 0#32

/-- The range of `w` words at `a` lies in DMEM (R103). -/
def fits (s : State) (a w : Nat) : Bool := decide (a + w ≤ s.cfg.dmemWords)

/-- No word is in both ranges (R111). -/
def apart (a n b m : Nat) : Bool := decide (n = 0 ∨ m = 0 ∨ b + m ≤ a ∨ a + n ≤ b)

/-- The address is a multiple of 2 (R101). -/
def even (a : Nat) : Bool := decide (2 ∣ a)

/-! ## What the commands compute -/

/-- A sum of complex terms from (+0, +0), in order (R14). -/
def sumC (zs : List Cplx) : Cplx := zs.foldl Cplx.add ⟨0#32, 0#32⟩

/-- A sum of binary32 terms from +0, in order (R14). -/
def sumR (xs : List F32) : F32 := xs.foldl F32.add 0#32

/-- `ROT[n]` (R69). -/
def rot (n : Nat) : Cplx :=
  ([⟨0x3F800000#32, 0#32⟩, ⟨0#32, 0x3F800000#32⟩, ⟨0xBF800000#32, 0#32⟩, ⟨0#32, 0xBF800000#32⟩] : List Cplx).getD (n % 4)
    ⟨0#32, 0#32⟩

/-- `RROT[n]` (R69). -/
def rrot (n : Nat) : Cplx :=
  ([⟨0x3F800000#32, 0#32⟩, ⟨0#32, 0xBF800000#32⟩, ⟨0xBF800000#32, 0#32⟩, ⟨0#32, 0x3F800000#32⟩] : List Cplx).getD (n % 4)
    ⟨0#32, 0#32⟩

/-- `SincF` (R202). -/
def sinc (x : F32) : F32 := if F32.lt 0x38D1B717#32 (F32.abs x) then F32.div (Config.sin32 x) x else 0x3F800000#32

/-- The elements `InterpF` reads at `t`: the integers of [max(floor t − 10, 0), min(floor t + 10, n − 1) + 1) (R203). -/
def interpRange (n : Nat) (t : F32) : List Nat :=
  let lo := max (F32.floor t - 10) 0
  let hi := min (F32.floor t + 10) ((n : Int) - 1) + 1
  List.range' lo.toNat (hi - lo).toNat

/-- `InterpF` (R203). -/
def interp (windowed : Bool) (x : Nat → Cplx) (n : Nat) (t : F32) : Cplx :=
  sumC ((interpRange n t).map fun (k : Nat) =>
    let u := F32.sub t (F32.ofInt k)
    let w := sinc (F32.mul 0x40490FDB#32 u)
    Cplx.smul (if windowed then F32.mul w (interpWindow u) else w) (x k))

/-- The index of the first greatest power, and that power, started from 0 and −1 (R204). -/
def peakIndex (x : Nat → Cplx) (n : Nat) : Nat × F32 :=
  (List.range n).foldl (fun best i => if F32.lt best.2 (x i).norm then (i, (x i).norm) else best) (0, 0xBF800000#32)

/-- The search of `PeakDetectF`, from `early` and `incr` on (R204). It turns at most 10 times. -/
def peakSearch (windowed : Bool) (x : Nat → Cplx) (n : Nat) : Nat → F32 → F32 → F32
  | 0, early, _ => early
  | turns + 1, early, incr =>
    if F32.le 0x3A800000#32 incr then
      let pe := (interp windowed x n early).norm
      let pl := (interp windowed x n (F32.add early 0x40000000#32)).norm
      if F32.lt pe pl then peakSearch windowed x n turns (F32.add early incr) (F32.div incr 0x40000000#32)
      else if F32.lt pl pe then peakSearch windowed x n turns (F32.sub early incr) (F32.div incr 0x40000000#32)
      else early
    else early

/-- `PeakDetectF` (R204). -/
def peak (windowed : Bool) (x : Nat → Cplx) (n : Nat) : PeakResult :=
  let imax := (peakIndex x n).1
  let maxI := F32.add (peakSearch windowed x n 11 (F32.sub (F32.ofInt imax) 0x3F800000#32) 0x3F000000#32) 0x3F800000#32
  let p := interp windowed x n maxI
  { maxI := maxI, peak := p, imax := imax
    avg := F32.div (F32.sub (sumR ((List.range n).map fun i => (x i).norm)) p.norm) (F32.ofInt ((n : Int) - 1)) }

/-- The elements `P2M` accumulates: for each i in [2, 2 + width), peak_index − i and then peak_index + i, where inside the
vector (R205). -/
def valley (n : Nat) (pi : Int) (width : Nat) : List Nat :=
  (List.range' 2 width).flatMap fun (i : Nat) =>
    (if 0 ≤ pi - i ∧ pi - i < n then [(pi - i).toNat] else []) ++ (if 0 ≤ pi + i ∧ pi + i < n then [(pi + i).toNat] else [])

/-- The energy of the listed elements, in order (R205, R218, R331). -/
def energy (x : Nat → Cplx) (ks : List Nat) : F32 := sumR (ks.map fun k => (x k).norm)

/-- `ConvF` (R208): the tap the left factor, only elements inside x. -/
def conv (h : Nat → Cplx) (hn : Nat) (x : Nat → Cplx) (xn n : Nat) : Cplx :=
  sumC (((List.range hn).filter fun k => decide (k ≤ n) && decide (n - k < xn)).map fun k => (h k).mul (x (n - k)))

/-- `RevConj` (R208). -/
def revConj (r : Nat → Cplx) (rn k : Nat) : Cplx := (r (rn - 1 - k)).conj

/-- The buffer of `DELAY` before the integer shift (R213). -/
def delayBuf (x : Nat → Cplx) (n : Nat) (fds : F32) (m : Nat) : Cplx :=
  if F32.le 0x3C23D70A#32 fds then
    conv (fun k => ⟨sinc (F32.mul 0x40490FDB#32 (F32.sub (F32.ofInt ((k : Int) - 10)) fds)), 0#32⟩) 21 x n (m + 10)
  else x m

/-- Element `m` of the delayed vector (R213). -/
def delayed (x : Nat → Cplx) (n : Nat) (ids : Int) (fds : F32) (m : Nat) : Cplx :=
  if 0 ≤ (m : Int) - ids ∧ (m : Int) - ids < n then delayBuf x n fds ((m : Int) - ids).toNat else ⟨0#32, 0#32⟩

/-- `SoftF` (R216). -/
def soft (z : Cplx) : F32 :=
  let y := F32.div (F32.sub 0x3F800000#32 z.re) 0x40000000#32
  if F32.lt y 0#32 then 0#32 else if F32.lt 0x3F800000#32 y then 0x3F800000#32 else y

/-- The length of the Gaussian pulse: ceil((2.0 × sps) + 1.0) (R261). -/
def pulseCount (sps : F32) : Nat := (F32.ceil (F32.add (F32.mul 0x40000000#32 sps) 0x3F800000#32)).toNat

/-- Sample `i` of `GaussPulseF` before the division by the norm, about the middle c = (len − 1)/2 (R261): 0.96, −1.138 and
0.527 are the constants. -/
def pulseShape (sps : F32) (i : Nat) : F32 :=
  let c := F32.mul (F32.ofInt ((pulseCount sps : Int) - 1)) 0x3F000000#32
  let a := F32.div (F32.sub (F32.ofInt i) c) sps
  let a2 := F32.mul a a
  F32.mul 0x3F75C28F#32
    (Config.exp32 (F32.sub (F32.mul 0xBF91A9FC#32 a2) (F32.mul 0x3F06E979#32 (F32.mul a2 a2))))

/-- Sample `i` of `GaussPulseF` (R261). -/
def gauss (sps : F32) (i : Nat) : F32 :=
  let e := sumR ((List.range (pulseCount sps)).map fun k => F32.mul (pulseShape sps k) (pulseShape sps k))
  F32.div (pulseShape sps i) (F32.sqrt (F32.div e sps))

/-- The signal of `MODULATE` before the pulse: the symbol 1 − 2b[k] at index step · k, rotated (R263). -/
def impulses (step n : Nat) (b : Nat → Bool) (i : Nat) : Cplx :=
  let z : Cplx := match (List.range n).reverse.find? fun k => step * k == i with
    | some k => ⟨F32.sub 0x3F800000#32 (F32.mul 0x40000000#32 (if b k then 0x3F800000#32 else 0#32)), 0#32⟩
    | none => ⟨0#32, 0#32⟩
  z.mul (rot i)

/-- `PredictStep` (R281): E the window energy, e the prediction error, G the step size it leaves, a the normalized error. -/
def predictStep (f : Fcch) : Fcch :=
  let x (i : Nat) : Cplx := f.xbuf.getD i ⟨0#32, 0#32⟩
  let w (i : Nat) : Cplx := f.taps.toList.getD i ⟨0#32, 0#32⟩
  let en := sumR ((List.range 17).map fun i => (x i).norm)
  let g := if F32.le (F32.div 0x40000000#32 en) f.g then F32.div 0x3F800000#32 en else f.g
  let y := sumC ((List.range 17).map fun i => (w i).conj.mul (x (16 - i)))
  let e := (x (16 + f.d.toNat)).sub y
  let ge := Cplx.smul g e.conj
  let me := F32.add (F32.mul (F32.sub 0x3F800000#32 f.p) f.me) (F32.mul f.p e.norm)
  let a := F32.div me (F32.div en 0x41880000#32)
  { d := f.d, p := f.p, g := g, me := me, taps := Vector.ofFn fun i => (w i).add (ge.mul (x (16 - i)))
    xbuf := f.xbuf.drop 1, ebuf := f.ebuf ++ [a], esum := F32.add f.esum a }

/-- `FeedSample` (R282). -/
def feedSample (f : Fcch) (z : Cplx) : Fcch :=
  let q := { f with xbuf := f.xbuf ++ [z] }
  if 17 + f.d.toNat ≤ q.xbuf.length then predictStep q else q

/-- The walk over the errors `a`, from index `i` in the state `t` on; `examine start run` says whether a run that ends is a
detection (R284). -/
def walk (limit : F32) (examine : Nat → Nat → Option Detection) : List F32 → Nat → WalkTd → WalkTd × Option Detection
  | [], _, t => (t, none)
  | a :: rest, i, t =>
    if F32.lt a limit then
      walk limit examine rest (i + 1)
        (if t.low then { t with count := t.count + 1 } else { low := true, count := 1, start := i })
    else if t.low then
      match examine t.start t.count with
      | some d => ({ t with low := false, count := 0 }, some d)
      | none => walk limit examine rest (i + 1) { t with low := false, count := 0 }
    else walk limit examine rest (i + 1) t

/-- `FreqDetectF` (R294). -/
def freqDetect (c : Config) (rate : F32) (x : Nat → Cplx) (start sl : Nat) : FreqResult :=
  let buf := (List.range c.fftSize).map fun m => if m < sl then x (start + m) else ⟨0#32, 0#32⟩
  let y := fun k => if k < c.fftSize then Config.fftBin c.fftSize buf ((k + c.fftSize / 2) % c.fftSize) else ⟨0#32, 0#32⟩
  let r := peak c.windowed y c.fftSize
  { freq := F32.mul (F32.sub (F32.div r.maxI (F32.ofInt c.fftSize)) 0x3F000000#32) rate
    pm := F32.div r.peak.norm r.avg
    maxI := r.maxI }

/-- sps = SAMPLE_RATE ÷ GSM_RATE (R62). -/
def sps (s : State) : F32 := F32.div s.sampleRate 0x48843E2B#32

/-- floor(148.0 × sps) (R284). -/
def burst (s : State) : Nat := (F32.floor (F32.mul 0x43140000#32 (sps s))).toNat

/-- What a run that ends gives (R284, R285). -/
def examine (s : State) (x : Nat → Cplx) (start run : Nat) : Option Detection :=
  let r := freqDetect s.cfg s.sampleRate x start (min run (burst s))
  if F32.le (F32.mul 0x42C80000#32 (sps s)) (F32.ofInt run) && F32.lt 0x42480000#32 r.pm then
    some { freq := r.freq, pm := r.pm, runStart := start, sliceLen := min run (burst s) }
  else none

/-- The limit of a walk over the errors `a` of sum `esum` (R284). -/
def limitOf (a : List F32) (esum : F32) : F32 := F32.mul 0x3F333333#32 (F32.div esum (F32.ofInt a.length))

/-- `WalkF` over the errors of `f` (R284). -/
def walkOf (s : State) (f : Fcch) (x : Nat → Cplx) : WalkTd × Option Detection :=
  walk (limitOf f.ebuf f.esum) (examine s x) f.ebuf 0 { low := false, count := 0, start := 0 }

/-- An integer in a result register; one of 2^32 or more, which R19 rules out, leaves a free value (log entry 25). -/
def fitted (n : Nat) : Word := if n < 2 ^ 32 then BitVec.ofNat 32 n else Config.oversized n

/-- The result registers of a walk over `sLen` samples (R284, R291). -/
def walkResults (f : Fcch) (sLen : Nat) : Option Detection → List (Fin 8 × Word)
  | some d => [(0, d.freq), (1, d.pm), (2, fitted (d.runStart + d.sliceLen + 16 + f.d.toNat)),
      (3, BitVec.ofNat 32 d.runStart), (4, BitVec.ofNat 32 d.sliceLen)]
  | none => [(0, 0#32), (1, 0#32), (2, BitVec.ofNat 32 sLen), (3, 0#32), (4, 0#32)]

/-- The transition-detector registers a walk leaves (R287). -/
def walkTd (f : Fcch) (t : WalkTd) : TransDet where
  low := t.low
  count := BitVec.ofNat 32 t.count
  start := BitVec.ofNat 32 t.start
  thresh := limitOf f.ebuf f.esum

/-- The valid window starts of `CHANRESP`, ascending: [r − c + 1, r + 1) inside the vector (R331). -/
def windowStarts (r : Int) (c an : Nat) : List Int :=
  ((List.range c).map fun (j : Nat) => r - c + 1 + (j : Int)).filter fun st => decide (0 ≤ st) && decide (st + c ≤ an)

/-- The window search of `CHANRESP`: best start and the energy last taken (R331). -/
def bestWindow (x : Nat → Cplx) (c : Nat) (starts : List Int) (first : Int) : Int × F32 :=
  starts.foldl (fun best st =>
    let e := energy x ((List.range c).map fun k => st.toNat + k)
    if F32.lt (F32.mul 0x3F733333#32 best.2) e then (st, e) else best) (first, 0xBF800000#32)

/-- The row vectors Gl and Gr after `i` turns of the loop of `DesignF` that rotate, shift and divide them (R332). Elements past
nu are never used. -/
def designRows (h : Nat → Cplx) (nu : Nat) (snr : F32) : Nat → (Nat → Cplx) × (Nat → Cplx)
  | 0 =>
    (fun j => if j = 0 then ⟨F32.div 0x3F800000#32 (F32.sqrt snr), 0#32⟩ else ⟨0#32, 0#32⟩, fun j => (h j).conj)
  | i + 1 =>
    let gl := (designRows h nu snr i).1
    let gr := (designRows h nu snr i).2
    let k := (gr 0).div (gl 0)
    let sc := F32.sqrt (F32.add 0x3F800000#32 k.norm)
    (fun j => ((gl j).add (k.conj.mul (gr j))).divReal sc,
     fun j => (if j < nu then (k.neg.mul (gl (j + 1))).add (gr (j + 1)) else ⟨0#32, 0#32⟩).divReal sc)

/-- d in turn `i` of `DesignF` (R332 step 1). -/
def designPivot (h : Nat → Cplx) (nu : Nat) (snr : F32) (i : Nat) : F32 :=
  let g := designRows h nu snr i
  F32.add (g.1 0).norm (g.2 0).norm

/-- `L[col][row]` of `DesignF` (R332 step 2); +0 where the loop never writes it. -/
def designL (h : Nat → Cplx) (nu : Nat) (snr : F32) (col row : Nat) : Cplx :=
  let g := designRows h nu snr col
  if col ≤ row ∧ row ≤ col + nu then
    (((g.1 (row - col)).mul (g.1 0).conj).add ((g.2 (row - col)).mul (g.2 0).conj)).divReal (designPivot h nu snr col)
  else ⟨0#32, 0#32⟩

/-- The last `m + 1` elements of v, v[Nf − 1 − m] first, by back-substitution (R332). -/
def designV (h : Nat → Cplx) (nu : Nat) (snr : F32) (nf : Nat) : Nat → List Cplx
  | 0 => [⟨0x3F800000#32, 0#32⟩]
  | m + 1 =>
    let later := designV h nu snr nf m
    let k := nf - 2 - m
    (sumC ((List.range (m + 1)).map fun q => (designL h nu snr k (k + 1 + q)).mul (later.getD q ⟨0#32, 0#32⟩))).neg :: later

/-- Element `i` of the feedforward filter of `DesignF` (R332). -/
def designFf (h : Nat → Cplx) (nu : Nat) (snr : F32) (nf i : Nat) : Cplx :=
  let v := designV h nu snr nf (nf - 1)
  (sumC ((List.range (min nu (nf - 1 - i) + 1)).map fun k => (v.getD (k + i) ⟨0#32, 0#32⟩).mul (h k).conj)).divReal
    (designPivot h nu snr (nf - 1))

/-- Element `j` of the feedback filter of `DesignF`: −conj of the entries below the diagonal in the last column (R332). -/
def designFb (h : Nat → Cplx) (nu : Nat) (snr : F32) (nf j : Nat) : Cplx :=
  (designL h nu snr (nf - 1) (nf + j)).conj.neg

/-- The DFE output at sample `i`, de-rotated, after the decisions `past` (the latest first) (R335). -/
def dfeOut (post fb : Nat → Cplx) (fbn i : Nat) (past : List Cplx) : Cplx :=
  ((post i).add (sumC ((List.range (min fbn i)).map fun j => (fb j).mul (past.getD j ⟨0#32, 0#32⟩)))).mul (rrot i)

/-- The first `i` decisions, re-rotated, the latest first (R335). -/
def dfePast (post fb : Nat → Cplx) (fbn : Nat) : Nat → List Cplx
  | 0 => []
  | i + 1 =>
    let past := dfePast post fb fbn i
    let hard : F32 := if F32.lt 0#32 (dfeOut post fb fbn i past).re then 0x3F800000#32 else 0xBF800000#32
    (Cplx.mul ⟨hard, 0#32⟩ (rot i)) :: past

/-- The coefficients of the parity generator from x^10 down to x^0 (R371). -/
def parityPoly : List Bool := [true, false, true, false, true, true, true, false, true, false, true]

/-- The buffer of `ResidueF` after `q` turns (R371). -/
def divisionBuf (b : Nat → Bool) : Nat → Nat → Bool
  | 0 => b
  | q + 1 => fun i =>
    if divisionBuf b q q && decide (q ≤ i) && decide (i < q + 11) then xor (divisionBuf b q i) (parityPoly.getD (i - q) false)
    else divisionBuf b q i

/-- `ResidueF` (R371): r[j]. -/
def residue (b : Nat → Bool) (j : Nat) : Bool := divisionBuf b 25 (25 + j)

/-- The systematic block of 25 information bits (R374). -/
def parityBlock (info : Nat → Bool) (k : Nat) : Bool :=
  if k < 25 then info k else !residue (fun i => if i < 25 then info i else false) (k - 25)

/-- Bits as a number, the first listed the most significant. -/
def number (bits : List Bool) : Nat := bits.foldl (fun acc b => 2 * acc + b.toNat) 0

/-- The code bits of the input bits `b` from state 0: G0 = 1 + x³ + x⁴ at even places and G1 = 1 + x + x³ + x⁴ at odd ones
(R370, R372). -/
def codeBit (b : Nat → Bool) (n : Nat) : Bool :=
  let u (d : Nat) : Bool := decide (d ≤ n / 2) && b (n / 2 - d)
  if n % 2 = 0 then xor (u 0) (xor (u 3) (u 4)) else xor (u 0) (xor (u 1) (xor (u 3) (u 4)))

/-- A 35-bit block followed by zero tail bits (R376). -/
def tailed (b : Nat → Bool) (k : Nat) : Bool := decide (k < 35) && b k

/-- The Hamming distance of the code bits of `u` from the 78 received bits `r` (R379). -/
def distance (u r : Nat → Bool) : Nat := ((List.range 78).filter fun n => codeBit u n != r n).length

/-- The words a Viterbi source gathers, in order (R380). -/
def gathered (x : Bool) : List Nat := if x then List.range' 3 39 ++ List.range' 106 39 else List.range 78

/-- The soft metric |g0 − r1| + |g1 − r2| of the edge of bit `b` out of state `p`, whose last four input bits are u1, the most
recent, to u4 (R372, R379). -/
def softBranch (p b : Nat) (r1 r2 : F32) : F32 :=
  let u (i : Nat) : Nat := p / 2 ^ (i - 1)
  let flt (n : Nat) : F32 := if n % 2 = 1 then 0x3F800000#32 else 0#32
  F32.add (F32.abs (F32.sub (flt (b + u 3 + u 4)) r1)) (F32.abs (F32.sub (flt (b + u 1 + u 3 + u 4)) r2))

/-- The accumulated error of state `n` after `t` stages on the soft values `r`, and the predecessor stored for it (R378,
R379): MAX_ERROR is 79.0; the states with an edge into n are n / 2 and n / 2 + 8, by the bit n mod 2, and the second
replaces the first only when its error is less. -/
def softTrellis (r : Nat → F32) : (t n : Nat) → F32 × Nat
  | 0, n => (if n = 0 then 0#32 else 0x429E0000#32, 0)
  | t + 1, n =>
    [n / 2, n / 2 + 8].foldl (fun best p =>
      let err := (softTrellis r t p).1
      let acc := F32.add err (softBranch p (n % 2) (r (2 * t)) (r (2 * t + 1)))
      if F32.lt err 0x429E0000#32 && F32.lt acc best.1 then (acc, p) else best) (0x429E0000#32, 0)

/-- The lowest state of least accumulated error after the 39 stages (R378). -/
def softFinal (r : Nat → F32) : Nat :=
  (List.range' 1 15).foldl (fun fs n => if F32.lt (softTrellis r 39 n).1 (softTrellis r 39 fs).1 then n else fs) 0

/-- The state `m` stages before the end of the path traced back from the final state (R378). -/
def softTrace (r : Nat → F32) : (m : Nat) → Nat
  | 0 => softFinal r
  | m + 1 => (softTrellis r (39 - m) (softTrace r m)).2

/-- Decoded bit `k`: the bit that leads from the state before stage `k` to the state after it (R378). -/
def softBit (r : Nat → F32) (k : Nat) : Bool := decide ((2 * softTrace r (39 - k) + 1) % 16 = softTrace r (38 - k))

/-- The hard metric (g0 XOR r1) + (g1 XOR r2) of the edge of bit `b` out of state `p`, whose last four input bits are u1, the
most recent, to u4 (R372, R379). -/
def hardBranch (p b : Nat) (r1 r2 : Bool) : Nat :=
  let u (i : Nat) : Nat := p / 2 ^ (i - 1)
  (b + u 3 + u 4 + r1.toNat) % 2 + (b + u 1 + u 3 + u 4 + r2.toNat) % 2

/-- The accumulated error of state `n` after `t` stages on the hard bits `r`, and the predecessor stored for it (R378, R379):
MAX_ERROR is 79; the states with an edge into n are n / 2 and n / 2 + 8, by the bit n mod 2, and the second replaces the
first only when its error is less, so a tie keeps the lower one. -/
def hardTrellis (r : Nat → Bool) : (t n : Nat) → Nat × Nat
  | 0, n => (if n = 0 then 0 else 79, 0)
  | t + 1, n =>
    [n / 2, n / 2 + 8].foldl (fun best p =>
      let err := (hardTrellis r t p).1
      let acc := err + hardBranch p (n % 2) (r (2 * t)) (r (2 * t + 1))
      if err < 79 ∧ acc < best.1 then (acc, p) else best) (79, 0)

/-- The lowest state of least accumulated error after the 39 stages (R378). -/
def hardFinal (r : Nat → Bool) : Nat :=
  (List.range' 1 15).foldl (fun fs n => if (hardTrellis r 39 n).1 < (hardTrellis r 39 fs).1 then n else fs) 0

/-- The state `m` stages before the end of the path traced back from the final state (R378). -/
def hardTrace (r : Nat → Bool) : (m : Nat) → Nat
  | 0 => hardFinal r
  | m + 1 => (hardTrellis r (39 - m) (hardTrace r m)).2

/-- Decoded bit `k`: the bit that leads from the state before stage `k` to the state after it (R378). -/
def hardBit (r : Nat → Bool) (k : Nat) : Bool := decide ((2 * hardTrace r (39 - k) + 1) % 16 = hardTrace r (38 - k))

/-! ## Checks (60_exceptions.md R413 and the Checks line of every command's rule) -/

/-- A length `w` of complex elements at operand `i` fits. -/
def fitsC (s : State) (i : Fin 16) (n : Nat) : Bool := fits s (s.argN i) (2 * n)

/-- The checks of the convolution commands for `out` output elements (R209, R210). -/
def convChecks (s : State) (out : Nat) : List (Bool × ErrCode) :=
  [(decide (1 ≤ s.argN 1) && decide (1 ≤ s.argN 3), .length),
   (even (s.argN 0) && even (s.argN 2) && even (s.argN 4), .align),
   (fitsC s 0 (s.argN 1) && fitsC s 2 (s.argN 3) && fitsC s 4 out, .range),
   (apart (s.argN 4) (2 * out) (s.argN 0) (2 * s.argN 1) && apart (s.argN 4) (2 * out) (s.argN 2) (2 * s.argN 3), .overlap)]

/-- The checks of `ROT` and `RROT` (R206). -/
def rotChecks (s : State) : List (Bool × ErrCode) :=
  [(decide (s.argN 2 + s.argN 1 ≤ 1024), .length), (even (s.argN 0), .align), (fitsC s 0 (s.argN 1), .range)]

/-- The checks of `SCALE` and `CONJ` (R214). -/
def scaleChecks (s : State) : List (Bool × ErrCode) :=
  [(even (s.argN 0) && even (s.argN 2), .align), (fitsC s 0 (s.argN 1) && fitsC s 2 (s.argN 1), .range),
   (decide (s.argN 2 = s.argN 0) || apart (s.argN 2) (2 * s.argN 1) (s.argN 0) (2 * s.argN 1), .overlap)]

/-- `SAMPLE_RATE` is finite and above 0 (R62). -/
def rateOk (s : State) : Bool := F32.isFinite s.sampleRate && F32.lt 0#32 s.sampleRate

/-- ceil(sps × flt(N + guard)) of `MODULATE` (R263). -/
def signalLen (s : State) : Nat := (F32.ceil (F32.mul (s.argF 3) (F32.ofInt (s.argN 1 + s.argN 2 : Nat)))).toNat

/-- The checks of a command, in order: a condition and the code reported when it is the first to fail. The DATA check of
`VITERBI_SOFT` reads DMEM and is not among them. -/
def checkList (i : Instr) (s : State) : List (Bool × ErrCode) :=
  match i with
  | .nop | .sinc | .fcchInit | .fcchFlush => []
  | .interp =>
    [(F32.isFinite (s.argF 2) && decide (-2 ^ 31 ≤ F32.floor (s.argF 2)) && decide (F32.floor (s.argF 2) < 2 ^ 31), .value),
     (even (s.argN 0), .align), (fitsC s 0 (s.argN 1), .range)]
  | .peak => [(decide (1 ≤ s.argN 1), .length), (even (s.argN 0), .align), (fitsC s 0 (s.argN 1), .range)]
  | .p2m =>
    [(even (s.argN 0), .align), (fitsC s 0 (s.argN 1), .range),
     (decide (2 ≤ (valley (s.argN 1) (s.argI 4) (s.argN 5)).length), .valley)]
  | .rot => rotChecks s
  | .rrot => rotChecks s
  | .conv => convChecks s (s.argN 1 + s.argN 3 - 1)
  | .convNd => convChecks s (s.argN 1)
  | .corr => convChecks s (s.argN 1 + s.argN 3 - 1)
  | .corrNd => convChecks s (s.argN 1)
  | .delay =>
    [(F32.isFinite (s.argF 2) && decide (-2 ^ 31 ≤ F32.floor (s.argF 2)) && decide (F32.floor (s.argF 2) < 2 ^ 31), .value),
     (even (s.argN 0), .align), (fitsC s 0 (s.argN 1), .range)]
  | .scale => scaleChecks s
  | .conj => scaleChecks s
  | .sliceSoft =>
    [(even (s.argN 0), .align), (fitsC s 0 (s.argN 1) && fits s (s.argN 2) (s.argN 1), .range),
     (apart (s.argN 2) (s.argN 1) (s.argN 0) (2 * s.argN 1), .overlap)]
  | .slice =>
    [(fits s (s.argN 0) (s.argN 1) && fits s (s.argN 2) (s.argN 1), .range),
     (decide (s.argN 2 = s.argN 0) || apart (s.argN 2) (s.argN 1) (s.argN 0) (s.argN 1), .overlap)]
  | .norm2 => [(even (s.argN 0), .align), (fitsC s 0 (s.argN 1), .range)]
  | .resample =>
    let m := Config.resampleLen (s.argN 1) (s.argN 3) (s.argN 4)
    [(s.cfg.resample, .unimpl), (decide (1 ≤ s.argN 3) && decide (1 ≤ s.argN 4), .length),
     (even (s.argN 0) && even (s.argN 2), .align), (fitsC s 0 (s.argN 1) && fitsC s 2 m, .range),
     (apart (s.argN 2) (2 * m) (s.argN 0) (2 * s.argN 1), .overlap)]
  | .modulate =>
    [(F32.isFinite (s.argF 3) && F32.le 0x3F800000#32 (s.argF 3), .value),
     (F32.isFinite (F32.mul (s.argF 3) (F32.ofInt (s.argN 1 + s.argN 2 : Nat))), .value),
     (decide (1 ≤ s.argN 1) && decide (1 ≤ s.argN 2) && decide (signalLen s ≤ 1024), .length),
     (even (s.argN 4), .align), (fits s (s.argN 0) (s.argN 1) && fitsC s 4 (signalLen s), .range),
     (apart (s.argN 4) (2 * signalLen s) (s.argN 0) (s.argN 1), .overlap),
     (s.pulse.valid
        || decide (pulseCount (s.argF 3) ≤ s.cfg.gpMax), .capacity)]
  | .fcchFeed =>
    [(even (s.argN 0), .align), (fitsC s 0 (s.argN 1), .range),
     (decide (17 + s.fcch.d.toNat ≤ s.cfg.xCap)
        && decide (s.fcch.ebuf.length + (s.fcch.xbuf.length + s.argN 1 - (16 + s.fcch.d.toNat)) ≤ s.cfg.eCap), .capacity)]
  | .fcchWalk =>
    [(rateOk s, .value), (decide (s.fcch.ebuf.length ≤ s.argN 1), .length), (even (s.argN 0), .align),
     (fitsC s 0 (s.argN 1), .range), (decide (burst s < s.cfg.fftSize), .fftsize)]
  | .fcchScan =>
    [(rateOk s, .value), (even (s.argN 0), .align), (fitsC s 0 (s.argN 1), .range),
     (decide (17 + s.fcch.d.toNat ≤ s.cfg.xCap) && decide (s.argN 1 - (16 + s.fcch.d.toNat) ≤ s.cfg.eCap), .capacity),
     (decide (burst s < s.cfg.fftSize), .fftsize)]
  | .freqDetect =>
    [(rateOk s, .value), (decide (1 ≤ s.argN 1), .length), (even (s.argN 0), .align), (fitsC s 0 (s.argN 1), .range),
     (decide (s.argN 1 < s.cfg.fftSize), .fftsize)]
  | .fcchEdump => [(fits s (s.argN 0) s.fcch.ebuf.length, .range)]
  | .chanresp =>
    [(F32.isFinite (s.argF 3) && decide (-2 ^ 31 ≤ F32.roundInt (s.argF 3)) && decide (F32.roundInt (s.argF 3) < 2 ^ 31),
        .value),
     (decide (1 ≤ s.argN 2) && !(windowStarts (F32.roundInt (s.argF 3)) (s.argN 2) (s.argN 1)).isEmpty, .length),
     (even (s.argN 0) && even (s.argN 6), .align), (fitsC s 0 (s.argN 1) && fitsC s 6 (s.argN 2), .range),
     (apart (s.argN 6) (2 * s.argN 2) (s.argN 0) (2 * s.argN 1), .overlap)]
  | .designDfe =>
    let nu := s.argN 1 - 1
    [(F32.isFinite (s.argF 2) && F32.lt 0#32 (s.argF 2), .value),
     (decide (2 ≤ s.argN 3 ∧ s.argN 3 ≤ s.cfg.nfMax ∧ 1 ≤ s.argN 1 ∧ s.argN 1 ≤ s.cfg.hMax), .length),
     (even (s.argN 0) && even (s.argN 4) && even (s.argN 5), .align),
     (fitsC s 0 (s.argN 1) && fitsC s 4 (s.argN 3) && fitsC s 5 nu, .range),
     (apart (s.argN 4) (2 * s.argN 3) (s.argN 0) (2 * s.argN 1) && apart (s.argN 5) (2 * nu) (s.argN 0) (2 * s.argN 1)
        && apart (s.argN 4) (2 * s.argN 3) (s.argN 5) (2 * nu), .overlap)]
  | .equalize =>
    [(decide (1 ≤ s.argN 1 ∧ s.argN 1 ≤ 1024 ∧ 1 ≤ s.argN 3), .length),
     (even (s.argN 0) && even (s.argN 2) && even (s.argN 4), .align),
     (fitsC s 0 (s.argN 1) && fitsC s 2 (s.argN 3) && fitsC s 4 (s.argN 5) && fits s (s.argN 6) (s.argN 1), .range),
     (apart (s.argN 0) (2 * s.argN 1) (s.argN 2) (2 * s.argN 3) && apart (s.argN 0) (2 * s.argN 1) (s.argN 4) (2 * s.argN 5)
        && apart (s.argN 6) (s.argN 1) (s.argN 0) (2 * s.argN 1) && apart (s.argN 6) (s.argN 1) (s.argN 2) (2 * s.argN 3)
        && apart (s.argN 6) (s.argN 1) (s.argN 4) (2 * s.argN 5), .overlap)]
  | .parityCheck => [(fits s (s.argN 0) 35, .range)]
  | .parityEncode =>
    [(fits s (s.argN 0) 25 && fits s (s.argN 1) 35, .range), (apart (s.argN 1) 35 (s.argN 0) 25, .overlap)]
  | .convEncode =>
    [(fits s (s.argN 0) 35 && fits s (s.argN 1) 78, .range), (apart (s.argN 1) 78 (s.argN 0) 35, .overlap)]
  | .viterbiHard x =>
    let n := if x then 145 else 78
    [(fits s (s.argN 0) n && fits s (s.argN 1) 39, .range), (apart (s.argN 1) 39 (s.argN 0) n, .overlap)]
  | .viterbiSoft x =>
    let n := if x then 145 else 78
    [(fits s (s.argN 0) n && fits s (s.argN 1) 39, .range), (apart (s.argN 1) 39 (s.argN 0) n, .overlap)]
  | .schFields => [(fits s (s.argN 0) 25, .range)]

/-- The code a command reports before it reads DMEM, if a check fails: the code of the first condition that fails (R413). -/
def error (i : Instr) (s : State) : Option ErrCode := ((checkList i s).find? fun p => !p.1).map fun p => p.2

/-- The destination ranges of a command: word address and words (R145, R453). -/
def destinations (i : Instr) (s : State) : List (Nat × Nat) :=
  match i with
  | .rot | .rrot | .delay => [(s.argN 0, 2 * s.argN 1)]
  | .conv | .corr => [(s.argN 4, 2 * (s.argN 1 + s.argN 3 - 1))]
  | .convNd | .corrNd => [(s.argN 4, 2 * s.argN 1)]
  | .scale | .conj => [(s.argN 2, 2 * s.argN 1)]
  | .sliceSoft | .slice => [(s.argN 2, s.argN 1)]
  | .resample => [(s.argN 2, 2 * Config.resampleLen (s.argN 1) (s.argN 3) (s.argN 4))]
  | .modulate => [(s.argN 4, 2 * signalLen s)]
  | .fcchEdump => [(s.argN 0, s.fcch.ebuf.length)]
  | .chanresp => [(s.argN 6, 2 * s.argN 2)]
  | .designDfe => [(s.argN 4, 2 * s.argN 3), (s.argN 5, 2 * (s.argN 1 - 1))]
  | .equalize => [(s.argN 6, s.argN 1), (s.argN 0, 2 * s.argN 1)]
  | .parityEncode => [(s.argN 1, 35)]
  | .convEncode => [(s.argN 1, 78)]
  | .viterbiHard _ | .viterbiSoft _ => [(s.argN 1, 39)]
  | .nop | .sinc | .interp | .peak | .p2m | .norm2 | .fcchInit | .fcchFlush | .fcchFeed | .fcchWalk | .fcchScan
  | .freqDetect | .parityCheck | .schFields => []

/-- The number of result registers a command names, RES0 on (R145). -/
def resultCount : Instr → Nat
  | .sinc | .conv | .convNd | .corr | .corrNd | .norm2 | .resample | .modulate | .fcchFeed | .fcchEdump | .designDfe => 1
  | .interp | .p2m | .delay | .chanresp | .parityCheck | .viterbiHard _ | .viterbiSoft _ => 2
  | .freqDetect => 3
  | .peak | .fcchWalk | .fcchScan => 5
  | .schFields => 6
  | .nop | .rot | .rrot | .scale | .conj | .sliceSoft | .slice | .fcchInit | .fcchFlush | .equalize | .parityEncode
  | .convEncode => 0

/-! ## Completion (R59, R414, R421) -/

/-- The state after a command that ends with error `c`: only STATUS changes (R59, R414). -/
def errored (s : State) (c : ErrCode) : State :=
  { s with status := { s.status with busy := false, done := true, err := true, errcode := c, detect := false } }

/-- `t` is `s` after a command that completes without error and writes exactly: the listed vectors of words at their word
addresses, the listed result registers, the outcome flag, and the given detector, transition detector and pulse cache. Every
other byte of DMEM, every other result register and every other field keeps its value (R59, R421). -/
structure Done (s t : State) (stores : List (Nat × List Word)) (results : List (Fin 8 × Word)) (detect : Bool) (fcch : Fcch)
    (td : TransDet) (pulse : Pulse) : Prop where
  status : t.status = { s.status with busy := false, done := true, err := false, errcode := .none, detect := detect }
  stored : ∀ v ∈ stores, ∀ k (h : k < v.2.length), t.mem.readWord (v.1 + k) = some v.2[k]
  elsewhere : ∀ b, (∀ v ∈ stores, b < 4 * v.1 ∨ 4 * (v.1 + v.2.length) ≤ b) → t.mem.readByte b = s.mem.readByte b
  result : ∀ p ∈ results, t.res[p.1] = p.2
  otherResults : ∀ i : Fin 8, (∀ p ∈ results, p.1 ≠ i) → t.res[i] = s.res[i]
  fcchIs : t.fcch = fcch
  tdIs : t.td = td
  pulseIs : t.pulse = pulse
  args : t.args = s.args
  cmd : t.cmd = s.cmd
  sampleRate : t.sampleRate = s.sampleRate
  irqEn : t.irqEn = s.irqEn
  cfg : t.cfg = s.cfg
  fault : t.fault = s.fault
  agenda : t.agenda = s.agenda
  answer : t.answer = s.answer

/-- The command answers a next state that is `Done`. -/
def Completes (i : Instr) (s : State) (stores : List (Nat × List Word)) (results : List (Fin 8 × Word))
    (detect : Bool := false) (fcch : Fcch := s.fcch) (td : TransDet := s.td) (pulse : Pulse := s.pulse) : Prop :=
  ∃ t, exec i s = .next t ∧ Done s t stores results detect fcch td pulse

/-- When a check of the command fails, the command answers the error completion with the code of the first that fails. -/
def ReportsErrors (i : Instr) : Prop := ∀ s c, error i s = some c → exec i s = .next (errored s c)

/-! ## The host's view -/

/-- The registers marked B, and DMEM: the byte offsets refused while BUSY (10_state.md register map, R106, R112). -/
def refusedWhileBusy (c : Config) (off : Nat) : Bool :=
  decide (0x020 ≤ off ∧ off < 0x060) || decide (0x080 ≤ off ∧ off < 0x0C0) || decide (0x100 ≤ off ∧ off < 0x188)
    || decide (0x200 ≤ off ∧ off < 0x200 + 4 * c.gpMax) || decide (0x01000000 ≤ off ∧ off < 0x01000000 + 4 * c.dmemWords)

/-- The offsets of the registers a host can write (10_state.md register map). -/
def writableReg (off : Nat) : Bool :=
  decide (off = 0x008 ∨ off = 0x00C ∨ off = 0x010) || decide (0x020 ≤ off ∧ off < 0x060) || decide (0x080 ≤ off ∧ off < 0x094)
    || decide (0x100 ≤ off ∧ off < 0x188)

/-- The reserved offsets (10_state.md register map, R106). -/
def reservedOffset (c : Config) (off : Nat) : Bool :=
  decide (0x014 ≤ off ∧ off < 0x020) || decide (0x0D8 ≤ off ∧ off < 0x100) || decide (0x188 ≤ off ∧ off < 0x200)
    || decide (0x200 + 4 * c.gpMax ≤ off ∧ off < 0x01000000) || decide (0x01000000 + 4 * c.dmemWords ≤ off)

/-- The number of an error code (R412). -/
def codeNumber : ErrCode → Nat
  | .none => 0 | .illegal => 1 | .range => 2 | .align => 3 | .overlap => 4 | .length => 5 | .value => 6 | .capacity => 7
  | .valley => 8 | .unimpl => 9 | .fftsize => 10 | .data => 11

/-- STATUS as a word: each field at its place (R57). -/
def statusWord (t : Status) : Word :=
  BitVec.ofNat 32 (t.busy.toNat + 2 * t.done.toNat + 4 * t.err.toNat + 8 * t.detect.toNat + 16 * t.accViol.toNat
    + 32 * t.cmdLost.toNat + 2 ^ 8 * codeNumber t.errcode + 2 ^ 16 * t.lastOpc.toNat)

/-- A 32-bit host read at byte offset `off` answers `v` and changes nothing. -/
def ReadsAs (s : State) (off : Nat) (v : Word) : Prop :=
  hostRead s .w32 (BitVec.ofNat 25 off) = .next { s with answer := some (.data v) }

/-- A 32-bit host write of `w` at byte offset `off` is taken and leaves `t`. -/
def WritesTo (s : State) (off : Nat) (w : Word) (t : State) : Prop :=
  hostWrite s .w32 (BitVec.ofNat 25 off) w = { t with answer := some .taken }

/-- The turn due is one that clears bit `b` of STATUS: the reset, a STATUS write with that bit 1, or a soft reset (R60, R432). -/
def ClearedBy (s : State) (b : Nat) : Prop :=
  ∃ rest, s.agenda = .reset :: rest
    ∨ (∃ w, s.agenda = .host (.write .w32 0x00C#25 w) :: rest ∧ w.getLsbD b = true)
    ∨ ∃ w, s.agenda = .host (.write .w32 0x008#25 w) :: rest ∧ w.getLsbD 1 = true

/-- The codes a command can report, besides ERR_ILLEGAL of an illegal word (R412, column "commands that can raise it"). -/
def codesOf : Instr → List ErrCode
  | .nop | .sinc | .fcchInit | .fcchFlush => []
  | .interp | .delay => [.value, .align, .range]
  | .peak | .rot | .rrot => [.length, .align, .range]
  | .p2m => [.align, .range, .valley]
  | .conv | .convNd | .corr | .corrNd | .equalize => [.length, .align, .range, .overlap]
  | .scale | .conj | .sliceSoft => [.align, .range, .overlap]
  | .slice | .parityEncode | .convEncode | .viterbiHard _ => [.range, .overlap]
  | .norm2 => [.align, .range]
  | .resample => [.unimpl, .length, .align, .range, .overlap]
  | .modulate => [.value, .length, .align, .range, .overlap, .capacity]
  | .fcchFeed => [.align, .range, .capacity]
  | .fcchWalk => [.value, .length, .align, .range, .fftsize]
  | .fcchScan => [.value, .align, .range, .capacity, .fftsize]
  | .freqDetect => [.value, .length, .align, .range, .fftsize]
  | .fcchEdump | .parityCheck | .schFields => [.range]
  | .chanresp | .designDfe => [.value, .length, .align, .range, .overlap]
  | .viterbiSoft _ => [.range, .overlap, .data]

/-- The command's checks pass on `s`: those on registers, and for `VITERBI_SOFT` the DATA check on its gathered values
(R413, R382). -/
def Passes (i : Instr) (s : State) : Prop :=
  error i s = none ∧
    match i with
    | .viterbiSoft x => ∀ k ∈ gathered x, ∀ v, s.mem.readWord (s.argN 0 + k) = some v →
        F32.le 0#32 v = true ∧ F32.le v 0x3F800000#32 = true
    | _ => True

/-- The words the checks of the command read are written (R200: only the DATA check reads DMEM). -/
def CheckWordsWritten (i : Instr) (s : State) : Prop :=
  match i with
  | .viterbiSoft x => error i s = none → ∀ k ∈ gathered x, (s.mem.readWord (s.argN 0 + k)).isSome = true
  | _ => True

/-- The words of the listed elements of the complex vector at word address `a` (R101). -/
def cplxAt (a : Nat) (ks : List Nat) : List Nat := ks.flatMap fun k => [a + 2 * k, a + 2 * k + 1]

/-- The words of the listed elements of the real or bit vector at word address `a` (R101). -/
def wordAt (a : Nat) (ks : List Nat) : List Nat := ks.map (a + ·)

/-- The taps of a centred filter of `hn` taps that meet an element of a vector of `xn` elements (R210). -/
def centredTaps (hn xn : Nat) : List Nat :=
  (List.range hn).filter fun k => decide ((hn - 1) / 2 < k + xn) && decide (k < (hn - 1) / 2 + xn)

/-- The addresses of the DMEM words that the command reads when its checks on registers pass (R145, R200 and the pseudocode of
its rule). Not said of `FCCH_WALK`, whose reads depend on the errors it walks over. -/
def wordsRead (i : Instr) (s : State) : List Nat :=
  match i with
  | .rot | .rrot | .scale | .conj | .sliceSoft | .norm2 | .peak | .delay | .fcchFeed | .fcchScan | .freqDetect | .designDfe
  | .resample => cplxAt (s.argN 0) (List.range (s.argN 1))
  | .slice | .modulate => wordAt (s.argN 0) (List.range (s.argN 1))
  | .interp => cplxAt (s.argN 0) (interpRange (s.argN 1) (s.argF 2))
  | .p2m => cplxAt (s.argN 0) (valley (s.argN 1) (s.argI 4) (s.argN 5))
  | .conv | .corr => cplxAt (s.argN 0) (List.range (s.argN 1)) ++ cplxAt (s.argN 2) (List.range (s.argN 3))
  | .convNd => cplxAt (s.argN 0) (List.range (s.argN 1)) ++ cplxAt (s.argN 2) (centredTaps (s.argN 3) (s.argN 1))
  | .corrNd =>
    cplxAt (s.argN 0) (List.range (s.argN 1))
      ++ cplxAt (s.argN 2) ((centredTaps (s.argN 3) (s.argN 1)).map fun k => s.argN 3 - 1 - k)
  | .chanresp =>
    (windowStarts (F32.roundInt (s.argF 3)) (s.argN 2) (s.argN 1)).flatMap fun st =>
      cplxAt (s.argN 0) ((List.range (s.argN 2)).map fun k => st.toNat + k)
  | .equalize =>
    cplxAt (s.argN 0) (List.range (s.argN 1))
      ++ cplxAt (s.argN 2) ((List.range (s.argN 3)).filter fun k => decide (s.argN 3 ≤ k + s.argN 1))
      ++ cplxAt (s.argN 4) (List.range (min (s.argN 5) (s.argN 1 - 1)))
  | .parityCheck | .convEncode => wordAt (s.argN 0) (List.range 35)
  | .parityEncode | .schFields => wordAt (s.argN 0) (List.range 25)
  | .viterbiHard x | .viterbiSoft x => wordAt (s.argN 0) (gathered x)
  | .nop | .sinc | .fcchInit | .fcchFlush | .fcchWalk | .fcchEdump => []

end Sys2Proof.Spec

open Sys2Proof Sys2Proof.Machine Sys2Proof.Spec

/-! ## Encoding -/

/-- Command words written out from R141 and R146 decode to the commands they stand for, and words of each illegal kind are
refused. -/
def Obligations.SampleCommandWordsDecode : Prop :=
  decodeWord 0x00000000#32 = .ok .nop ∧ decodeWord 0x00000010#32 = .ok .sinc ∧ decodeWord 0x0000001D#32 = .ok .sliceSoft
    ∧ decodeWord 0x00000030#32 = .ok .modulate ∧ decodeWord 0x00000044#32 = .ok .fcchScan
    ∧ decodeWord 0x00000051#32 = .ok .designDfe ∧ decodeWord 0x00000065#32 = .ok .schFields
    ∧ decodeWord 0x00000063#32 = .ok (.viterbiHard false) ∧ decodeWord 0x00000164#32 = .ok (.viterbiSoft true)
    ∧ decodeWord 0x00000047#32 = .error .reservedOpcode ∧ decodeWord 0x00000110#32 = .error .flagXNotAllowed
    ∧ decodeWord 0x00000264#32 = .error .flagsNonzero ∧ decodeWord 0x00010000#32 = .error .rsvdNonzero

/-- R142: a word decodes exactly when it is legal, and an illegal word in flight completes with ERR_ILLEGAL and no other
effect; an illegal word written to CMD while idle leaves its bits 7:0 in LAST_OPC. -/
def Obligations.LegalWordsDecodeAndIllegalWordsError : Prop :=
  (∀ w : Word, (∃ i, decodeWord w = .ok i) ↔
    (w.extractLsb' 0 8 ∈ assignedOpcodes ∧ w.extractLsb' 16 16 = 0#16 ∧ w.extractLsb' 9 7 = 0#7
      ∧ (w.getLsbD 8 = true → w.extractLsb' 0 8 = 0x63#8 ∨ w.extractLsb' 0 8 = 0x64#8)))
  ∧ (∀ s : State, s.status.busy = true → (¬ ∃ i, decodeWord s.cmd = .ok i) → engineStep s = .next (errored s .illegal))
  ∧ ∀ (s : State) (w : Word), s.status.busy = false → (¬ ∃ i, decodeWord w = .ok i) →
      engineStep (hostWrite s .w32 0x010#25 w)
        = .next (errored { s with cmd := w, status := { s.status with lastOpc := w.extractLsb' 0 8 }, answer := some .taken }
            .illegal)

/-- R140, R141, R146: decoding and encoding are inverse, on words and on the bytes of the host window. -/
def Obligations.DecodeAndEncodeAreInverse : Prop :=
  (∀ i : Instr, decodeWord (encode i) = .ok i)
  ∧ (∀ (w : Word) (i : Instr), decodeWord w = .ok i → w = encode i)
  ∧ (∀ (i : Instr) (rest : List Byte), decode (encodeBytes i ++ rest) = .ok (i, rest))
  ∧ ∀ (bytes : List Byte) (i : Instr) (rest : List Byte), decode bytes = .ok (i, rest) → bytes = encodeBytes i ++ rest

/-! ## Steps and agents -/

/-- The model's agenda (log entry 1) with the rules of R26, R421, R446 and R450: in a state without a fault, a turn of the
engine is the engine's step in the state that has used up the turn; with a command in flight that runs the decoded command;
without one it changes nothing; a turn of the host is its access; a turn of the reset input is the reset. -/
def Obligations.StepRunsTheDecodedCommand : Prop :=
  ∀ (s : State) (rest : List Event), s.fault = none →
    ((s.agenda = .engine :: rest ∨ (s.agenda = [] ∧ rest = [])) →
      step s = engineStep { s with agenda := rest }
      ∧ (∀ i, s.status.busy = true → decodeWord s.cmd = .ok i → step s = exec i { s with agenda := rest })
      ∧ (s.status.busy = false → step s = .next { s with agenda := rest }))
    ∧ (∀ a, s.agenda = .host a :: rest → step s = hostAccess { s with agenda := rest } a)
    ∧ (s.agenda = .reset :: rest → step s = .next { State.resetOf s.cfg with agenda := rest })

/-- R433: no step is refused, and no command word in flight is without a result. -/
def Obligations.NothingIsRefused : Prop :=
  (∀ (s : State) (r : Refusal), step s ≠ .refused r)
  ∧ ∀ s : State, s.status.busy = true →
      (∃ t, engineStep s = .next t ∧ t.status.busy = false ∧ t.status.done = true)
      ∨ ∃ a, engineStep s = .fault (.unwritten a (some s.cmd))

/-- R430: a step faults only in a faulted state, whose record it repeats, or because an unwritten word is read: by a host
read, recording its address, or by the command in flight, recording its address and the command word. -/
def Obligations.FaultsComeFromUnwrittenWords : Prop :=
  (∀ (s : State) (f : Fault), s.fault = some f → step s = .fault f)
  ∧ (∀ (i : Instr) (s : State) (f : Fault), exec i s = .fault f →
      ∃ a, f = .unwritten a (some s.cmd) ∧ s.mem.readWord a = none)
  ∧ (∀ (s : State) (acc : Access) (f : Fault), hostAccess s acc = .fault f →
      ∃ off, acc = .read .w32 off ∧ ∃ a, off.toNat = 0x01000000 + 4 * a ∧ f = .unwritten a none ∧ s.mem.readWord a = none)

/-- R105, R430: a command whose checks on registers pass and that reads an unwritten word faults, recording the address of an
unwritten word that it reads and the command word. That `VITERBI_SOFT` faults also where another value it gathers is out of
range is the model's choice (log entry 27). -/
def Obligations.UnwrittenSourceWordFaults : Prop :=
  ∀ (i : Instr) (s : State) (w : Nat), error i s = none → w ∈ wordsRead i s → s.mem.readWord w = none →
    ∃ w', w' ∈ wordsRead i s ∧ s.mem.readWord w' = none ∧ exec i s = .fault (.unwritten w' (some s.cmd))

/-! ## Reset -/

/-- R451: what every register, internal state and DMEM word holds after reset, for every configuration. -/
def Obligations.ResetTable : Prop :=
  ∀ c : Config, let s := State.resetOf c
    s.readReg .id = 0x4C314450#32 ∧ s.readReg .version = 7#32 ∧ s.readReg .ctrl = 0#32 ∧ s.readReg .status = 0#32
    ∧ s.readReg .cmd = 0#32 ∧ (∀ i, s.readReg (.arg i) = 0#32) ∧ (∀ i, s.readReg (.res i) = 0#32)
    ∧ s.readReg .sampleRate = 0x48843E2B#32 ∧ s.readReg .fcchD = 32#32 ∧ s.readReg .fcchP = c.pReset
    ∧ s.readReg .fcchG = c.gReset ∧ s.readReg .fcchMe = 0#32
    ∧ s.readReg .fcchXavail = 0#32 ∧ s.readReg .fcchXspace = BitVec.ofNat 32 c.xCap ∧ s.readReg .fcchEavail = 0#32
    ∧ s.readReg .fcchEspace = BitVec.ofNat 32 c.eCap ∧ s.readReg .fcchEsum = 0#32
    ∧ (∀ i, s.readReg (.tapRe i) = 0#32) ∧ (∀ i, s.readReg (.tapIm i) = 0#32)
    ∧ s.readReg .tdState = 0#32 ∧ s.readReg .tdCount = 0#32 ∧ s.readReg .tdStart = 0#32 ∧ s.readReg .tdThresh = 0#32
    ∧ s.readReg .gpStatus = 0#32 ∧ s.readReg .gpSps = 0#32 ∧ (∀ i, s.readReg (.gp i) = 0#32)
    ∧ s.readReg .cfgDmemWords = BitVec.ofNat 32 c.dmemWords ∧ s.readReg .cfgFftSize = BitVec.ofNat 32 c.fftSize
    ∧ s.readReg .cfgXcap = BitVec.ofNat 32 c.xCap ∧ s.readReg .cfgEcap = BitVec.ofNat 32 c.eCap
    ∧ s.readReg .cfgFeatures = (if c.resample then 1#32 else 0#32) ∧ s.cfg = c
    ∧ (∀ a, s.mem.readWord a = none) ∧ s.irq = false ∧ s.status.busy = false ∧ s.fault = none
    ∧ (∀ n : Nat, rotEntry n = rot n ∧ rrotEntry n = rrot n)

/-- R452, R453, R454: the soft reset, in a state without a fault record (a faulted state has no step, R430). Every register and internal state takes its reset value and the configuration stays;
a DMEM word becomes unwritten exactly when a command is in flight, is legal, passes its checks and names the word as
written; every other word is kept. (What the checks of `VITERBI_SOFT` give when a word they read is unwritten is open: log
entry 9.) -/
def Obligations.SoftResetAbortsAndResets : Prop :=
  ∀ (s : State) (w : Word), s.fault = none → w.getLsbD 1 = true →
    (∀ i, s.status.busy = true → decodeWord s.cmd = .ok i → CheckWordsWritten i s) →
      ∃ m : Memory,
        hostWrite s .w32 0x008#25 w
          = { State.resetOf s.cfg with mem := m, agenda := s.agenda, answer := some .taken }
        ∧ ∀ a,
          ((s.status.busy = true ∧ ∃ i, decodeWord s.cmd = .ok i ∧ Passes i s
              ∧ ∃ d ∈ destinations i s, d.1 ≤ a ∧ a < d.1 + d.2) → m.readWord a = none)
          ∧ ((¬ (s.status.busy = true ∧ ∃ i, decodeWord s.cmd = .ok i ∧ Passes i s
              ∧ ∃ d ∈ destinations i s, d.1 ≤ a ∧ a < d.1 + d.2)) → m.readWord a = s.mem.readWord a)

/-! ## STATUS, CTRL, CMD and the interrupt -/

/-- R58: a write to CMD while idle is accepted, and nothing else changes; while BUSY it is dropped and sets CMD_LOST. -/
def Obligations.CommandAcceptance : Prop :=
  ∀ (s : State) (w : Word),
    (s.status.busy = false →
      WritesTo s 0x010 w { s with
        cmd := w
        status := { s.status with
          busy := true, done := false, err := false, detect := false, errcode := .none, lastOpc := w.extractLsb' 0 8 } })
    ∧ (s.status.busy = true → WritesTo s 0x010 w { s with status := { s.status with cmdLost := true } })

/-- R59: the completion update, for every command: BUSY 0, DONE 1; with an error code ERR is 1 and DETECT 0; without one
DETECT is 1 only for the two walks and the parity check. That ERR is 0 without an error code is R200's (log entry 14). -/
def Obligations.CompletionUpdate : Prop :=
  ∀ (i : Instr) (s t : State), exec i s = .next t →
    t.status.busy = false ∧ t.status.done = true
    ∧ (t.status.errcode ≠ .none → t.status.err = true ∧ t.status.detect = false)
    ∧ (t.status.errcode = .none → t.status.err = false)
    ∧ (t.status.detect = true → i = .fcchWalk ∨ i = .fcchScan ∨ i = .parityCheck)
    ∧ t.status.accViol = s.status.accViol ∧ t.status.cmdLost = s.status.cmdLost ∧ t.status.lastOpc = s.status.lastOpc

/-- R57, R60: STATUS as a word, and a write to it: the bits DONE, ERR, ACC_VIOL and CMD_LOST that are written 1 become 0,
every other bit stays, also while BUSY; the reserved bits read 0; clearing DONE lowers the interrupt. -/
def Obligations.StatusWriteOneToClear : Prop :=
  ∀ (s : State) (w : Word), ∃ t, WritesTo s 0x00C w t
    ∧ t.readReg .status = s.readReg .status &&& ~~~(w &&& 0x36#32)
    ∧ t = { s with status := t.status }
    ∧ s.readReg .status &&& 0xFF0000C0#32 = 0#32
    ∧ (w.getLsbD 1 = true → t.irq = false)

/-- R425: IRQ is bit 1 of STATUS and bit 0 of CTRL at every moment, so a completion raises it when enabled, and clearing
DONE, clearing IRQ_EN, the acceptance of a command and both resets lower it; no host access raises it unless DONE is 1;
ACC_VIOL and CMD_LOST do not move it. -/
def Obligations.InterruptFollowsDone : Prop :=
  ∀ s : State,
    s.irq = ((s.readReg .status).getLsbD 1 && (s.readReg .ctrl).getLsbD 0)
    ∧ (∀ i t, exec i s = .next t → t.irq = s.irqEn)
    ∧ (∀ w t, w.getLsbD 1 = true → WritesTo s 0x00C w t → t.irq = false)
    ∧ (∀ w t, WritesTo s 0x008 w t → t.irq = (s.status.done && w.getLsbD 0 && !w.getLsbD 1))
    ∧ (∀ w t, s.status.busy = false → WritesTo s 0x010 w t → t.irq = false)
    ∧ (∀ c, (State.resetOf c).irq = false)
    ∧ (∀ a t, hostAccess s a = .next t → t.irq = true → s.status.done = true)
    ∧ ∀ acc lost, { s with status := { s.status with accViol := acc, cmdLost := lost } }.irq = s.irq

/-! ## The host's accesses -/

/-- The register map, reads (10_state.md; R53-R57, R61-R68, R106, R108): the registers that are not marked B in every state,
those marked B while not BUSY. CFG_GPMAX and GP_STATUS are read with parameters that fit their fields. -/
def Obligations.ReadsFollowTheRegisterMap : Prop :=
  ∀ s : State,
    (ReadsAs s 0x000 0x4C314450#32 ∧ ReadsAs s 0x004 0x00000007#32 ∧ ReadsAs s 0x008 (if s.irqEn then 1#32 else 0#32)
      ∧ ReadsAs s 0x00C (statusWord s.status) ∧ ReadsAs s 0x010 s.cmd
      ∧ (∀ i : Fin 8, ReadsAs s (0x060 + 4 * i) s.res[i])
      ∧ ReadsAs s 0x0C0 (BitVec.ofNat 32 s.cfg.dmemWords) ∧ ReadsAs s 0x0C4 (BitVec.ofNat 32 s.cfg.fftSize)
      ∧ ReadsAs s 0x0C8 (BitVec.ofNat 32 s.cfg.xCap) ∧ ReadsAs s 0x0CC (BitVec.ofNat 32 s.cfg.eCap)
      ∧ (s.cfg.gpMax < 2 ^ 8 → s.cfg.nfMax < 2 ^ 8 → s.cfg.hMax < 2 ^ 8 →
          ReadsAs s 0x0D0 (BitVec.ofNat 32 (s.cfg.gpMax + 2 ^ 8 * s.cfg.nfMax + 2 ^ 16 * s.cfg.hMax)))
      ∧ ReadsAs s 0x0D4 (if s.cfg.resample then 1#32 else 0#32)
      ∧ ∀ off, off % 4 = 0 → off < 2 ^ 25 → s.cfg.gpMax ≤ 128 → reservedOffset s.cfg off = true → ReadsAs s off 0#32)
    ∧ (s.status.busy = false →
      (∀ i : Fin 16, ReadsAs s (0x020 + 4 * i) s.args[i])
      ∧ ReadsAs s 0x080 s.sampleRate ∧ ReadsAs s 0x084 s.fcch.d ∧ ReadsAs s 0x088 s.fcch.p ∧ ReadsAs s 0x08C s.fcch.g
      ∧ ReadsAs s 0x090 s.fcch.me
      ∧ ReadsAs s 0x094 (BitVec.ofNat 32 s.fcch.xbuf.length)
      ∧ ReadsAs s 0x098 (BitVec.ofNat 32 (s.cfg.xCap - s.fcch.xbuf.length))
      ∧ ReadsAs s 0x09C (BitVec.ofNat 32 s.fcch.ebuf.length)
      ∧ ReadsAs s 0x0A0 (BitVec.ofNat 32 (s.cfg.eCap - s.fcch.ebuf.length))
      ∧ ReadsAs s 0x0A4 s.fcch.esum
      ∧ ReadsAs s 0x0A8 (if s.td.low then 1#32 else 0#32) ∧ ReadsAs s 0x0AC s.td.count ∧ ReadsAs s 0x0B0 s.td.start
      ∧ ReadsAs s 0x0B4 s.td.thresh
      ∧ (s.pulse.samples.length < 2 ^ 16 →
          ReadsAs s 0x0B8 (BitVec.ofNat 32 (2 ^ 16 * s.pulse.samples.length + s.pulse.valid.toNat)))
      ∧ ReadsAs s 0x0BC s.pulse.sps
      ∧ (∀ i : Fin 17, ReadsAs s (0x100 + 8 * i) s.fcch.taps[i].re ∧ ReadsAs s (0x104 + 8 * i) s.fcch.taps[i].im)
      ∧ ∀ i, i < s.cfg.gpMax → s.cfg.gpMax ≤ 128 → ReadsAs s (0x200 + 4 * i) (s.pulse.samples.getD i 0#32))

/-- The register map, writes (10_state.md; R53, R55, R56, R62, R63, R65, R108): each writable register takes the written word
and nothing else changes; a write to a read-only register or a reserved offset changes nothing. -/
def Obligations.WritesFollowTheRegisterMap : Prop :=
  ∀ (s : State) (w : Word),
    (∀ off, off % 4 = 0 → off < 2 ^ 25 → writableReg off = false →
      (off < 0x01000000 ∨ 0x01000000 + 4 * s.cfg.dmemWords ≤ off) →
      (s.status.busy = false ∨ refusedWhileBusy s.cfg off = false) → WritesTo s off w s) ∧
    (w.getLsbD 1 = false → WritesTo s 0x008 w { s with irqEn := w.getLsbD 0 })
    ∧ (s.status.busy = false →
      (∀ i : Fin 16, WritesTo s (0x020 + 4 * i) w { s with args := s.args.set i w })
      ∧ WritesTo s 0x080 w { s with sampleRate := w }
      ∧ WritesTo s 0x084 w { s with fcch := { s.fcch with d := w } }
      ∧ WritesTo s 0x088 w { s with fcch := { s.fcch with p := w } }
      ∧ WritesTo s 0x08C w { s with fcch := { s.fcch with g := w } }
      ∧ WritesTo s 0x090 w { s with fcch := { s.fcch with me := w } }
      ∧ ∀ i : Fin 17,
        WritesTo s (0x100 + 8 * i) w { s with fcch := { s.fcch with taps := s.fcch.taps.set i ⟨w, s.fcch.taps[i].im⟩ } }
        ∧ WritesTo s (0x104 + 8 * i) w { s with fcch := { s.fcch with taps := s.fcch.taps.set i ⟨s.fcch.taps[i].re, w⟩ } })

/-- R112: while BUSY a register marked B and DMEM read 0, ignore writes and set ACC_VIOL, and nothing else changes. -/
def Obligations.BusyAccessesRefused : Prop :=
  ∀ (s : State) (off : Nat), s.status.busy = true → s.cfg.gpMax ≤ 128 → off % 4 = 0 → off < 2 ^ 25 →
    refusedWhileBusy s.cfg off = true →
    hostRead s .w32 (BitVec.ofNat 25 off)
      = .next { s with status := { s.status with accViol := true }, answer := some (.data 0#32) }
    ∧ ∀ w, WritesTo s off w { s with status := { s.status with accViol := true } }

/-- R107, R431: an access of another width or at a misaligned offset is answered with a bus error and changes no state of
L1DSP. -/
def Obligations.BusErrorsChangeNothing : Prop :=
  ∀ (s : State) (wd : Width) (off : BitVec 25), (wd ≠ .w32 ∨ off.toNat % 4 ≠ 0) →
    hostAccess s (.read wd off) = .next { s with answer := some .busError }
    ∧ ∀ w, hostAccess s (.write wd off w) = .next { s with answer := some .busError }

/-- R105, R106, R108: DMEM through the host window, while not BUSY: a write makes its word written with that value and keeps
every other byte; a read answers the word and changes nothing; a read of an unwritten word is the fault. -/
def Obligations.HostReadsAndWritesDmem : Prop :=
  ∀ (s : State) (a : Nat) (w : Word), s.status.busy = false → a < s.cfg.dmemWords → s.cfg.dmemWords ≤ 2 ^ 22 →
    (∃ m : Memory, WritesTo s (0x01000000 + 4 * a) w { s with mem := m } ∧ m.readWord a = some w
      ∧ ∀ b, (b < 4 * a ∨ 4 * a + 4 ≤ b) → m.readByte b = s.mem.readByte b)
    ∧ (∀ v, s.mem.readWord a = some v → ReadsAs s (0x01000000 + 4 * a) v)
    ∧ (s.mem.readWord a = none →
        hostRead s .w32 (BitVec.ofNat 25 (0x01000000 + 4 * a)) = .fault (.unwritten a none))

/-- R432: ACC_VIOL is set only by a turn of the host that accesses, while BUSY, a register marked B or DMEM; CMD_LOST only by a
turn of the host that writes CMD while BUSY. Once set each stays set until the host writes 1 to its bit of STATUS (4 and 5),
or a reset or soft reset. -/
def Obligations.StickyFlags : Prop :=
  ∀ s t : State, step s = .next t →
    (s.status.accViol = false → t.status.accViol = true →
      s.status.busy = true ∧ ∃ off rest, refusedWhileBusy s.cfg off.toNat = true ∧ off.toNat % 4 = 0
        ∧ (s.agenda = .host (.read .w32 off) :: rest ∨ ∃ w, s.agenda = .host (.write .w32 off w) :: rest))
    ∧ (s.status.cmdLost = false → t.status.cmdLost = true →
      s.status.busy = true ∧ ∃ w rest, s.agenda = .host (.write .w32 0x010#25 w) :: rest)
    ∧ (s.status.accViol = true → t.status.accViol = false → ClearedBy s 4)
    ∧ (s.status.cmdLost = true → t.status.cmdLost = false → ClearedBy s 5)

/-! ## All commands -/

/-- R412, R414: errors are precise. When a command ends with an error, STATUS is all that changed, and the code is one that
the table gives the command. -/
def Obligations.ErrorsArePrecise : Prop :=
  ∀ (i : Instr) (s t : State), exec i s = .next t → t.status.err = true →
    t = errored s t.status.errcode ∧ t.status.errcode ∈ codesOf i

/-- The frame of every command (R53, R54, R66, R110, R145, R453): a completed command leaves the arguments, CMD,
SAMPLE_RATE, IRQ_EN, the configuration, the sticky flags and LAST_OPC; every byte outside its destination ranges; every result register
it does not name; the detector but for FCCH_INIT, FCCH_FLUSH, FCCH_FEED and FCCH_SCAN; the transition detector but for
FCCH_INIT, FCCH_WALK and FCCH_SCAN; the pulse cache but for MODULATE. -/
def Obligations.FrameOfEveryCommand : Prop :=
  ∀ (i : Instr) (s t : State), exec i s = .next t →
    t.args = s.args ∧ t.cmd = s.cmd ∧ t.sampleRate = s.sampleRate ∧ t.irqEn = s.irqEn ∧ t.cfg = s.cfg ∧ t.fault = s.fault
    ∧ t.agenda = s.agenda ∧ t.answer = s.answer
    ∧ t.status.accViol = s.status.accViol ∧ t.status.cmdLost = s.status.cmdLost ∧ t.status.lastOpc = s.status.lastOpc
    ∧ (∀ b, (∀ d ∈ destinations i s, b < 4 * d.1 ∨ 4 * (d.1 + d.2) ≤ b) → t.mem.readByte b = s.mem.readByte b)
    ∧ (∀ j : Fin 8, resultCount i ≤ j.val → t.res[j] = s.res[j])
    ∧ (i ≠ .fcchInit → i ≠ .fcchFlush → i ≠ .fcchFeed → i ≠ .fcchScan → t.fcch = s.fcch)
    ∧ (i ≠ .fcchInit → i ≠ .fcchWalk → i ≠ .fcchScan → t.td = s.td)
    ∧ (i ≠ .modulate → t.pulse = s.pulse)

/-- R421, R71, R435: a host access while a command is in flight, but for a soft reset, leaves it in flight with its word, and
does not change its result: the engine's step ends as it would have without the access, with the same data, the same outcome
flag and the same error, also for an illegal word; or it meets the same unwritten word. -/
def Obligations.HostCannotDisturbACommand : Prop :=
  ∀ (s s' : State) (acc : Access), s.status.busy = true →
    (∀ w, acc = .write .w32 0x008#25 w → w.getLsbD 1 = false) → hostAccess s acc = .next s' →
      s'.status.busy = true ∧ s'.cmd = s.cmd
      ∧ (∀ t, engineStep s = .next t → ∃ t', engineStep s' = .next t' ∧ State.sameData t t'
          ∧ t'.status.busy = t.status.busy ∧ t'.status.done = t.status.done ∧ t'.status.err = t.status.err
          ∧ t'.status.detect = t.status.detect ∧ t'.status.errcode = t.status.errcode
          ∧ t'.status.lastOpc = t.status.lastOpc)
      ∧ ∀ f, engineStep s = .fault f → engineStep s' = .fault f

/-! ## Invariants -/

/-- Every step keeps the invariant: no fault record, DMEM canonical, in bounds and written by whole words, XBUF and EBUF
within their capacities, the pulse cache and STATUS in order (R57-R61, R64, R68, R100, R105); and no step, of any state,
changes the configuration (R66). -/
def Obligations.EveryStepKeepsTheInvariant : Prop :=
  (∀ s t : State, s.Inv → step s = .next t → t.Inv) ∧ ∀ s t : State, step s = .next t → t.cfg = s.cfg

/-- The invariant holds after reset, in every configuration. -/
def Obligations.ResetMeetsTheInvariant : Prop := (∀ c : Config, (State.resetOf c).Inv) ∧ State.reset.Inv

/-- R64: in every state that meets the invariant the entries held and the entries free, as the registers read them, sum to
the capacity, and the sums do not wrap. -/
def Obligations.AvailablePlusSpaceIsCapacity : Prop :=
  ∀ s : State, s.Inv → s.cfg.wf = true →
    (s.readReg .fcchXavail).toNat + (s.readReg .fcchXspace).toNat = s.cfg.xCap
    ∧ (s.readReg .fcchEavail).toNat + (s.readReg .fcchEspace).toNat = s.cfg.eCap

/-! ## Primitives (40_dsp_primitives.md) -/

/-- R201, R202, R288, R289: the commands without checks. `NOP` does nothing and completes; `SINC` leaves SincF(x) in RES0,
which is exactly 1.0 for ±0, for a NaN and for |x| ≤ 1e-4; `FCCH_INIT` restores the detector to its reset state; `FCCH_FLUSH`
empties its buffers. -/
def Obligations.CommandsWithoutChecks : Prop :=
  ∀ s : State,
    Completes .nop s [] []
    ∧ Completes .sinc s [] [(0, sinc (s.argF 0))]
    ∧ (F32.lt 0x38D1B717#32 (F32.abs (s.argF 0)) = false → Completes .sinc s [] [(0, 0x3F800000#32)])
    ∧ Completes .fcchInit s [] []
      (fcch := { d := 32#32, p := s.cfg.pReset, g := s.cfg.gReset, me := 0#32, taps := Vector.replicate 17 ⟨0#32, 0#32⟩
                 xbuf := [], ebuf := [], esum := 0#32 })
      (td := { low := false, count := 0#32, start := 0#32, thresh := 0#32 })
    ∧ Completes .fcchFlush s [] [] (fcch := { s.fcch with xbuf := [], ebuf := [], esum := 0#32 })

/-- R203: `INTERP`. Only the elements of the index range are read. -/
def Obligations.InterpAtFractionalIndex : Prop :=
  ReportsErrors .interp ∧ ∀ (s : State) (x : Nat → Cplx), error .interp s = none →
    CplxOn s.mem (s.argN 0) (interpRange (s.argN 1) (s.argF 2)) x →
      let z := interp s.cfg.windowed x (s.argN 1) (s.argF 2)
      Completes .interp s [] [(0, z.re), (1, z.im)]

/-- R204: `PEAK` leaves what `PeakDetectF` gives in RES0-RES4. -/
def Obligations.PeakDetection : Prop :=
  ReportsErrors .peak ∧ ∀ (s : State) (x : Nat → Cplx), error .peak s = none →
    CplxOn s.mem (s.argN 0) (List.range (s.argN 1)) x →
      let r := peak s.cfg.windowed x (s.argN 1)
      Completes .peak s [] [(0, r.maxI), (1, r.peak.re), (2, r.peak.im), (3, r.avg), (4, BitVec.ofNat 32 r.imax)]

/-- R205: `P2M`. Only the accumulated elements are read. -/
def Obligations.PeakToMean : Prop :=
  ReportsErrors .p2m ∧ ∀ (s : State) (x : Nat → Cplx), error .p2m s = none →
    let ks := valley (s.argN 1) (s.argI 4) (s.argN 5)
    CplxOn s.mem (s.argN 0) ks x →
      Completes .p2m s []
        [(0, F32.div (Cplx.abs ⟨s.argF 2, s.argF 3⟩)
            (F32.add (F32.sqrt (F32.div (energy x ks) (F32.ofInt ks.length))) 0x3727C5AC#32)),
         (1, BitVec.ofNat 32 ks.length)]

/-- R206, R207: `ROT` and `RROT` multiply each element, in place, by the table entry at offset + i. -/
def Obligations.RotationsInPlace : Prop :=
  ReportsErrors .rot ∧ ReportsErrors .rrot ∧ ∀ (s : State) (x : Nat → Cplx),
    CplxOn s.mem (s.argN 0) (List.range (s.argN 1)) x →
      (error .rot s = none →
        Completes .rot s [(s.argN 0, cplxVec (s.argN 1) fun i => (x i).mul (rot (s.argN 2 + i)))] [])
      ∧ (error .rrot s = none →
        Completes .rrot s [(s.argN 0, cplxVec (s.argN 1) fun i => (x i).mul (rrot (s.argN 2 + i)))] [])

/-- R207: `RROT` after `ROT` with the same offset gives every finite element back, up to the sign of zero components. -/
def Obligations.RrotUndoesRot : Prop :=
  ∀ (z : Cplx) (n : Nat), F32.isFinite z.re = true → F32.isFinite z.im = true →
    let y := (z.mul (rotEntry n)).mul (rrotEntry n)
    (y.re = z.re ∨ (F32.isZero y.re = true ∧ F32.isZero z.re = true))
    ∧ (y.im = z.im ∨ (F32.isZero y.im = true ∧ F32.isZero z.im = true))

/-- R208, R209, R210: `CONV` and `CONV_ND`. -/
def Obligations.Convolutions : Prop :=
  ReportsErrors .conv ∧ ReportsErrors .convNd ∧ ∀ (s : State) (x h : Nat → Cplx),
    let xn := s.argN 1
    let hn := s.argN 3
    CplxOn s.mem (s.argN 0) (List.range xn) x → CplxOn s.mem (s.argN 2) (List.range hn) h →
      (error .conv s = none →
        Completes .conv s [(s.argN 4, cplxVec (xn + hn - 1) (conv h hn x xn))] [(0, BitVec.ofNat 32 (xn + hn - 1))])
      ∧ (error .convNd s = none →
        Completes .convNd s [(s.argN 4, cplxVec xn fun n => conv h hn x xn (n + (hn - 1) / 2))] [(0, BitVec.ofNat 32 xn)])

/-- R208, R211, R212: `CORR` and `CORR_ND`, with the reversed, conjugated reference. -/
def Obligations.Correlations : Prop :=
  ReportsErrors .corr ∧ ReportsErrors .corrNd ∧ ∀ (s : State) (x r : Nat → Cplx),
    let xn := s.argN 1
    let rn := s.argN 3
    CplxOn s.mem (s.argN 0) (List.range xn) x → CplxOn s.mem (s.argN 2) (List.range rn) r →
      (error .corr s = none →
        Completes .corr s [(s.argN 4, cplxVec (xn + rn - 1) (conv (revConj r rn) rn x xn))]
          [(0, BitVec.ofNat 32 (xn + rn - 1))])
      ∧ (error .corrNd s = none →
        Completes .corrNd s [(s.argN 4, cplxVec xn fun n => conv (revConj r rn) rn x xn (n + (rn - 1) / 2))]
          [(0, BitVec.ofNat 32 xn)])

/-- R213: `DELAY`, in place. -/
def Obligations.FractionalDelay : Prop :=
  ReportsErrors .delay ∧ ∀ (s : State) (x : Nat → Cplx), error .delay s = none →
    CplxOn s.mem (s.argN 0) (List.range (s.argN 1)) x →
      let ids := F32.floor (s.argF 2)
      let fds := F32.sub (s.argF 2) (F32.ofInt ids)
      Completes .delay s [(s.argN 0, cplxVec (s.argN 1) (delayed x (s.argN 1) ids fds))] [(0, BitVec.ofInt 32 ids), (1, fds)]

/-- R214, R215: `SCALE` and `CONJ`. -/
def Obligations.ScaleAndConjugate : Prop :=
  ReportsErrors .scale ∧ ReportsErrors .conj ∧ ∀ (s : State) (x : Nat → Cplx),
    CplxOn s.mem (s.argN 0) (List.range (s.argN 1)) x →
      (error .scale s = none →
        Completes .scale s [(s.argN 2, cplxVec (s.argN 1) fun i => ⟨F32.mul (s.argF 3) (x i).re, F32.mul (s.argF 3) (x i).im⟩)] [])
      ∧ (error .conj s = none →
        Completes .conj s [(s.argN 2, cplxVec (s.argN 1) fun i => ⟨(x i).re, (x i).im ^^^ 0x80000000#32⟩)] [])

/-- R216, R217: `SLICE_SOFT` and `SLICE`. -/
def Obligations.SoftAndHardSlices : Prop :=
  ReportsErrors .sliceSoft ∧ ReportsErrors .slice ∧ ∀ s : State,
    (∀ x : Nat → Cplx, CplxOn s.mem (s.argN 0) (List.range (s.argN 1)) x → error .sliceSoft s = none →
      Completes .sliceSoft s [(s.argN 2, realVec (s.argN 1) fun i => soft (x i))] [])
    ∧ ∀ y : Nat → F32, RealOn s.mem (s.argN 0) (List.range (s.argN 1)) y → error .slice s = none →
      Completes .slice s [(s.argN 2, bitVec (s.argN 1) fun i => F32.lt 0x3F000000#32 (y i))] []

/-- R218: `NORM2`. -/
def Obligations.VectorEnergy : Prop :=
  ReportsErrors .norm2 ∧ ∀ (s : State) (x : Nat → Cplx), error .norm2 s = none →
    CplxOn s.mem (s.argN 0) (List.range (s.argN 1)) x →
      Completes .norm2 s [] [(0, energy x (List.range (s.argN 1)))]

/-- R231: `RESAMPLE` reports ERR_UNIMPL whatever its arguments where the configuration lacks it, and applies the open
functions where it has them. -/
def Obligations.ResampleIsTheOpenFunction : Prop :=
  ReportsErrors .resample
  ∧ (∀ s : State, s.cfg.resample = false → exec .resample s = .next (errored s .unimpl))
  ∧ ∀ (s : State) (x : Nat → Cplx), error .resample s = none → CplxOn s.mem (s.argN 0) (List.range (s.argN 1)) x →
      let m := Config.resampleLen (s.argN 1) (s.argN 3) (s.argN 4)
      Completes .resample s
        [(s.argN 2, cplxVec m (Config.resampleAt ((List.range (s.argN 1)).map x) (s.argN 3) (s.argN 4)))]
        [(0, BitVec.ofNat 32 m)]

/-! ## Modulator (41_gmsk_modulator.md) -/

/-- R261, R262, R263: `MODULATE` builds the pulse of GaussPulseF on the first call and uses the cached one ever after,
whatever its own sps. The errors are stated where sps is unusable or the product sps × flt(N + guard) is finite (what an infinite product reports is
log entry 11). -/
def Obligations.ModulateUsesThePulseCache : Prop :=
  (∀ s c, ((F32.isFinite (s.argF 3) && F32.le 0x3F800000#32 (s.argF 3)) = false
        ∨ F32.isFinite (F32.mul (s.argF 3) (F32.ofInt (s.argN 1 + s.argN 2 : Nat))) = true) →
      error .modulate s = some c → exec .modulate s = .next (errored s c))
  ∧ ∀ (s : State) (b : Nat → Bool), error .modulate s = none → BitOn s.mem (s.argN 0) (List.range (s.argN 1)) b →
      let gp : Pulse := if s.pulse.valid then s.pulse else ⟨true, s.argF 3, realVec (pulseCount (s.argF 3)) (gauss (s.argF 3))⟩
      let ln := signalLen s
      Completes .modulate s
        [(s.argN 4, cplxVec ln fun n =>
          conv (fun k => ⟨gp.samples.getD k 0#32, 0#32⟩) gp.samples.length
            (impulses (F32.floor (s.argF 3)).toNat (s.argN 1) b) ln (n + (gp.samples.length - 1) / 2))]
        [(0, BitVec.ofNat 32 ln)] (pulse := gp)

/-! ## FCCH detector (42_fcch_detector.md) -/

/-- R281, R282, R290: `FCCH_FEED` feeds its samples in order; each is appended to XBUF and makes one predictor step when
17 + D samples are there. RES0 is the number of the pseudocode of R290, also where a lowered FCCH_D leaves more than 16 + D
samples pending, which is the model's choice (log entry 10). -/
def Obligations.FeedDrivesThePredictor : Prop :=
  ReportsErrors .fcchFeed ∧ ∀ (s : State) (x : Nat → Cplx), error .fcchFeed s = none →
    CplxOn s.mem (s.argN 0) (List.range (s.argN 1)) x →
      Completes .fcchFeed s [] [(0, BitVec.ofNat 32 (s.fcch.xbuf.length + s.argN 1 - (16 + s.fcch.d.toNat)))]
        (fcch := ((List.range (s.argN 1)).map x).foldl feedSample s.fcch)

/-- R282: feeding k samples into an XBUF that holds q < 17 + D samples appends max(0, q + k − (16 + D)) errors and leaves
XBUF with at most 16 + D samples. -/
def Obligations.FeedCountsErrors : Prop :=
  ∀ (f : Fcch) (xs : List Cplx), f.xbuf.length < 17 + f.d.toNat →
    (f.feedAll xs).ebuf.length = f.ebuf.length + (f.xbuf.length + xs.length - (16 + f.d.toNat))
    ∧ (f.feedAll xs).xbuf.length = min (f.xbuf.length + xs.length) (16 + f.d.toNat)
    ∧ f.ebuf <+: (f.feedAll xs).ebuf

/-- R290: feeding a vector in two parts leaves exactly the detector that feeding it in one leaves. -/
def Obligations.FeedInTwoParts : Prop :=
  ∀ (s t u v : State) (a n m : Nat), a + 2 * (n + m) ≤ s.cfg.dmemWords → s.cfg.dmemWords ≤ 2 ^ 22 → a % 2 = 0 →
    let at_ (q : State) (addr len : Nat) : State :=
      { q with args := (q.args.set 0 (BitVec.ofNat 32 addr)).set 1 (BitVec.ofNat 32 len) }
    exec .fcchFeed (at_ s a (n + m)) = .next t → t.status.err = false →
    exec .fcchFeed (at_ s a n) = .next u → exec .fcchFeed (at_ u (a + 2 * n) m) = .next v →
      v.fcch = t.fcch ∧ v.status.err = false

/-- R284, R287, R291: `FCCH_WALK`, with the checks that R291 lists: no ERR_CAPACITY, which is the model's choice between R63 and
R291 (log entry 26). The consumed count is the integer of R284; what the register holds for one of 2^32 or more
is free (log entry 25). -/
def Obligations.WalkOverErrors : Prop :=
  ReportsErrors .fcchWalk ∧ ∀ (s : State) (x : Nat → Cplx), error .fcchWalk s = none →
    CplxOn s.mem (s.argN 0) (List.range (s.argN 1)) x →
      let r := walkOf s s.fcch x
      Completes .fcchWalk s [] (walkResults s.fcch (s.argN 1) r.2) (detect := r.2.isSome) (td := walkTd s.fcch r.1)

/-- R292: `FCCH_EDUMP`. -/
def Obligations.ErrorDump : Prop :=
  ReportsErrors .fcchEdump ∧ ∀ s : State, error .fcchEdump s = none →
    Completes .fcchEdump s [(s.argN 0, s.fcch.ebuf)] [(0, BitVec.ofNat 32 s.fcch.ebuf.length)]

/-- R293, R286: `FCCH_SCAN` is exactly `FCCH_FLUSH`, `FCCH_FEED`, `FCCH_WALK`, `FCCH_FLUSH` with the same operands: the same
DMEM, the same result registers, the same detector and the same STATUS as the walk leaves; it ends with both buffers empty,
whatever the outcome. -/
def Obligations.ScanIsFlushFeedWalkFlush : Prop :=
  ReportsErrors .fcchScan ∧ ∀ (s : State) (x : Nat → Cplx), error .fcchScan s = none →
    CplxOn s.mem (s.argN 0) (List.range (s.argN 1)) x →
      ∃ s1 s2 s3 s4, exec .fcchFlush s = .next s1 ∧ exec .fcchFeed s1 = .next s2 ∧ s2.status.err = false
        ∧ exec .fcchWalk s2 = .next s3 ∧ s3.status.err = false ∧ exec .fcchFlush s3 = .next s4
        ∧ exec .fcchScan s = .next { s4 with status := s3.status }
        ∧ s4.fcch.xbuf = [] ∧ s4.fcch.ebuf = [] ∧ s4.fcch.esum = 0#32

/-- R294: `FREQ_DETECT`. -/
def Obligations.FrequencyDetection : Prop :=
  ReportsErrors .freqDetect ∧ ∀ (s : State) (x : Nat → Cplx), error .freqDetect s = none →
    CplxOn s.mem (s.argN 0) (List.range (s.argN 1)) x →
      let r := freqDetect s.cfg s.sampleRate x 0 (s.argN 1)
      Completes .freqDetect s [] [(0, r.freq), (1, r.pm), (2, r.maxI)]

/-! ## Channel estimator and DFE (43_channel_dfe.md) -/

/-- R331: `CHANRESP`. -/
def Obligations.ChannelResponse : Prop :=
  ReportsErrors .chanresp ∧ ∀ (s : State) (x : Nat → Cplx), error .chanresp s = none →
    CplxOn s.mem (s.argN 0) (List.range (s.argN 1)) x →
      let r := F32.roundInt (s.argF 3)
      let c := s.argN 2
      let best := bestWindow x c (windowStarts r c (s.argN 1)) (max (r - c + 1) 0)
      Completes .chanresp s
        [(s.argN 6, cplxVec c fun k => (x (best.1.toNat + k)).div ⟨s.argF 4, s.argF 5⟩)]
        [(0, BitVec.ofInt 32 best.1), (1, best.2)]

/-- R332, R333: `DESIGN_DFE` writes the feedforward filter of Nf taps and the feedback filter of hn − 1 taps of `DesignF`, and
leaves d in RES0. -/
def Obligations.DfeDesign : Prop :=
  ReportsErrors .designDfe ∧ ∀ (s : State) (h : Nat → Cplx), error .designDfe s = none →
    CplxOn s.mem (s.argN 0) (List.range (s.argN 1)) h →
      let nu := s.argN 1 - 1
      let snr := s.argF 2
      let nf := s.argN 3
      Completes .designDfe s
        [(s.argN 4, cplxVec nf (designFf h nu snr nf)), (s.argN 5, cplxVec nu (designFb h nu snr nf))]
        [(0, designPivot h nu snr (nf - 1))]

/-- R335: `EQUALIZE`, in place, with the soft values at its destination. -/
def Obligations.Equalizer : Prop :=
  ReportsErrors .equalize ∧ ∀ (s : State) (v ff fb : Nat → Cplx), error .equalize s = none →
    let vn := s.argN 1
    let ffn := s.argN 3
    let fbn := s.argN 5
    CplxOn s.mem (s.argN 0) (List.range vn) v → CplxOn s.mem (s.argN 2) (List.range ffn) ff →
    CplxOn s.mem (s.argN 4) (List.range fbn) fb →
      let post := fun n => conv ff ffn v vn (n + ffn - 1)
      Completes .equalize s
        [(s.argN 6, realVec vn fun i => soft (dfeOut post fb fbn i (dfePast post fb fbn i))),
         (s.argN 0, cplxVec vn fun i => (dfePast post fb fbn vn).reverse.getD i ⟨0#32, 0#32⟩)] []

/-! ## SCH decoder (44_sch_decoder.md) -/

/-- R373: `PARITY_CHECK`. -/
def Obligations.ParityCheck : Prop :=
  ReportsErrors .parityCheck ∧ ∀ (s : State) (b : Nat → Bool), error .parityCheck s = none →
    BitOn s.mem (s.argN 0) (List.range 35) b →
      let r := (List.range 10).map (residue b)
      let pass := r == List.replicate 10 true
      Completes .parityCheck s [] [(0, if pass then 0#32 else 1#32), (1, BitVec.ofNat 32 (number r))] (detect := pass)

/-- R374: `PARITY_ENCODE`. -/
def Obligations.ParityEncode : Prop :=
  ReportsErrors .parityEncode ∧ ∀ (s : State) (b : Nat → Bool), error .parityEncode s = none →
    BitOn s.mem (s.argN 0) (List.range 25) b →
      Completes .parityEncode s [(s.argN 1, bitVec 35 (parityBlock b))] []

/-- R371: the residue is the remainder of the block's polynomial divided by the generator over GF(2). -/
def Obligations.ResidueIsThePolynomialRemainder : Prop :=
  ∀ b : Nat → Bool,
    (∑ i ∈ Finset.range 35, Polynomial.monomial (34 - i) (if b i then (1 : ZMod 2) else 0)) %ₘ
        (Polynomial.X ^ 10 + Polynomial.X ^ 8 + Polynomial.X ^ 6 + Polynomial.X ^ 5 + Polynomial.X ^ 4 + Polynomial.X ^ 2 + 1)
      = ∑ j ∈ Finset.range 10, Polynomial.monomial (9 - j)
          (if (residueF ((List.range 35).map b)).getD j false then (1 : ZMod 2) else 0)

/-- R373, R374: the parity check of every encoded block passes; a block that passes is the encoding of its first 25 bits; and
a passing block with one bit flipped fails. -/
def Obligations.ParityAcceptsCodewordsOnly : Prop :=
  (∀ info : List Bool, info.length = 25 → (residueF (parityEncodeF info)).all id = true ∧ (parityEncodeF info).length = 35)
  ∧ (∀ block : List Bool, block.length = 35 → (residueF block).all id = true → block = parityEncodeF (block.take 25))
  ∧ ∀ (block : List Bool) (i : Nat), block.length = 35 → (residueF block).all id = true → i < 35 →
      (residueF (block.set i (!block.getD i false))).all id = false

/-- R370, R372, R376: `CONV_ENCODE`, in the generators G0 and G1. -/
def Obligations.ConvolutionalEncode : Prop :=
  ReportsErrors .convEncode ∧ ∀ (s : State) (b : Nat → Bool), error .convEncode s = none →
    BitOn s.mem (s.argN 0) (List.range 35) b →
      Completes .convEncode s [(s.argN 1, bitVec 78 (codeBit (tailed b)))] []

/-- R378, R379, R380, R381: `VITERBI_HARD`, with and without X: the decoder of R378 with the hard metric on the 78 gathered
bits, ties to the lower predecessor and to the lowest final state. Only the gathered words are read. -/
def Obligations.ViterbiHard : Prop :=
  ∀ x : Bool, ReportsErrors (.viterbiHard x) ∧ ∀ (s : State) (r : Nat → Bool), error (.viterbiHard x) s = none →
    BitOn s.mem (s.argN 0) (gathered x) r →
      let q := fun n => r ((gathered x).getD n 0)
      Completes (.viterbiHard x) s [(s.argN 1, bitVec 39 (hardBit q))]
        [(0, BitVec.ofNat 32 (hardTrellis q 39 (hardFinal q)).1), (1, BitVec.ofNat 32 (hardFinal q))]

/-- R378, R379, R380, R382: `VITERBI_SOFT`, with and without X: a gathered value outside [0, 1], or a NaN, gives ERR_DATA;
else the decoder of R378 with the soft metric on the 78 gathered values. RES0 is what R378 and R379 compute; the Example of R382
differs from it in the last bit, and the model's choice between them is log entry 24. -/
def Obligations.ViterbiSoft : Prop :=
  ∀ x : Bool, ReportsErrors (.viterbiSoft x) ∧ ∀ (s : State) (r : Nat → F32), error (.viterbiSoft x) s = none →
    RealOn s.mem (s.argN 0) (gathered x) r →
      ((∃ k ∈ gathered x, (F32.le 0#32 (r k) && F32.le (r k) 0x3F800000#32) = false) →
        exec (.viterbiSoft x) s = .next (errored s .data))
      ∧ ((∀ k ∈ gathered x, (F32.le 0#32 (r k) && F32.le (r k) 0x3F800000#32) = true) →
        let q := fun n => r ((gathered x).getD n 0)
        Completes (.viterbiSoft x) s [(s.argN 1, bitVec 39 (softBit q))]
          [(0, (softTrellis q 39 (softFinal q)).1), (1, BitVec.ofNat 32 (softFinal q))])

/-- R378, R379: the hard decoder is a maximum-likelihood decoder. Its output is the input sequence of a trellis path from
state 0, its metric is that path's Hamming distance from the received bits, no path is nearer, and the state it reports is
the path's last state. Of several nearest paths it is the one that R378 traces back: the lowest final state, and at each
state the lower predecessor. -/
def Obligations.HardDecoderFindsANearestPath : Prop :=
  ∀ r : Nat → Bool, ∃ u : Nat → Bool,
    let v := viterbiF hardMetric ((List.range 78).map r)
    v.out = (List.range 39).map (fun k => (u k).toNat)
    ∧ v.metric = distance u r
    ∧ (∀ u' : Nat → Bool, v.metric ≤ distance u' r)
    ∧ v.state = 8 * (u 35).toNat + 4 * (u 36).toNat + 2 * (u 37).toNat + (u 38).toNat
    ∧ v.state = hardFinal r ∧ ∀ k, k < 39 → u k = hardBit r k

/-- R376, R381: the hard decoder gives every encoded block back with its zero tail, with metric 0 and final state 0. -/
def Obligations.DecoderInvertsEncoder : Prop :=
  ∀ block : List Bool, block.length = 35 →
    viterbiF hardMetric (convEncodeF block)
      = { out := (block ++ List.replicate 4 false).map Bool.toNat, metric := 0, state := 0 }

/-- R384, R385: `SCH_FIELDS`; tt is (T3 − T2) mod 26. -/
def Obligations.SchFieldExtraction : Prop :=
  ReportsErrors .schFields ∧ ∀ (s : State) (b : Nat → Bool), error .schFields s = none →
    BitOn s.mem (s.argN 0) (List.range 25) b →
      let bsic := number ([7, 6, 5, 4, 3, 2].map b)
      let t1 := number ([1, 0, 15, 14, 13, 12, 11, 10, 9, 8, 23].map b)
      let t2 := number ([22, 21, 20, 19, 18].map b)
      let t3p := number ([17, 16, 24].map b)
      let t3 := 10 * t3p + 1
      let tt := (((t3 : Int) - t2) % 26).toNat
      Completes .schFields s []
        [(0, BitVec.ofNat 32 bsic), (1, BitVec.ofNat 32 t1), (2, BitVec.ofNat 32 t2), (3, BitVec.ofNat 32 t3p),
         (4, BitVec.ofNat 32 t3), (5, BitVec.ofNat 32 (51 * 26 * t1 + 51 * tt + t3))]

/-- R386: the ranges of the fields. -/
def Obligations.SchFieldRanges : Prop :=
  ∀ d : List Bool, let f := schFieldsF d
    f.bsic ≤ 63 ∧ f.t1 ≤ 2047 ∧ f.t2 ≤ 31 ∧ f.t3p ≤ 7 ∧ f.t3 ∈ [1, 11, 21, 31, 41, 51, 61, 71]
    ∧ 1 ≤ f.fn ∧ f.fn ≤ 2715668 ∧ ∃ tt, tt ≤ 25 ∧ f.fn = 51 * 26 * f.t1 + 51 * tt + f.t3
end

