-- ==== Sys2Proof/Laws/Memory.lean ====
section
/-!
SUPPORT. The laws of DMEM: a read after a write, the canonical form, and the whole-word form (20_memory.md R100, R105, R107).
-/
namespace Sys2Proof.Machine

/-! ## Bytes -/

@[simp] theorem Memory.readByte_nil (k : Nat) : Memory.readByte [] k = none := rfl

theorem Memory.readByte_cons (c : Host.Cell) (m : Memory) (k : Nat) :
    Memory.readByte (c :: m) k = if c.1 = k then some c.2 else Memory.readByte m k := rfl

@[simp] theorem Memory.readByte_writeByte_same (m : Memory) (k : Nat) (b : Byte) :
    (m.writeByte k b).readByte k = some b := by
  induction m with
  | nil => simp [Memory.writeByte, Memory.readByte]
  | cons c m ih =>
    rcases c with ⟨k', b'⟩
    simp only [Memory.writeByte]
    split
    · simp [Memory.readByte]
    · split
      · simp [Memory.readByte]
      · rename_i h1 h2
        simp only [Memory.readByte]
        rw [if_neg (fun h => h2 h.symm)]
        exact ih

theorem Memory.readByte_writeByte_other (m : Memory) (k j : Nat) (b : Byte) (h : j ≠ k) :
    (m.writeByte k b).readByte j = m.readByte j := by
  induction m with
  | nil => simp [Memory.writeByte, Memory.readByte, Ne.symm h]
  | cons c m ih =>
    rcases c with ⟨k', b'⟩
    simp only [Memory.writeByte]
    split
    · simp [Memory.readByte, Ne.symm h]
    · split
      · rename_i _ h2
        subst h2
        simp [Memory.readByte, Ne.symm h]
      · simp only [Memory.readByte, ih]

theorem Memory.mem_writeByte {m : Memory} {k : Nat} {b : Byte} {c : Host.Cell} (h : c ∈ m.writeByte k b) :
    c = (k, b) ∨ c ∈ m := by
  induction m with
  | nil => simpa [Memory.writeByte] using h
  | cons d m ih =>
    rcases d with ⟨k', b'⟩
    simp only [Memory.writeByte] at h
    split at h
    · rcases List.mem_cons.1 h with h | h
      · exact .inl h
      · exact .inr h
    · split at h
      · rcases List.mem_cons.1 h with h | h
        · exact .inl h
        · exact .inr (List.mem_cons_of_mem _ h)
      · rcases List.mem_cons.1 h with h | h
        · exact .inr (h ▸ List.mem_cons_self)
        · exact (ih h).imp_right (List.mem_cons_of_mem _)

theorem Memory.wf_writeByte {m : Memory} (h : m.wf) (k : Nat) (b : Byte) : (m.writeByte k b).wf := by
  induction m with
  | nil => simp [Memory.writeByte, Memory.wf]
  | cons d m ih =>
    rcases d with ⟨k', b'⟩
    have hm := List.pairwise_cons.1 h
    simp only [Memory.writeByte]
    split
    · rename_i hk
      refine List.pairwise_cons.2 ⟨fun c hc => ?_, h⟩
      rcases List.mem_cons.1 hc with rfl | hc
      · exact hk
      · exact hk.trans (hm.1 c hc)
    · split
      · rename_i _ hk
        exact List.pairwise_cons.2 ⟨fun c hc => hk ▸ hm.1 c hc, hm.2⟩
      · rename_i h1 h2
        refine List.pairwise_cons.2 ⟨fun c hc => ?_, ih hm.2⟩
        rcases Memory.mem_writeByte hc with rfl | hc
        · show k' < k
          omega
        · exact hm.1 c hc

/-! ## Words -/

/-- The four lanes of a word give the word (R107). -/
theorem wordOfLanes_laneOf (w : Word) : wordOfLanes (laneOf w 0) (laneOf w 1) (laneOf w 2) (laneOf w 3) = w := by
  apply BitVec.eq_of_getLsbD_eq
  intro i hi
  simp only [wordOfLanes, laneOf, BitVec.getLsbD_append, BitVec.getLsbD_extractLsb']
  split_ifs <;> simp <;> first | (intro; omega) | skip
  all_goals try (rw [decide_eq_true (by omega)]; simp; congr 1; omega)

theorem Memory.readWord_congr {m m' : Memory} {a : Nat}
    (h : ∀ k, 4 * a ≤ k → k < 4 * a + 4 → m.readByte k = m'.readByte k) : m.readWord a = m'.readWord a := by
  simp only [Memory.readWord, h (4 * a) (by omega) (by omega), h (4 * a + 1) (by omega) (by omega),
    h (4 * a + 2) (by omega) (by omega), h (4 * a + 3) (by omega) (by omega)]

theorem Memory.readByte_writeWord_other (m : Memory) (a : Nat) (w : Word) (k : Nat) (h : k < 4 * a ∨ 4 * a + 4 ≤ k) :
    (m.writeWord a w).readByte k = m.readByte k := by
  simp only [Memory.writeWord]
  rw [Memory.readByte_writeByte_other _ _ _ _ (by omega), Memory.readByte_writeByte_other _ _ _ _ (by omega),
    Memory.readByte_writeByte_other _ _ _ _ (by omega), Memory.readByte_writeByte_other _ _ _ _ (by omega)]

theorem Memory.readByte_writeWord_same (m : Memory) (a : Nat) (w : Word) (i : Nat) (h : i < 4) :
    (m.writeWord a w).readByte (4 * a + i) = some (laneOf w i) := by
  simp only [Memory.writeWord]
  obtain rfl | rfl | rfl | rfl : i = 0 ∨ i = 1 ∨ i = 2 ∨ i = 3 := by omega
  · rw [Memory.readByte_writeByte_other _ _ _ _ (by omega), Memory.readByte_writeByte_other _ _ _ _ (by omega),
      Memory.readByte_writeByte_other _ _ _ _ (by omega)]
    exact Memory.readByte_writeByte_same _ _ _
  · rw [Memory.readByte_writeByte_other _ _ _ _ (by omega), Memory.readByte_writeByte_other _ _ _ _ (by omega)]
    exact Memory.readByte_writeByte_same _ _ _
  · rw [Memory.readByte_writeByte_other _ _ _ _ (by omega)]
    exact Memory.readByte_writeByte_same _ _ _
  · exact Memory.readByte_writeByte_same _ _ _

/-- A word reads as it was written (R108). -/
@[simp] theorem Memory.readWord_writeWord_same (m : Memory) (a : Nat) (w : Word) :
    (m.writeWord a w).readWord a = some w := by
  have h0 := Memory.readByte_writeWord_same m a w 0 (by omega)
  have h1 := Memory.readByte_writeWord_same m a w 1 (by omega)
  have h2 := Memory.readByte_writeWord_same m a w 2 (by omega)
  have h3 := Memory.readByte_writeWord_same m a w 3 (by omega)
  simp only [Nat.add_zero] at h0
  simp only [Memory.readWord, h0, h1, h2, h3, wordOfLanes_laneOf]

/-- A write leaves every other word as it was. -/
theorem Memory.readWord_writeWord_other (m : Memory) (a a' : Nat) (w : Word) (h : a' ≠ a) :
    (m.writeWord a w).readWord a' = m.readWord a' :=
  Memory.readWord_congr fun k _ _ => Memory.readByte_writeWord_other m a w k (by omega)

/-- A byte outside the written words reads as before. -/
theorem Memory.readByte_writeWords_other (ws : List Word) (m : Memory) (a k : Nat)
    (h : k < 4 * a ∨ 4 * (a + ws.length) ≤ k) : (m.writeWords a ws).readByte k = m.readByte k := by
  induction ws generalizing m a with
  | nil => rfl
  | cons w ws ih =>
    simp only [List.length_cons] at h
    simp only [Memory.writeWords]
    rw [ih _ _ (by omega), Memory.readByte_writeWord_other _ _ _ _ (by omega)]

theorem Memory.readWord_writeWords_other (ws : List Word) (m : Memory) (a b : Nat)
    (h : b < a ∨ a + ws.length ≤ b) : (m.writeWords a ws).readWord b = m.readWord b :=
  Memory.readWord_congr fun k _ _ => Memory.readByte_writeWords_other ws m a k (by omega)

/-- A written vector reads back, element by element. -/
theorem Memory.readWord_writeWords (ws : List Word) (m : Memory) (a i : Nat) (h : i < ws.length) :
    (m.writeWords a ws).readWord (a + i) = some ws[i] := by
  induction ws generalizing m a i with
  | nil => simp at h
  | cons w ws ih =>
    simp only [Memory.writeWords]
    cases i with
    | zero =>
      rw [Nat.add_zero, Memory.readWord_writeWords_other _ _ _ _ (by omega)]
      simp
    | succ i =>
      have := ih (m.writeWord a w) (a + 1) i (by simpa using h)
      rw [show a + (i + 1) = a + 1 + i by omega, this]
      simp

/-! ## The canonical form, the bounds and the whole-word form are kept -/

theorem Memory.wf_writeWord {m : Memory} (h : m.wf) (a : Nat) (w : Word) : (m.writeWord a w).wf :=
  Memory.wf_writeByte (Memory.wf_writeByte (Memory.wf_writeByte (Memory.wf_writeByte h _ _) _ _) _ _) _ _

theorem Memory.wf_writeWords (ws : List Word) {m : Memory} (h : m.wf) (a : Nat) : (m.writeWords a ws).wf := by
  induction ws generalizing m a with
  | nil => exact h
  | cons w ws ih => exact ih (Memory.wf_writeWord h a w) _

theorem Memory.wf_unwrite {m : Memory} (h : m.wf) (a n : Nat) : (m.unwrite a n).wf := List.Pairwise.filter _ h

theorem Memory.mem_writeWord {m : Memory} {a : Nat} {w : Word} {c : Host.Cell} (h : c ∈ m.writeWord a w) :
    c.1 / 4 = a ∨ c ∈ m := by
  simp only [Memory.writeWord] at h
  rcases Memory.mem_writeByte h with rfl | h
  · left; show (4 * a + 3) / 4 = a; omega
  rcases Memory.mem_writeByte h with rfl | h
  · left; show (4 * a + 2) / 4 = a; omega
  rcases Memory.mem_writeByte h with rfl | h
  · left; show (4 * a + 1) / 4 = a; omega
  rcases Memory.mem_writeByte h with rfl | h
  · left; show 4 * a / 4 = a; omega
  exact .inr h

theorem Memory.within_writeWord {m : Memory} {n : Nat} (h : m.within n) {a : Nat} (ha : a < n) (w : Word) :
    (m.writeWord a w).within n := fun c hc => by
  rcases Memory.mem_writeWord hc with hc | hc
  · omega
  · exact h c hc

theorem Memory.within_writeWords (ws : List Word) {m : Memory} {n : Nat} (h : m.within n) {a : Nat}
    (ha : a + ws.length ≤ n) : (m.writeWords a ws).within n := by
  induction ws generalizing m a with
  | nil => exact h
  | cons w ws ih =>
    simp only [List.length_cons] at ha
    exact ih (Memory.within_writeWord h (by omega) w) (by omega)

theorem Memory.within_unwrite {m : Memory} {k : Nat} (h : m.within k) (a n : Nat) : (m.unwrite a n).within k :=
  fun c hc => h c (List.mem_filter.1 hc).1

theorem Memory.whole_writeWord {m : Memory} (h : m.whole) (a : Nat) (w : Word) : (m.writeWord a w).whole := fun c hc => by
  by_cases hca : c.1 / 4 = a
  · simp [hca]
  · rw [Memory.readWord_writeWord_other _ _ _ _ hca]
    exact h c ((Memory.mem_writeWord hc).resolve_left hca)

theorem Memory.whole_writeWords (ws : List Word) {m : Memory} (h : m.whole) (a : Nat) : (m.writeWords a ws).whole := by
  induction ws generalizing m a with
  | nil => exact h
  | cons w ws ih => exact ih (Memory.whole_writeWord h a w) _

/-! ## Unwriting -/

/-- A byte of an unwritten word has no value; every other byte reads as before (R452). -/
theorem Memory.readByte_unwrite (m : Memory) (a n k : Nat) :
    (m.unwrite a n).readByte k = if 4 * a ≤ k ∧ k < 4 * (a + n) then none else m.readByte k := by
  induction m with
  | nil => simp [Memory.unwrite]
  | cons c m ih =>
    rcases c with ⟨k', b⟩
    simp only [Memory.unwrite, List.filter_cons] at ih ⊢
    split
    · rename_i hk
      simp only [Bool.not_eq_true', Bool.and_eq_false_iff, decide_eq_false_iff_not] at hk
      simp only [Memory.readByte]
      by_cases hkk : k' = k
      · rw [if_pos hkk, if_neg (by omega), if_pos hkk]
      · rw [if_neg hkk, if_neg hkk, ih]
    · rename_i hk
      simp only [Bool.not_eq_true', Bool.and_eq_false_iff, decide_eq_false_iff_not] at hk
      rw [ih]
      split
      · rfl
      · rw [Memory.readByte, if_neg (by omega)]

theorem Memory.readWord_unwrite (m : Memory) (a n b : Nat) :
    (m.unwrite a n).readWord b = if a ≤ b ∧ b < a + n then none else m.readWord b := by
  by_cases h : a ≤ b ∧ b < a + n
  · rw [if_pos h]
    simp only [Memory.readWord, Memory.readByte_unwrite]
    rw [if_pos (by omega)]
  · rw [if_neg h]
    exact Memory.readWord_congr fun k _ _ => by rw [Memory.readByte_unwrite, if_neg (by omega)]

theorem Memory.whole_unwrite {m : Memory} (h : m.whole) (a n : Nat) : (m.unwrite a n).whole := fun c hc => by
  have hc' := List.mem_filter.1 hc
  simp only [Bool.not_eq_true', Bool.and_eq_false_iff, decide_eq_false_iff_not] at hc'
  rw [Memory.readWord_unwrite, if_neg (by omega)]
  exact h c hc'.1

end Sys2Proof.Machine
end

