-- ==== Sys2Proof/Laws/State.lean ====
section
/-!
SUPPORT. What each update of the state leaves in each field: one lemma per field per update, so that no later proof unfolds a
record update.
-/
namespace Sys2Proof.Machine

/-! ## completeErr -/

@[simp] theorem State.completeErr_cfg (s : State) (c : ErrCode) : (s.completeErr c).cfg = s.cfg := rfl
@[simp] theorem State.completeErr_mem (s : State) (c : ErrCode) : (s.completeErr c).mem = s.mem := rfl
@[simp] theorem State.completeErr_irqEn (s : State) (c : ErrCode) : (s.completeErr c).irqEn = s.irqEn := rfl
@[simp] theorem State.completeErr_status (s : State) (c : ErrCode) : (s.completeErr c).status = s.status.completeErr c := rfl
@[simp] theorem State.completeErr_cmd (s : State) (c : ErrCode) : (s.completeErr c).cmd = s.cmd := rfl
@[simp] theorem State.completeErr_args (s : State) (c : ErrCode) : (s.completeErr c).args = s.args := rfl
@[simp] theorem State.completeErr_res (s : State) (c : ErrCode) : (s.completeErr c).res = s.res := rfl
@[simp] theorem State.completeErr_sampleRate (s : State) (c : ErrCode) : (s.completeErr c).sampleRate = s.sampleRate := rfl
@[simp] theorem State.completeErr_fcch (s : State) (c : ErrCode) : (s.completeErr c).fcch = s.fcch := rfl
@[simp] theorem State.completeErr_td (s : State) (c : ErrCode) : (s.completeErr c).td = s.td := rfl
@[simp] theorem State.completeErr_pulse (s : State) (c : ErrCode) : (s.completeErr c).pulse = s.pulse := rfl
@[simp] theorem State.completeErr_fault (s : State) (c : ErrCode) : (s.completeErr c).fault = s.fault := rfl
@[simp] theorem State.completeErr_agenda (s : State) (c : ErrCode) : (s.completeErr c).agenda = s.agenda := rfl
@[simp] theorem State.completeErr_answer (s : State) (c : ErrCode) : (s.completeErr c).answer = s.answer := rfl

/-! ## completeOk -/

@[simp] theorem State.completeOk_cfg (s : State) (d : Bool) : (s.completeOk d).cfg = s.cfg := rfl
@[simp] theorem State.completeOk_mem (s : State) (d : Bool) : (s.completeOk d).mem = s.mem := rfl
@[simp] theorem State.completeOk_irqEn (s : State) (d : Bool) : (s.completeOk d).irqEn = s.irqEn := rfl
@[simp] theorem State.completeOk_status (s : State) (d : Bool) : (s.completeOk d).status = s.status.completeOk d := rfl
@[simp] theorem State.completeOk_cmd (s : State) (d : Bool) : (s.completeOk d).cmd = s.cmd := rfl
@[simp] theorem State.completeOk_args (s : State) (d : Bool) : (s.completeOk d).args = s.args := rfl
@[simp] theorem State.completeOk_res (s : State) (d : Bool) : (s.completeOk d).res = s.res := rfl
@[simp] theorem State.completeOk_sampleRate (s : State) (d : Bool) : (s.completeOk d).sampleRate = s.sampleRate := rfl
@[simp] theorem State.completeOk_fcch (s : State) (d : Bool) : (s.completeOk d).fcch = s.fcch := rfl
@[simp] theorem State.completeOk_td (s : State) (d : Bool) : (s.completeOk d).td = s.td := rfl
@[simp] theorem State.completeOk_pulse (s : State) (d : Bool) : (s.completeOk d).pulse = s.pulse := rfl
@[simp] theorem State.completeOk_fault (s : State) (d : Bool) : (s.completeOk d).fault = s.fault := rfl
@[simp] theorem State.completeOk_agenda (s : State) (d : Bool) : (s.completeOk d).agenda = s.agenda := rfl
@[simp] theorem State.completeOk_answer (s : State) (d : Bool) : (s.completeOk d).answer = s.answer := rfl

/-! ## setRes -/

@[simp] theorem State.setRes_cfg (s : State) (i : Fin 8) (w : Word) : (s.setRes i w).cfg = s.cfg := rfl
@[simp] theorem State.setRes_mem (s : State) (i : Fin 8) (w : Word) : (s.setRes i w).mem = s.mem := rfl
@[simp] theorem State.setRes_irqEn (s : State) (i : Fin 8) (w : Word) : (s.setRes i w).irqEn = s.irqEn := rfl
@[simp] theorem State.setRes_status (s : State) (i : Fin 8) (w : Word) : (s.setRes i w).status = s.status := rfl
@[simp] theorem State.setRes_cmd (s : State) (i : Fin 8) (w : Word) : (s.setRes i w).cmd = s.cmd := rfl
@[simp] theorem State.setRes_args (s : State) (i : Fin 8) (w : Word) : (s.setRes i w).args = s.args := rfl
@[simp] theorem State.setRes_res (s : State) (i : Fin 8) (w : Word) : (s.setRes i w).res = s.res.set i w := rfl
@[simp] theorem State.setRes_sampleRate (s : State) (i : Fin 8) (w : Word) : (s.setRes i w).sampleRate = s.sampleRate := rfl
@[simp] theorem State.setRes_fcch (s : State) (i : Fin 8) (w : Word) : (s.setRes i w).fcch = s.fcch := rfl
@[simp] theorem State.setRes_td (s : State) (i : Fin 8) (w : Word) : (s.setRes i w).td = s.td := rfl
@[simp] theorem State.setRes_pulse (s : State) (i : Fin 8) (w : Word) : (s.setRes i w).pulse = s.pulse := rfl
@[simp] theorem State.setRes_fault (s : State) (i : Fin 8) (w : Word) : (s.setRes i w).fault = s.fault := rfl
@[simp] theorem State.setRes_agenda (s : State) (i : Fin 8) (w : Word) : (s.setRes i w).agenda = s.agenda := rfl
@[simp] theorem State.setRes_answer (s : State) (i : Fin 8) (w : Word) : (s.setRes i w).answer = s.answer := rfl

/-! ## accept -/

@[simp] theorem State.accept_cfg (s : State) (w : Word) : (s.accept w).cfg = s.cfg := rfl
@[simp] theorem State.accept_mem (s : State) (w : Word) : (s.accept w).mem = s.mem := rfl
@[simp] theorem State.accept_irqEn (s : State) (w : Word) : (s.accept w).irqEn = s.irqEn := rfl
@[simp] theorem State.accept_status (s : State) (w : Word) : (s.accept w).status = s.status.accept w := rfl
@[simp] theorem State.accept_cmd (s : State) (w : Word) : (s.accept w).cmd = w := rfl
@[simp] theorem State.accept_args (s : State) (w : Word) : (s.accept w).args = s.args := rfl
@[simp] theorem State.accept_res (s : State) (w : Word) : (s.accept w).res = s.res := rfl
@[simp] theorem State.accept_sampleRate (s : State) (w : Word) : (s.accept w).sampleRate = s.sampleRate := rfl
@[simp] theorem State.accept_fcch (s : State) (w : Word) : (s.accept w).fcch = s.fcch := rfl
@[simp] theorem State.accept_td (s : State) (w : Word) : (s.accept w).td = s.td := rfl
@[simp] theorem State.accept_pulse (s : State) (w : Word) : (s.accept w).pulse = s.pulse := rfl
@[simp] theorem State.accept_fault (s : State) (w : Word) : (s.accept w).fault = s.fault := rfl
@[simp] theorem State.accept_agenda (s : State) (w : Word) : (s.accept w).agenda = s.agenda := rfl
@[simp] theorem State.accept_answer (s : State) (w : Word) : (s.accept w).answer = s.answer := rfl

/-! ## refuse -/

@[simp] theorem State.refuse_cfg (s : State) : (s.refuse).cfg = s.cfg := rfl
@[simp] theorem State.refuse_mem (s : State) : (s.refuse).mem = s.mem := rfl
@[simp] theorem State.refuse_irqEn (s : State) : (s.refuse).irqEn = s.irqEn := rfl
@[simp] theorem State.refuse_status (s : State) : (s.refuse).status = { s.status with accViol := true } := rfl
@[simp] theorem State.refuse_cmd (s : State) : (s.refuse).cmd = s.cmd := rfl
@[simp] theorem State.refuse_args (s : State) : (s.refuse).args = s.args := rfl
@[simp] theorem State.refuse_res (s : State) : (s.refuse).res = s.res := rfl
@[simp] theorem State.refuse_sampleRate (s : State) : (s.refuse).sampleRate = s.sampleRate := rfl
@[simp] theorem State.refuse_fcch (s : State) : (s.refuse).fcch = s.fcch := rfl
@[simp] theorem State.refuse_td (s : State) : (s.refuse).td = s.td := rfl
@[simp] theorem State.refuse_pulse (s : State) : (s.refuse).pulse = s.pulse := rfl
@[simp] theorem State.refuse_fault (s : State) : (s.refuse).fault = s.fault := rfl
@[simp] theorem State.refuse_agenda (s : State) : (s.refuse).agenda = s.agenda := rfl
@[simp] theorem State.refuse_answer (s : State) : (s.refuse).answer = s.answer := rfl

/-! ## answered -/

@[simp] theorem State.answered_cfg (s : State) (a : BusAnswer) : (s.answered a).cfg = s.cfg := rfl
@[simp] theorem State.answered_mem (s : State) (a : BusAnswer) : (s.answered a).mem = s.mem := rfl
@[simp] theorem State.answered_irqEn (s : State) (a : BusAnswer) : (s.answered a).irqEn = s.irqEn := rfl
@[simp] theorem State.answered_status (s : State) (a : BusAnswer) : (s.answered a).status = s.status := rfl
@[simp] theorem State.answered_cmd (s : State) (a : BusAnswer) : (s.answered a).cmd = s.cmd := rfl
@[simp] theorem State.answered_args (s : State) (a : BusAnswer) : (s.answered a).args = s.args := rfl
@[simp] theorem State.answered_res (s : State) (a : BusAnswer) : (s.answered a).res = s.res := rfl
@[simp] theorem State.answered_sampleRate (s : State) (a : BusAnswer) : (s.answered a).sampleRate = s.sampleRate := rfl
@[simp] theorem State.answered_fcch (s : State) (a : BusAnswer) : (s.answered a).fcch = s.fcch := rfl
@[simp] theorem State.answered_td (s : State) (a : BusAnswer) : (s.answered a).td = s.td := rfl
@[simp] theorem State.answered_pulse (s : State) (a : BusAnswer) : (s.answered a).pulse = s.pulse := rfl
@[simp] theorem State.answered_fault (s : State) (a : BusAnswer) : (s.answered a).fault = s.fault := rfl
@[simp] theorem State.answered_agenda (s : State) (a : BusAnswer) : (s.answered a).agenda = s.agenda := rfl
@[simp] theorem State.answered_answer (s : State) (a : BusAnswer) : (s.answered a).answer = some a := rfl

/-! ## softReset -/

@[simp] theorem State.softReset_cfg (s : State) : (s.softReset).cfg = s.cfg := rfl
@[simp] theorem State.softReset_mem (s : State) : (s.softReset).mem = s.abortedMem := rfl
@[simp] theorem State.softReset_irqEn (s : State) : (s.softReset).irqEn = false := rfl
@[simp] theorem State.softReset_status (s : State) : (s.softReset).status = Status.reset := rfl
@[simp] theorem State.softReset_cmd (s : State) : (s.softReset).cmd = 0#32 := rfl
@[simp] theorem State.softReset_args (s : State) : (s.softReset).args = Vector.replicate 16 0#32 := rfl
@[simp] theorem State.softReset_res (s : State) : (s.softReset).res = Vector.replicate 8 0#32 := rfl
@[simp] theorem State.softReset_sampleRate (s : State) : (s.softReset).sampleRate = 0x48843E2B#32 := rfl
@[simp] theorem State.softReset_fcch (s : State) : (s.softReset).fcch = Fcch.reset s.cfg := rfl
@[simp] theorem State.softReset_td (s : State) : (s.softReset).td = TransDet.reset := rfl
@[simp] theorem State.softReset_pulse (s : State) : (s.softReset).pulse = Pulse.reset := rfl
@[simp] theorem State.softReset_fault (s : State) : (s.softReset).fault = none := rfl
@[simp] theorem State.softReset_agenda (s : State) : (s.softReset).agenda = s.agenda := rfl
@[simp] theorem State.softReset_answer (s : State) : (s.softReset).answer = none := rfl

/-! ## hardReset -/

@[simp] theorem State.hardReset_cfg (s : State) : (s.hardReset).cfg = s.cfg := rfl
@[simp] theorem State.hardReset_mem (s : State) : (s.hardReset).mem = [] := rfl
@[simp] theorem State.hardReset_irqEn (s : State) : (s.hardReset).irqEn = false := rfl
@[simp] theorem State.hardReset_status (s : State) : (s.hardReset).status = Status.reset := rfl
@[simp] theorem State.hardReset_cmd (s : State) : (s.hardReset).cmd = 0#32 := rfl
@[simp] theorem State.hardReset_args (s : State) : (s.hardReset).args = Vector.replicate 16 0#32 := rfl
@[simp] theorem State.hardReset_res (s : State) : (s.hardReset).res = Vector.replicate 8 0#32 := rfl
@[simp] theorem State.hardReset_sampleRate (s : State) : (s.hardReset).sampleRate = 0x48843E2B#32 := rfl
@[simp] theorem State.hardReset_fcch (s : State) : (s.hardReset).fcch = Fcch.reset s.cfg := rfl
@[simp] theorem State.hardReset_td (s : State) : (s.hardReset).td = TransDet.reset := rfl
@[simp] theorem State.hardReset_pulse (s : State) : (s.hardReset).pulse = Pulse.reset := rfl
@[simp] theorem State.hardReset_fault (s : State) : (s.hardReset).fault = none := rfl
@[simp] theorem State.hardReset_agenda (s : State) : (s.hardReset).agenda = s.agenda := rfl
@[simp] theorem State.hardReset_answer (s : State) : (s.hardReset).answer = none := rfl

/-! ## withFetchWord -/

@[simp] theorem State.withFetchWord_cfg (s : State) (nbits w : Nat) : (s.withFetchWord nbits w).cfg = s.cfg := rfl
@[simp] theorem State.withFetchWord_mem (s : State) (nbits w : Nat) : (s.withFetchWord nbits w).mem = s.mem := rfl
@[simp] theorem State.withFetchWord_irqEn (s : State) (nbits w : Nat) : (s.withFetchWord nbits w).irqEn = s.irqEn := rfl
@[simp] theorem State.withFetchWord_status (s : State) (nbits w : Nat) : (s.withFetchWord nbits w).status = s.status.accept (BitVec.ofNat 32 (w % 2 ^ nbits)) := rfl
@[simp] theorem State.withFetchWord_cmd (s : State) (nbits w : Nat) : (s.withFetchWord nbits w).cmd = BitVec.ofNat 32 (w % 2 ^ nbits) := rfl
@[simp] theorem State.withFetchWord_args (s : State) (nbits w : Nat) : (s.withFetchWord nbits w).args = s.args := rfl
@[simp] theorem State.withFetchWord_res (s : State) (nbits w : Nat) : (s.withFetchWord nbits w).res = s.res := rfl
@[simp] theorem State.withFetchWord_sampleRate (s : State) (nbits w : Nat) : (s.withFetchWord nbits w).sampleRate = s.sampleRate := rfl
@[simp] theorem State.withFetchWord_fcch (s : State) (nbits w : Nat) : (s.withFetchWord nbits w).fcch = s.fcch := rfl
@[simp] theorem State.withFetchWord_td (s : State) (nbits w : Nat) : (s.withFetchWord nbits w).td = s.td := rfl
@[simp] theorem State.withFetchWord_pulse (s : State) (nbits w : Nat) : (s.withFetchWord nbits w).pulse = s.pulse := rfl
@[simp] theorem State.withFetchWord_fault (s : State) (nbits w : Nat) : (s.withFetchWord nbits w).fault = none := rfl
@[simp] theorem State.withFetchWord_agenda (s : State) (nbits w : Nat) : (s.withFetchWord nbits w).agenda = .engine :: s.agenda := rfl
@[simp] theorem State.withFetchWord_answer (s : State) (nbits w : Nat) : (s.withFetchWord nbits w).answer = s.answer := rfl

/-! ## storeAll -/

@[simp] theorem State.storeAll_cfg (s : State) (vs : List (Nat × List Word)) : (s.storeAll vs).cfg = s.cfg := by
  induction vs generalizing s with
  | nil => rfl
  | cons v rest ih => exact (ih _).trans rfl

@[simp] theorem State.storeAll_irqEn (s : State) (vs : List (Nat × List Word)) : (s.storeAll vs).irqEn = s.irqEn := by
  induction vs generalizing s with
  | nil => rfl
  | cons v rest ih => exact (ih _).trans rfl

@[simp] theorem State.storeAll_status (s : State) (vs : List (Nat × List Word)) : (s.storeAll vs).status = s.status := by
  induction vs generalizing s with
  | nil => rfl
  | cons v rest ih => exact (ih _).trans rfl

@[simp] theorem State.storeAll_cmd (s : State) (vs : List (Nat × List Word)) : (s.storeAll vs).cmd = s.cmd := by
  induction vs generalizing s with
  | nil => rfl
  | cons v rest ih => exact (ih _).trans rfl

@[simp] theorem State.storeAll_args (s : State) (vs : List (Nat × List Word)) : (s.storeAll vs).args = s.args := by
  induction vs generalizing s with
  | nil => rfl
  | cons v rest ih => exact (ih _).trans rfl

@[simp] theorem State.storeAll_res (s : State) (vs : List (Nat × List Word)) : (s.storeAll vs).res = s.res := by
  induction vs generalizing s with
  | nil => rfl
  | cons v rest ih => exact (ih _).trans rfl

@[simp] theorem State.storeAll_sampleRate (s : State) (vs : List (Nat × List Word)) : (s.storeAll vs).sampleRate = s.sampleRate := by
  induction vs generalizing s with
  | nil => rfl
  | cons v rest ih => exact (ih _).trans rfl

@[simp] theorem State.storeAll_fcch (s : State) (vs : List (Nat × List Word)) : (s.storeAll vs).fcch = s.fcch := by
  induction vs generalizing s with
  | nil => rfl
  | cons v rest ih => exact (ih _).trans rfl

@[simp] theorem State.storeAll_td (s : State) (vs : List (Nat × List Word)) : (s.storeAll vs).td = s.td := by
  induction vs generalizing s with
  | nil => rfl
  | cons v rest ih => exact (ih _).trans rfl

@[simp] theorem State.storeAll_pulse (s : State) (vs : List (Nat × List Word)) : (s.storeAll vs).pulse = s.pulse := by
  induction vs generalizing s with
  | nil => rfl
  | cons v rest ih => exact (ih _).trans rfl

@[simp] theorem State.storeAll_fault (s : State) (vs : List (Nat × List Word)) : (s.storeAll vs).fault = s.fault := by
  induction vs generalizing s with
  | nil => rfl
  | cons v rest ih => exact (ih _).trans rfl

@[simp] theorem State.storeAll_agenda (s : State) (vs : List (Nat × List Word)) : (s.storeAll vs).agenda = s.agenda := by
  induction vs generalizing s with
  | nil => rfl
  | cons v rest ih => exact (ih _).trans rfl

@[simp] theorem State.storeAll_answer (s : State) (vs : List (Nat × List Word)) : (s.storeAll vs).answer = s.answer := by
  induction vs generalizing s with
  | nil => rfl
  | cons v rest ih => exact (ih _).trans rfl

/-! ## setResults -/

@[simp] theorem State.setResults_cfg (s : State) (rs : List (Fin 8 × Word)) : (s.setResults rs).cfg = s.cfg := by
  induction rs generalizing s with
  | nil => rfl
  | cons v rest ih => exact (ih _).trans rfl

@[simp] theorem State.setResults_mem (s : State) (rs : List (Fin 8 × Word)) : (s.setResults rs).mem = s.mem := by
  induction rs generalizing s with
  | nil => rfl
  | cons v rest ih => exact (ih _).trans rfl

@[simp] theorem State.setResults_irqEn (s : State) (rs : List (Fin 8 × Word)) : (s.setResults rs).irqEn = s.irqEn := by
  induction rs generalizing s with
  | nil => rfl
  | cons v rest ih => exact (ih _).trans rfl

@[simp] theorem State.setResults_status (s : State) (rs : List (Fin 8 × Word)) : (s.setResults rs).status = s.status := by
  induction rs generalizing s with
  | nil => rfl
  | cons v rest ih => exact (ih _).trans rfl

@[simp] theorem State.setResults_cmd (s : State) (rs : List (Fin 8 × Word)) : (s.setResults rs).cmd = s.cmd := by
  induction rs generalizing s with
  | nil => rfl
  | cons v rest ih => exact (ih _).trans rfl

@[simp] theorem State.setResults_args (s : State) (rs : List (Fin 8 × Word)) : (s.setResults rs).args = s.args := by
  induction rs generalizing s with
  | nil => rfl
  | cons v rest ih => exact (ih _).trans rfl

@[simp] theorem State.setResults_sampleRate (s : State) (rs : List (Fin 8 × Word)) : (s.setResults rs).sampleRate = s.sampleRate := by
  induction rs generalizing s with
  | nil => rfl
  | cons v rest ih => exact (ih _).trans rfl

@[simp] theorem State.setResults_fcch (s : State) (rs : List (Fin 8 × Word)) : (s.setResults rs).fcch = s.fcch := by
  induction rs generalizing s with
  | nil => rfl
  | cons v rest ih => exact (ih _).trans rfl

@[simp] theorem State.setResults_td (s : State) (rs : List (Fin 8 × Word)) : (s.setResults rs).td = s.td := by
  induction rs generalizing s with
  | nil => rfl
  | cons v rest ih => exact (ih _).trans rfl

@[simp] theorem State.setResults_pulse (s : State) (rs : List (Fin 8 × Word)) : (s.setResults rs).pulse = s.pulse := by
  induction rs generalizing s with
  | nil => rfl
  | cons v rest ih => exact (ih _).trans rfl

@[simp] theorem State.setResults_fault (s : State) (rs : List (Fin 8 × Word)) : (s.setResults rs).fault = s.fault := by
  induction rs generalizing s with
  | nil => rfl
  | cons v rest ih => exact (ih _).trans rfl

@[simp] theorem State.setResults_agenda (s : State) (rs : List (Fin 8 × Word)) : (s.setResults rs).agenda = s.agenda := by
  induction rs generalizing s with
  | nil => rfl
  | cons v rest ih => exact (ih _).trans rfl

@[simp] theorem State.setResults_answer (s : State) (rs : List (Fin 8 × Word)) : (s.setResults rs).answer = s.answer := by
  induction rs generalizing s with
  | nil => rfl
  | cons v rest ih => exact (ih _).trans rfl

/-- DMEM after all the destination vectors are written, one after another. -/
theorem State.storeAll_mem (s : State) (vs : List (Nat × List Word)) :
    (s.storeAll vs).mem = vs.foldl (fun m v => m.writeWords v.1 v.2) s.mem := by
  induction vs generalizing s with
  | nil => rfl
  | cons v rest ih => exact ih _

/-- The result registers after all results are written, one after another. -/
theorem State.setResults_res (s : State) (rs : List (Fin 8 × Word)) :
    (s.setResults rs).res = rs.foldl (fun r v => r.set v.1 v.2) s.res := by
  induction rs generalizing s with
  | nil => rfl
  | cons v rest ih => exact ih _

/-! ## apply -/

@[simp] theorem State.apply_mem (s : State) (e : Effect) :
    (s.apply e).mem = e.stores.foldl (fun m v => m.writeWords v.1 v.2) s.mem := by
  simp [State.apply, State.storeAll_mem]

@[simp] theorem State.apply_res (s : State) (e : Effect) :
    (s.apply e).res = e.results.foldl (fun r v => r.set v.1 v.2) s.res := by
  simp [State.apply, State.setResults_res]

@[simp] theorem State.apply_status (s : State) (e : Effect) : (s.apply e).status = s.status.completeOk e.detect := rfl
@[simp] theorem State.apply_fcch (s : State) (e : Effect) : (s.apply e).fcch = e.fcch.getD s.fcch := rfl
@[simp] theorem State.apply_td (s : State) (e : Effect) : (s.apply e).td = e.td.getD s.td := rfl
@[simp] theorem State.apply_pulse (s : State) (e : Effect) : (s.apply e).pulse = e.pulse.getD s.pulse := rfl
@[simp] theorem State.apply_cfg (s : State) (e : Effect) : (s.apply e).cfg = s.cfg := by simp [State.apply]
@[simp] theorem State.apply_irqEn (s : State) (e : Effect) : (s.apply e).irqEn = s.irqEn := by simp [State.apply]
@[simp] theorem State.apply_cmd (s : State) (e : Effect) : (s.apply e).cmd = s.cmd := by simp [State.apply]
@[simp] theorem State.apply_args (s : State) (e : Effect) : (s.apply e).args = s.args := by simp [State.apply]
@[simp] theorem State.apply_sampleRate (s : State) (e : Effect) : (s.apply e).sampleRate = s.sampleRate := by simp [State.apply]
@[simp] theorem State.apply_fault (s : State) (e : Effect) : (s.apply e).fault = s.fault := by simp [State.apply]
@[simp] theorem State.apply_agenda (s : State) (e : Effect) : (s.apply e).agenda = s.agenda := by simp [State.apply]
@[simp] theorem State.apply_answer (s : State) (e : Effect) : (s.apply e).answer = s.answer := by simp [State.apply]

/-! ## STATUS -/

@[simp] theorem Status.completeErr_busy (t : Status) (c : ErrCode) : (t.completeErr c).busy = false := rfl
@[simp] theorem Status.completeErr_done (t : Status) (c : ErrCode) : (t.completeErr c).done = true := rfl
@[simp] theorem Status.completeErr_err (t : Status) (c : ErrCode) : (t.completeErr c).err = true := rfl
@[simp] theorem Status.completeErr_detect (t : Status) (c : ErrCode) : (t.completeErr c).detect = false := rfl
@[simp] theorem Status.completeErr_accViol (t : Status) (c : ErrCode) : (t.completeErr c).accViol = t.accViol := rfl
@[simp] theorem Status.completeErr_cmdLost (t : Status) (c : ErrCode) : (t.completeErr c).cmdLost = t.cmdLost := rfl
@[simp] theorem Status.completeErr_errcode (t : Status) (c : ErrCode) : (t.completeErr c).errcode = c := rfl
@[simp] theorem Status.completeErr_lastOpc (t : Status) (c : ErrCode) : (t.completeErr c).lastOpc = t.lastOpc := rfl

@[simp] theorem Status.completeOk_busy (t : Status) (d : Bool) : (t.completeOk d).busy = false := rfl
@[simp] theorem Status.completeOk_done (t : Status) (d : Bool) : (t.completeOk d).done = true := rfl
@[simp] theorem Status.completeOk_err (t : Status) (d : Bool) : (t.completeOk d).err = false := rfl
@[simp] theorem Status.completeOk_detect (t : Status) (d : Bool) : (t.completeOk d).detect = d := rfl
@[simp] theorem Status.completeOk_accViol (t : Status) (d : Bool) : (t.completeOk d).accViol = t.accViol := rfl
@[simp] theorem Status.completeOk_cmdLost (t : Status) (d : Bool) : (t.completeOk d).cmdLost = t.cmdLost := rfl
@[simp] theorem Status.completeOk_errcode (t : Status) (d : Bool) : (t.completeOk d).errcode = .none := rfl
@[simp] theorem Status.completeOk_lastOpc (t : Status) (d : Bool) : (t.completeOk d).lastOpc = t.lastOpc := rfl

@[simp] theorem Status.accept_busy (t : Status) (w : Word) : (t.accept w).busy = true := rfl
@[simp] theorem Status.accept_done (t : Status) (w : Word) : (t.accept w).done = false := rfl
@[simp] theorem Status.accept_err (t : Status) (w : Word) : (t.accept w).err = false := rfl
@[simp] theorem Status.accept_detect (t : Status) (w : Word) : (t.accept w).detect = false := rfl
@[simp] theorem Status.accept_accViol (t : Status) (w : Word) : (t.accept w).accViol = t.accViol := rfl
@[simp] theorem Status.accept_cmdLost (t : Status) (w : Word) : (t.accept w).cmdLost = t.cmdLost := rfl
@[simp] theorem Status.accept_errcode (t : Status) (w : Word) : (t.accept w).errcode = .none := rfl
@[simp] theorem Status.accept_lastOpc (t : Status) (w : Word) : (t.accept w).lastOpc = w.extractLsb' 0 8 := rfl

@[simp] theorem Status.writeOneToClear_busy (t : Status) (w : Word) : (t.writeOneToClear w).busy = t.busy := rfl
@[simp] theorem Status.writeOneToClear_done (t : Status) (w : Word) : (t.writeOneToClear w).done = (t.done && !w.getLsbD 1) := rfl
@[simp] theorem Status.writeOneToClear_err (t : Status) (w : Word) : (t.writeOneToClear w).err = (t.err && !w.getLsbD 2) := rfl
@[simp] theorem Status.writeOneToClear_detect (t : Status) (w : Word) : (t.writeOneToClear w).detect = t.detect := rfl
@[simp] theorem Status.writeOneToClear_accViol (t : Status) (w : Word) : (t.writeOneToClear w).accViol = (t.accViol && !w.getLsbD 4) := rfl
@[simp] theorem Status.writeOneToClear_cmdLost (t : Status) (w : Word) : (t.writeOneToClear w).cmdLost = (t.cmdLost && !w.getLsbD 5) := rfl
@[simp] theorem Status.writeOneToClear_errcode (t : Status) (w : Word) : (t.writeOneToClear w).errcode = t.errcode := rfl
@[simp] theorem Status.writeOneToClear_lastOpc (t : Status) (w : Word) : (t.writeOneToClear w).lastOpc = t.lastOpc := rfl

end Sys2Proof.Machine
end

