-- ==== Sys2Proof/Laws/Ops.lean ====
section
/-!
SUPPORT. One law for each shared operation of Machine/Ops.lean and Machine/Operands.lean that says all it can do: reading in
a command, the checks, `perform`, and the stores of a completed command.
-/
namespace Sys2Proof.Machine

/-! ## Binds of `Rd` -/

@[simp] theorem Rd.ok_bind {α β : Type} (x : α) (f : α → Rd β) : ((Except.ok x : Rd α) >>= f) = f x := rfl
@[simp] theorem Rd.error_bind {α β : Type} (e : Nat) (f : α → Rd β) : ((Except.error e : Rd α) >>= f) = .error e := rfl

theorem Rd.bind_ok {α β : Type} {r : Rd α} {f : α → Rd β} {y : β} (h : r >>= f = .ok y) : ∃ x, r = .ok x ∧ f x = .ok y := by
  cases r with
  | error e => simp at h
  | ok x => exact ⟨x, rfl, h⟩

theorem Rd.bind_error {α β : Type} {r : Rd α} {f : α → Rd β} {e : Nat} (h : r >>= f = .error e) :
    r = .error e ∨ ∃ x, r = .ok x ∧ f x = .error e := by
  cases r with
  | error e' => exact .inl (by simpa using h)
  | ok x => exact .inr ⟨x, rfl, h⟩

/-! ## Loops that succeed -/

/-- A table whose entries all succeed. -/
theorem tabRd_ok {α : Type} {f : Nat → Rd α} {g : Nat → α} {lo n : Nat} (h : ∀ k, lo ≤ k → k < lo + n → f k = .ok (g k)) :
    tabRd f lo n = .ok ((List.range' lo n).map g) := by
  induction n generalizing lo with
  | zero => rfl
  | succ n ih =>
    rw [tabRd, h lo (Nat.le_refl _) (by omega), ih fun k h1 h2 => h k (by omega) (by omega)]
    simp [List.range'_succ]

/-- A fold whose turns all succeed. -/
theorem foldRd_ok {σ : Type} {f : Nat → σ → Rd σ} {g : σ → Nat → σ} {lo n : Nat} {a : σ}
    (h : ∀ k acc, lo ≤ k → k < lo + n → f k acc = .ok (g acc k)) :
    foldRd f lo n a = .ok ((List.range' lo n).foldl g a) := by
  induction n generalizing lo a with
  | zero => rfl
  | succ n ih =>
    rw [foldRd, h lo a (Nat.le_refl _) (by omega)]
    simp only
    rw [ih fun k acc h1 h2 => h k acc (by omega) (by omega)]
    simp [List.range'_succ]

/-- A fold over a list whose turns all succeed. -/
theorem foldRdList_ok {α σ : Type} {f : α → σ → Rd σ} {g : σ → α → σ} {xs : List α} {a : σ}
    (h : ∀ x ∈ xs, ∀ acc, f x acc = .ok (g acc x)) : foldRdList f xs a = .ok (xs.foldl g a) := by
  induction xs generalizing a with
  | nil => rfl
  | cons x xs ih =>
    rw [foldRdList, h x List.mem_cons_self]
    simp only
    rw [ih fun y hy => h y (List.mem_cons_of_mem _ hy)]
    rfl

/-! ## Loops that stop -/

/-- A table that succeeds has all its entries. -/
theorem tabRd_inv {α : Type} {f : Nat → Rd α} {lo n : Nat} {xs : List α} (h : tabRd f lo n = .ok xs) :
    xs.length = n ∧ ∀ k (hk : k < xs.length), f (lo + k) = .ok xs[k] := by
  induction n generalizing lo xs with
  | zero => obtain rfl : xs = [] := by simpa [tabRd] using h.symm
            simp
  | succ n ih =>
    rw [tabRd] at h
    split at h
    · cases h
    · rename_i x hx
      split at h
      · cases h
      · rename_i ys hys
        obtain rfl : xs = x :: ys := by simpa using h.symm
        obtain ⟨h1, h2⟩ := ih hys
        refine ⟨by simp [h1], fun k hk => ?_⟩
        cases k with
        | zero => exact hx
        | succ k =>
          have := h2 k (by simpa using hk)
          rw [show lo + (k + 1) = lo + 1 + k by omega]
          simpa using this

theorem tabRd_length {α : Type} {f : Nat → Rd α} {lo n : Nat} {xs : List α} (h : tabRd f lo n = .ok xs) : xs.length = n :=
  (tabRd_inv h).1

/-- A table stops where one of its entries stops. -/
theorem tabRd_error {α : Type} {f : Nat → Rd α} {lo n e : Nat} (h : tabRd f lo n = .error e) :
    ∃ k, lo ≤ k ∧ k < lo + n ∧ f k = .error e := by
  induction n generalizing lo with
  | zero => simp [tabRd] at h
  | succ n ih =>
    rw [tabRd] at h
    split at h
    · rename_i e' he
      exact ⟨lo, by omega, by omega, by rw [he]; simpa using h⟩
    · split at h
      · rename_i e' he
        obtain ⟨k, h1, h2, h3⟩ := ih (he.trans (by simpa using h))
        exact ⟨k, by omega, by omega, h3⟩
      · cases h

/-- A fold stops where one of its turns stops. -/
theorem foldRd_error {σ : Type} {f : Nat → σ → Rd σ} {lo n e : Nat} {a : σ} (h : foldRd f lo n a = .error e) :
    ∃ k acc, lo ≤ k ∧ k < lo + n ∧ f k acc = .error e := by
  induction n generalizing lo a with
  | zero => simp [foldRd] at h
  | succ n ih =>
    rw [foldRd] at h
    split at h
    · rename_i e' he
      exact ⟨lo, a, by omega, by omega, by rw [he]; simpa using h⟩
    · obtain ⟨k, acc, h1, h2, h3⟩ := ih h
      exact ⟨k, acc, by omega, by omega, h3⟩

theorem foldRdList_error {α σ : Type} {f : α → σ → Rd σ} {xs : List α} {e : Nat} {a : σ}
    (h : foldRdList f xs a = .error e) : ∃ x ∈ xs, ∃ acc, f x acc = .error e := by
  induction xs generalizing a with
  | nil => simp [foldRdList] at h
  | cons x xs ih =>
    rw [foldRdList] at h
    split at h
    · rename_i e' he
      exact ⟨x, List.mem_cons_self, a, by rw [he]; simpa using h⟩
    · obtain ⟨y, hy, acc, h3⟩ := ih h
      exact ⟨y, List.mem_cons_of_mem _ hy, acc, h3⟩

/-! ## Elements of vectors (R101, R105, R430) -/

@[simp] theorem rdWord_eq_ok {m : Memory} {a : Nat} {w : Word} : rdWord m a = .ok w ↔ m.readWord a = some w := by
  unfold rdWord; split <;> simp_all

@[simp] theorem rdWord_eq_error {m : Memory} {a e : Nat} : rdWord m a = .error e ↔ e = a ∧ m.readWord a = none := by
  unfold rdWord
  split
  · rename_i h; simp [h]
  · rename_i h; simp [h, eq_comm]

theorem cread_ok {m : Memory} {a k : Nat} {z : Cplx} (hre : m.readWord (a + 2 * k) = some z.re)
    (him : m.readWord (a + 2 * k + 1) = some z.im) : cread m a k = .ok z := by
  simp [cread, rdWord, hre, him]

theorem cread_inv {m : Memory} {a k : Nat} {z : Cplx} (h : cread m a k = .ok z) :
    m.readWord (a + 2 * k) = some z.re ∧ m.readWord (a + 2 * k + 1) = some z.im := by
  simp only [cread] at h
  split at h
  · cases h
  · rename_i re hre
    split at h
    · cases h
    · rename_i im him
      obtain rfl : z = ⟨re, im⟩ := by simpa using h.symm
      exact ⟨rdWord_eq_ok.1 hre, rdWord_eq_ok.1 him⟩

/-- Reading a complex element stops exactly at an unwritten one of its two words. -/
theorem cread_error {m : Memory} {a k e : Nat} (h : cread m a k = .error e) :
    m.readWord e = none ∧ a + 2 * k ≤ e ∧ e ≤ a + 2 * k + 1 := by
  simp only [cread] at h
  split at h
  · rename_i e' he
    obtain ⟨rfl, h2⟩ := rdWord_eq_error.1 he
    obtain rfl : e = a + 2 * k := by simpa using h.symm
    exact ⟨h2, by omega, by omega⟩
  · split at h
    · rename_i e' he
      obtain ⟨rfl, h2⟩ := rdWord_eq_error.1 he
      obtain rfl : e = a + 2 * k + 1 := by simpa using h.symm
      exact ⟨h2, by omega, by omega⟩
    · cases h

theorem rread_ok {m : Memory} {a k : Nat} {w : F32} (h : m.readWord (a + k) = some w) : rread m a k = .ok w := by
  simp [rread, rdWord, h]

theorem rread_error {m : Memory} {a k e : Nat} (h : rread m a k = .error e) : m.readWord e = none ∧ e = a + k := by
  obtain ⟨rfl, h2⟩ := rdWord_eq_error.1 h
  exact ⟨h2, rfl⟩

theorem bread_ok {m : Memory} {a k : Nat} {b : Bool} (h : (m.readWord (a + k)).map (fun w => w.getLsbD 0) = some b) :
    bread m a k = .ok b := by
  obtain ⟨w, hw, rfl⟩ := Option.map_eq_some_iff.1 h
  simp [bread, rdWord, hw]

theorem bread_error {m : Memory} {a k e : Nat} (h : bread m a k = .error e) : m.readWord e = none ∧ e = a + k := by
  simp only [bread] at h
  split at h
  · rename_i e' he
    obtain ⟨rfl, h2⟩ := rdWord_eq_error.1 he
    obtain rfl : e = a + k := by simpa using h.symm
    exact ⟨h2, rfl⟩
  · cases h

/-! ## Words of vectors (R101) -/

@[simp] theorem cplxWords_length (zs : List Cplx) : (cplxWords zs).length = 2 * zs.length := by
  induction zs with
  | nil => rfl
  | cons z zs ih => simp only [cplxWords, List.flatMap_cons, List.length_append, List.length_cons, List.length_nil] at ih ⊢
                    omega

@[simp] theorem bitWords_length (bs : List Bool) : (bitWords bs).length = bs.length := by simp [bitWords]

/-! ## Checks (R413) -/

/-- The reported code is that of the first failing condition. -/
theorem firstFailing_eq_find (cs : List (Bool × ErrCode)) : firstFailing cs = (cs.find? fun p => !p.1).map Prod.snd := by
  induction cs with
  | nil => rfl
  | cons p cs ih =>
    rcases p with ⟨b, c⟩
    cases b <;> simp [firstFailing, ih]

/-- No code is reported exactly when every condition holds. -/
theorem firstFailing_eq_none {cs : List (Bool × ErrCode)} : firstFailing cs = none ↔ ∀ p ∈ cs, p.1 = true := by
  simp [firstFailing_eq_find]

/-- A reported code is that of a condition of the list that fails. -/
theorem firstFailing_mem {cs : List (Bool × ErrCode)} {c : ErrCode} (h : firstFailing cs = some c) : (false, c) ∈ cs := by
  rw [firstFailing_eq_find] at h
  obtain ⟨p, hp, rfl⟩ := Option.map_eq_some_iff.1 h
  have h1 := List.mem_of_find?_eq_some hp
  have h2 : p.1 = false := by simpa using List.find?_some hp
  exact h2 ▸ h1

theorem isEven_iff {a : Nat} : isEven a = true ↔ a % 2 = 0 := by simp [isEven]

theorem disjoint_iff {a n b m : Nat} : disjoint a n b m = true ↔ n = 0 ∨ m = 0 ∨ b + m ≤ a ∨ a + n ≤ b := by
  simp only [disjoint, overlap, Bool.not_eq_true', Bool.and_eq_false_iff, decide_eq_false_iff_not]
  omega

theorem State.inRange_iff {s : State} {a w : Nat} : s.inRange a w = true ↔ a + w ≤ s.cfg.dmemWords := by
  simp [State.inRange]

/-! ## `perform` (R414, R415, R421, R430) -/

/-- A command never refuses. -/
theorem perform_ne_refused (s : State) (checks : Rd (Option ErrCode)) (effect : State → Rd Effect) (r : Refusal) :
    perform s checks effect ≠ .refused r := by
  unfold perform
  rcases checks with _ | _ | _
  · simp
  · simp only; split <;> simp
  · simp

/-- What a command can answer as a next state: the error completion with the code of its checks, or its whole effect. -/
theorem perform_next {s t : State} {checks : Rd (Option ErrCode)} {effect : State → Rd Effect}
    (h : perform s checks effect = .next t) :
    (∃ c, checks = .ok (some c) ∧ t = s.completeErr c) ∨ ∃ e, checks = .ok none ∧ effect s = .ok e ∧ t = s.apply e := by
  unfold perform at h
  split at h
  · cases h
  · rename_i c
    exact .inl ⟨c, rfl, by simpa using h.symm⟩
  · split at h
    · cases h
    · rename_i e he
      exact .inr ⟨e, rfl, he, by simpa using h.symm⟩

/-- What a command can answer as a fault: its checks or its effect read an unwritten word. -/
theorem perform_fault {s : State} {checks : Rd (Option ErrCode)} {effect : State → Rd Effect} {f : Fault}
    (h : perform s checks effect = .fault f) :
    ∃ a, f = .unwritten a (some s.cmd) ∧ (checks = .error a ∨ (checks = .ok none ∧ effect s = .error a)) := by
  unfold perform at h
  split at h
  · rename_i a
    exact ⟨a, by simpa using h.symm, .inl rfl⟩
  · cases h
  · split at h
    · rename_i a ha
      exact ⟨a, by simpa using h.symm, .inr ⟨rfl, ha⟩⟩
    · cases h

theorem perform_of_error {s : State} {checks : Rd (Option ErrCode)} {effect : State → Rd Effect} {c : ErrCode}
    (h : checks = .ok (some c)) : perform s checks effect = .next (s.completeErr c) := by simp [perform, h]

theorem perform_of_ok {s : State} {checks : Rd (Option ErrCode)} {effect : State → Rd Effect} {e : Effect}
    (h : checks = .ok none) (he : effect s = .ok e) : perform s checks effect = .next (s.apply e) := by
  simp [perform, h, he]

theorem perform_of_unwritten {s : State} {checks : Rd (Option ErrCode)} {effect : State → Rd Effect} {a : Nat}
    (h : checks = .ok none) (he : effect s = .error a) : perform s checks effect = .fault (.unwritten a (some s.cmd)) := by
  simp [perform, h, he]

/-! ## Stores (R113, R421) -/

/-- A byte outside every stored vector reads as before. -/
theorem Memory.readByte_stores_other (vs : List (Nat × List Word)) (m : Memory) (k : Nat)
    (h : ∀ v ∈ vs, k < 4 * v.1 ∨ 4 * (v.1 + v.2.length) ≤ k) :
    (vs.foldl (fun m v => m.writeWords v.1 v.2) m).readByte k = m.readByte k := by
  induction vs generalizing m with
  | nil => rfl
  | cons v vs ih =>
    rw [List.foldl_cons, ih _ fun w hw => h w (List.mem_cons_of_mem _ hw)]
    exact Memory.readByte_writeWords_other _ _ _ _ (h v List.mem_cons_self)

theorem Memory.readWord_stores_other (vs : List (Nat × List Word)) (m : Memory) (a : Nat)
    (h : ∀ v ∈ vs, a < v.1 ∨ v.1 + v.2.length ≤ a) :
    (vs.foldl (fun m v => m.writeWords v.1 v.2) m).readWord a = m.readWord a :=
  Memory.readWord_congr fun k h1 h2 => Memory.readByte_stores_other vs m k fun v hv => by have := h v hv; omega

/-- A word of a stored vector that no other stored vector overlaps reads back. -/
theorem Memory.readWord_stores {vs : List (Nat × List Word)}
    (hd : vs.Pairwise fun v w => disjoint v.1 v.2.length w.1 w.2.length = true) (m : Memory) {v : Nat × List Word} (hv : v ∈ vs)
    {k : Nat} (hk : k < v.2.length) :
    (vs.foldl (fun m v => m.writeWords v.1 v.2) m).readWord (v.1 + k) = some v.2[k] := by
  induction vs generalizing m with
  | nil => cases hv
  | cons u vs ih =>
    rw [List.foldl_cons]
    have hp := List.pairwise_cons.1 hd
    rcases List.mem_cons.1 hv with rfl | hv
    · rw [Memory.readWord_stores_other _ _ _ fun w hw => by
        have := disjoint_iff.1 (hp.1 w hw); omega]
      exact Memory.readWord_writeWords _ _ _ _ hk
    · exact ih hp.2 _ hv

/-- The canonical form, the bounds and the whole-word form are kept by the stores of a command. -/
theorem Memory.wf_stores (vs : List (Nat × List Word)) {m : Memory} (h : m.wf) :
    (vs.foldl (fun m v => m.writeWords v.1 v.2) m).wf := by
  induction vs generalizing m with
  | nil => exact h
  | cons v vs ih => exact ih (Memory.wf_writeWords _ h _)

theorem Memory.whole_stores (vs : List (Nat × List Word)) {m : Memory} (h : m.whole) :
    (vs.foldl (fun m v => m.writeWords v.1 v.2) m).whole := by
  induction vs generalizing m with
  | nil => exact h
  | cons v vs ih => exact ih (Memory.whole_writeWords _ h _)

theorem Memory.within_stores (vs : List (Nat × List Word)) {m : Memory} {n : Nat} (h : m.within n)
    (hv : ∀ v ∈ vs, v.1 + v.2.length ≤ n) : (vs.foldl (fun m v => m.writeWords v.1 v.2) m).within n := by
  induction vs generalizing m with
  | nil => exact h
  | cons v vs ih =>
    exact ih (Memory.within_writeWords _ h (hv v List.mem_cons_self)) fun w hw => hv w (List.mem_cons_of_mem _ hw)

/-! ## Unwriting the destinations of an aborted command (R452) -/

theorem Memory.readWord_unwriteAll (ds : List (Nat × Nat)) (m : Memory) (a : Nat) :
    (m.unwriteAll ds).readWord a = if ∃ d ∈ ds, d.1 ≤ a ∧ a < d.1 + d.2 then none else m.readWord a := by
  induction ds generalizing m with
  | nil => simp [Memory.unwriteAll]
  | cons d ds ih =>
    rcases d with ⟨b, n⟩
    simp only [Memory.unwriteAll, ih, Memory.readWord_unwrite, List.mem_cons, exists_eq_or_imp]
    by_cases h1 : ∃ d ∈ ds, d.1 ≤ a ∧ a < d.1 + d.2
    · simp [h1]
    · by_cases h2 : b ≤ a ∧ a < b + n <;> simp [h1, h2]

theorem Memory.wf_unwriteAll (ds : List (Nat × Nat)) {m : Memory} (h : m.wf) : (m.unwriteAll ds).wf := by
  induction ds generalizing m with
  | nil => exact h
  | cons d ds ih => exact ih (Memory.wf_unwrite h _ _)

theorem Memory.whole_unwriteAll (ds : List (Nat × Nat)) {m : Memory} (h : m.whole) : (m.unwriteAll ds).whole := by
  induction ds generalizing m with
  | nil => exact h
  | cons d ds ih => exact ih (Memory.whole_unwrite h _ _)

theorem Memory.within_unwriteAll (ds : List (Nat × Nat)) {m : Memory} {k : Nat} (h : m.within k) :
    (m.unwriteAll ds).within k := by
  induction ds generalizing m with
  | nil => exact h
  | cons d ds ih => exact ih (Memory.within_unwrite h _ _)

end Sys2Proof.Machine
end

