-- ==== Sys2Proof/Laws/Primitives.lean ====
section
/-!
SUPPORT. The index ranges of the primitive commands, in the literal form of their rules (40_dsp_primitives.md).
-/
namespace Sys2Proof.Machine

/-- Indices that contribute nothing may be left out of a range. -/
theorem flatMap_range'_clip {α : Type} (f : Nat → List α) {a lo hi : Nat} (ha : a ≤ lo)
    (hf : ∀ i, a ≤ i → i < lo ∨ hi ≤ i → f i = []) (w : Nat) :
    (List.range' a w).flatMap f = (List.range' lo (min (a + w) hi - lo)).flatMap f := by
  induction w with
  | zero => rw [show min (a + 0) hi - lo = 0 by omega]; rfl
  | succ w ih =>
    rw [List.range'_concat, List.flatMap_append, ih]
    by_cases h : lo ≤ a + w ∧ a + w < hi
    · rw [show min (a + (w + 1)) hi - lo = (min (a + w) hi - lo) + 1 by omega, List.range'_concat, List.flatMap_append,
        show lo + 1 * (min (a + w) hi - lo) = a + 1 * w by omega]
    · rw [show min (a + (w + 1)) hi - lo = min (a + w) hi - lo by omega]
      simp [hf (a + w) (by omega) (by omega)]

/-- The indices `P2M` accumulates, as R205 writes the loop: every i in [2, 2 + width), also those that reach no element. -/
theorem valleyIndices_eq (n : Nat) (peakIndex : Int) (width : Nat) :
    valleyIndices n peakIndex width
      = (List.range' 2 width).flatMap fun (i : Nat) => indexIn n (peakIndex - i) ++ indexIn n (peakIndex + i) := by
  refine (flatMap_range'_clip _ ?_ (fun i h2 hi => ?_) width).symm
  · unfold valleyFirst; omega
  · unfold valleyFirst valleyEnd at hi
    unfold indexIn
    rw [if_neg (by omega), if_neg (by omega)]
    rfl

/-- An index that `indexIn` gives is inside the vector. -/
theorem mem_indexIn {n : Nat} {j : Int} {k : Nat} (h : k ∈ indexIn n j) : k < n := by
  unfold indexIn at h
  split at h
  · simp at h; omega
  · simp at h

theorem mem_valleyIndices {n : Nat} {peakIndex : Int} {width k : Nat} (h : k ∈ valleyIndices n peakIndex width) : k < n := by
  unfold valleyIndices at h
  obtain ⟨i, -, h⟩ := List.mem_flatMap.1 h
  rcases List.mem_append.1 h with h | h <;> exact mem_indexIn h

end Sys2Proof.Machine
end

