-- ==== Sys2Proof/Laws/Commands.lean ====
section
/-!
SUPPORT. All commands at once: every meaning is `perform` of the command's checks and its effect; what every effect can write;
and what makes a check or an effect stop.
-/
namespace Sys2Proof.Machine

/-- The effect of each command, beside `checksOf` and `dstWords`. -/
def effectOf (i : Instr) (s : State) : Rd Effect :=
  match i with
  | .nop => nopEffect s
  | .sinc => sincEffect s
  | .interp => interpEffect s
  | .peak => peakEffect s
  | .p2m => p2mEffect s
  | .rot => rotEffect s
  | .rrot => rrotEffect s
  | .conv => convEffect s
  | .convNd => convNdEffect s
  | .corr => corrEffect s
  | .corrNd => corrNdEffect s
  | .delay => delayEffect s
  | .scale => scaleEffect s
  | .conj => conjEffect s
  | .sliceSoft => sliceSoftEffect s
  | .slice => sliceEffect s
  | .norm2 => norm2Effect s
  | .resample => resampleEffect s
  | .modulate => modulateEffect s
  | .fcchInit => fcchInitEffect s
  | .fcchFlush => fcchFlushEffect s
  | .fcchFeed => fcchFeedEffect s
  | .fcchWalk => fcchWalkEffect s
  | .fcchScan => fcchScanEffect s
  | .freqDetect => freqDetectEffect s
  | .fcchEdump => fcchEdumpEffect s
  | .chanresp => chanrespEffect s
  | .designDfe => designDfeEffect s
  | .equalize => equalizeEffect s
  | .parityCheck => parityCheckEffect s
  | .parityEncode => parityEncodeEffect s
  | .convEncode => convEncodeEffect s
  | .viterbiHard x => viterbiHardEffect x s
  | .viterbiSoft x => viterbiSoftEffect x s
  | .schFields => schFieldsEffect s

/-- Every meaning is `perform` of the command's checks and its effect. -/
theorem exec_eq_perform (i : Instr) (s : State) : exec i s = perform s (checksOf i s) (effectOf i) := by
  cases i <;> rfl

/-! ## What a command reads -/

/-- States with the same data differ in STATUS, CTRL and the model's own fields only. -/
theorem State.eq_of_sameData {s t : State} (h : s.sameData t) :
    t = { s with status := t.status, irqEn := t.irqEn, agenda := t.agenda, answer := t.answer } := by
  obtain ⟨h1, h2, h3, h4, h5, h6, h7, h8, h9, h10⟩ := h
  cases s; cases t; simp_all

/-- The checks of a command read the data of the state only. -/
theorem checksOf_congr {s t : State} (h : s.sameData t) (i : Instr) : checksOf i t = checksOf i s := by
  rw [State.eq_of_sameData h]
  cases i <;> rfl

/-- The effect of a command is a function of the data of the state only. -/
theorem effectOf_congr {s t : State} (h : s.sameData t) (i : Instr) : effectOf i t = effectOf i s := by
  rw [State.eq_of_sameData h]
  cases i <;> rfl

/-! ## Where a command stops (R430) -/

/-- A computation over DMEM that stops, stops at an unwritten word, which it names. -/
def Rd.StopsAtUnwritten {α : Type} (m : Memory) (r : Rd α) : Prop := ∀ a, r = .error a → m.readWord a = none

theorem Rd.stops_ok {α : Type} {m : Memory} (x : α) : Rd.StopsAtUnwritten m (Except.ok x : Rd α) := fun _ h => by cases h

theorem Rd.stops_bind {α β : Type} {m : Memory} {r : Rd α} {f : α → Rd β} (h : Rd.StopsAtUnwritten m r)
    (hf : ∀ x, Rd.StopsAtUnwritten m (f x)) : Rd.StopsAtUnwritten m (r >>= f) := fun a e => by
  cases r with
  | ok x => exact hf x a e
  | error b => exact h a (by cases e; rfl)

theorem Rd.stops_tab {α : Type} {m : Memory} {f : Nat → Rd α} (hf : ∀ k, Rd.StopsAtUnwritten m (f k)) (lo n : Nat) :
    Rd.StopsAtUnwritten m (tabRd f lo n) := fun a e =>
  let ⟨k, _, _, h⟩ := tabRd_error e
  hf k a h

theorem Rd.stops_fold {σ : Type} {m : Memory} {f : Nat → σ → Rd σ} (hf : ∀ k acc, Rd.StopsAtUnwritten m (f k acc))
    (lo n : Nat) (acc : σ) : Rd.StopsAtUnwritten m (foldRd f lo n acc) := fun a e =>
  let ⟨k, acc, _, _, h⟩ := foldRd_error e
  hf k acc a h

theorem Rd.stops_foldList {α σ : Type} {m : Memory} {f : α → σ → Rd σ} (hf : ∀ x acc, Rd.StopsAtUnwritten m (f x acc))
    (xs : List α) (acc : σ) : Rd.StopsAtUnwritten m (foldRdList f xs acc) := fun a e =>
  let ⟨x, _, acc, h⟩ := foldRdList_error e
  hf x acc a h

theorem stops_cread (m : Memory) (a k : Nat) : Rd.StopsAtUnwritten m (cread m a k) := fun _ h => (cread_error h).1
theorem stops_rread (m : Memory) (a k : Nat) : Rd.StopsAtUnwritten m (rread m a k) := fun _ h => (rread_error h).1
theorem stops_bread (m : Memory) (a k : Nat) : Rd.StopsAtUnwritten m (bread m a k) := fun _ h => (bread_error h).1

theorem stops_interpF {m : Memory} {rd : Nat → Rd Cplx} (h : ∀ k, Rd.StopsAtUnwritten m (rd k)) (w : Bool) (n : Nat) (t : F32) :
    Rd.StopsAtUnwritten m (interpF w rd n t) :=
  Rd.stops_fold (fun k _ => Rd.stops_bind (h k) fun _ => Rd.stops_ok _) _ _ _

theorem stops_peakSearch {m : Memory} {rd : Nat → Rd Cplx} (h : ∀ k, Rd.StopsAtUnwritten m (rd k)) (w : Bool) (n fuel : Nat)
    (early incr : F32) : Rd.StopsAtUnwritten m (peakSearch w rd n fuel early incr) := by
  induction fuel generalizing early incr with
  | zero => exact Rd.stops_ok _
  | succ fuel ih =>
    rw [peakSearch]
    split
    · refine Rd.stops_bind (stops_interpF h w n _) fun e => Rd.stops_bind (stops_interpF h w n _) fun l => ?_
      simp only
      split
      · exact ih _ _
      · split
        · exact ih _ _
        · exact Rd.stops_ok _
    · exact Rd.stops_ok _

theorem stops_peakDetectF {m : Memory} {rd : Nat → Rd Cplx} (h : ∀ k, Rd.StopsAtUnwritten m (rd k)) (w : Bool) (n : Nat) :
    Rd.StopsAtUnwritten m (peakDetectF w rd n) := by
  refine Rd.stops_bind (Rd.stops_fold (fun k acc => Rd.stops_bind (h k) fun z => ?_) _ _ _) fun r =>
    Rd.stops_bind (stops_peakSearch h w n _ _ _) fun e => Rd.stops_bind (stops_interpF h w n _) fun p => Rd.stops_ok _
  simp only
  split <;> exact Rd.stops_ok _

theorem stops_energyOver {m : Memory} {rd : Nat → Rd Cplx} (h : ∀ k, Rd.StopsAtUnwritten m (rd k)) (ks : List Nat) :
    Rd.StopsAtUnwritten m (energyOver rd ks) :=
  Rd.stops_foldList (fun k _ => Rd.stops_bind (h k) fun _ => Rd.stops_ok _) _ _

theorem stops_convAt {m : Memory} {rh rx : Nat → Rd Cplx} (h : ∀ k, Rd.StopsAtUnwritten m (rh k))
    (h' : ∀ k, Rd.StopsAtUnwritten m (rx k)) (hn xn n : Nat) : Rd.StopsAtUnwritten m (convAt rh rx hn xn n) := by
  refine Rd.stops_fold (fun k acc => ?_) _ _ _
  split
  · exact Rd.stops_bind (h k) fun _ => Rd.stops_bind (h' _) fun _ => Rd.stops_ok _
  · exact Rd.stops_ok _

theorem stops_mappedVec {α β : Type} {m : Memory} {rd : Nat → Rd α} (h : ∀ k, Rd.StopsAtUnwritten m (rd k)) (f : α → β)
    (n : Nat) : Rd.StopsAtUnwritten m (mappedVec f rd n) :=
  Rd.stops_tab (fun k => Rd.stops_bind (h k) fun _ => Rd.stops_ok _) _ _

theorem stops_freqDetectF {m : Memory} {rd : Nat → Rd Cplx} (h : ∀ k, Rd.StopsAtUnwritten m (rd k)) (c : Config) (rate : F32)
    (start sl : Nat) : Rd.StopsAtUnwritten m (freqDetectF c rate rd start sl) := by
  refine Rd.stops_bind (Rd.stops_tab (fun k => ?_) _ _) fun b =>
    Rd.stops_bind (stops_peakDetectF (fun _ => Rd.stops_ok _) _ _) fun _ => Rd.stops_ok _
  split
  · exact h _
  · exact Rd.stops_ok _

theorem stops_examineRun {m : Memory} {rd : Nat → Rd Cplx} (h : ∀ k, Rd.StopsAtUnwritten m (rd k)) (c : Config)
    (rate sps : F32) (burst start run : Nat) : Rd.StopsAtUnwritten m (examineRun c rate sps burst rd start run) := by
  unfold examineRun
  split
  · refine Rd.stops_bind (stops_freqDetectF h _ _ _ _) fun r => ?_
    split <;> exact Rd.stops_ok _
  · exact Rd.stops_ok _

theorem stops_walkErrors {m : Memory} {examine : Nat → Nat → Rd (Option Detection)}
    (h : ∀ a b, Rd.StopsAtUnwritten m (examine a b)) (limit : F32) (errors : List F32) (i : Nat) (t : WalkTd) :
    Rd.StopsAtUnwritten m (walkErrors limit examine errors i t) := by
  induction errors generalizing i t with
  | nil => exact Rd.stops_ok _
  | cons a rest ih =>
    rw [walkErrors]
    split
    · exact ih _ _
    · split
      · refine Rd.stops_bind (h _ _) fun r => ?_
        split
        · exact Rd.stops_ok _
        · exact ih _ _
      · exact ih _ _

theorem stops_walkF (s : State) (f : Fcch) (a n : Nat) : Rd.StopsAtUnwritten s.mem (walkF s f a n) := by
  refine Rd.stops_bind (stops_walkErrors (stops_examineRun (stops_cread s.mem a) _ _ _ _) _ _ _ _) fun r => ?_
  simp only
  split <;> exact Rd.stops_ok _

theorem stops_feedback {m : Memory} {rd : Nat → Rd Cplx} (h : ∀ k, Rd.StopsAtUnwritten m (rd k)) (n : Nat) (past : List Cplx) :
    Rd.StopsAtUnwritten m (feedback rd n past) :=
  Rd.stops_fold (fun k _ => Rd.stops_bind (h k) fun _ => Rd.stops_ok _) _ _ _

theorem stops_equalizeLoop {m : Memory} {rd : Nat → Rd Cplx} (h : ∀ k, Rd.StopsAtUnwritten m (rd k)) (n : Nat) (ps : List Cplx)
    (i : Nat) (past : List Cplx) : Rd.StopsAtUnwritten m (equalizeLoop rd n ps i past) := by
  induction ps generalizing i past with
  | nil => exact Rd.stops_ok _
  | cons p ps ih =>
    exact Rd.stops_bind (stops_feedback h n past) fun _ => Rd.stops_bind (ih _ _) fun _ => Rd.stops_ok _

theorem stops_gather {β : Type} {m : Memory} {rd : Nat → Rd β} (h : ∀ k, Rd.StopsAtUnwritten m (rd k)) (x : Bool) :
    Rd.StopsAtUnwritten m (gather rd x) := by
  unfold gather
  split
  · exact Rd.stops_bind (Rd.stops_tab h _ _) fun _ => Rd.stops_bind (Rd.stops_tab h _ _) fun _ => Rd.stops_ok _
  · exact Rd.stops_tab h _ _

/-- The effect of a command stops only at an unwritten word, which it names (R430). -/
theorem effectOf_stops (i : Instr) (s : State) : Rd.StopsAtUnwritten s.mem (effectOf i s) := by
  have hc := stops_cread s.mem
  have hb := stops_bread s.mem
  have hr := stops_rread s.mem
  have hv : ∀ a k n, Rd.StopsAtUnwritten s.mem (revConj s.mem a k n) := fun _ _ _ =>
    Rd.stops_bind (hc _ _) fun _ => Rd.stops_ok _
  cases i with
  | nop => exact Rd.stops_ok _
  | sinc => exact Rd.stops_ok _
  | interp => exact Rd.stops_bind (stops_interpF (hc _) _ _ _) fun _ => Rd.stops_ok _
  | peak => exact Rd.stops_bind (stops_peakDetectF (hc _) _ _) fun _ => Rd.stops_ok _
  | p2m => exact Rd.stops_bind (stops_energyOver (hc _) _) fun _ => Rd.stops_ok _
  | rot => exact Rd.stops_bind (Rd.stops_tab (fun k => Rd.stops_bind (hc _ k) fun _ => Rd.stops_ok _) _ _) fun _ => Rd.stops_ok _
  | rrot => exact Rd.stops_bind (Rd.stops_tab (fun k => Rd.stops_bind (hc _ k) fun _ => Rd.stops_ok _) _ _) fun _ => Rd.stops_ok _
  | conv => exact Rd.stops_bind (Rd.stops_tab (stops_convAt (hc _) (hc _) _ _) _ _) fun _ => Rd.stops_ok _
  | convNd => exact Rd.stops_bind (Rd.stops_tab (fun _ => stops_convAt (hc _) (hc _) _ _ _) _ _) fun _ => Rd.stops_ok _
  | corr => exact Rd.stops_bind (Rd.stops_tab (stops_convAt (hv _ _) (hc _) _ _) _ _) fun _ => Rd.stops_ok _
  | corrNd => exact Rd.stops_bind (Rd.stops_tab (fun _ => stops_convAt (hv _ _) (hc _) _ _ _) _ _) fun _ => Rd.stops_ok _
  | delay =>
    refine Rd.stops_bind ?_ fun _ => Rd.stops_ok _
    unfold delayBuffer
    split
    · exact Rd.stops_tab (fun _ => stops_convAt (fun _ => Rd.stops_ok _) (hc _) _ _ _) _ _
    · exact Rd.stops_tab (hc _) _ _
  | scale => exact Rd.stops_bind (stops_mappedVec (hc _) _ _) fun _ => Rd.stops_ok _
  | conj => exact Rd.stops_bind (stops_mappedVec (hc _) _ _) fun _ => Rd.stops_ok _
  | sliceSoft => exact Rd.stops_bind (stops_mappedVec (hc _) _ _) fun _ => Rd.stops_ok _
  | slice => exact Rd.stops_bind (stops_mappedVec (hr _) _ _) fun _ => Rd.stops_ok _
  | norm2 => exact Rd.stops_bind (stops_energyOver (hc _) _) fun _ => Rd.stops_ok _
  | resample => exact Rd.stops_bind (Rd.stops_tab (hc _) _ _) fun _ => Rd.stops_ok _
  | modulate =>
    exact Rd.stops_bind (Rd.stops_tab (hb _) _ _) fun _ =>
      Rd.stops_bind (Rd.stops_tab (fun _ => stops_convAt (fun _ => Rd.stops_ok _) (fun _ => Rd.stops_ok _) _ _ _) _ _) fun _ =>
        Rd.stops_ok _
  | fcchInit => exact Rd.stops_ok _
  | fcchFlush => exact Rd.stops_ok _
  | fcchFeed => exact Rd.stops_bind (Rd.stops_tab (hc _) _ _) fun _ => Rd.stops_ok _
  | fcchWalk => exact Rd.stops_bind (stops_walkF s _ _ _) fun _ => Rd.stops_ok _
  | fcchScan =>
    exact Rd.stops_bind (Rd.stops_tab (hc _) _ _) fun _ => Rd.stops_bind (stops_walkF s _ _ _) fun _ => Rd.stops_ok _
  | freqDetect => exact Rd.stops_bind (stops_freqDetectF (hc _) _ _ _ _) fun _ => Rd.stops_ok _
  | fcchEdump => exact Rd.stops_ok _
  | chanresp =>
    refine Rd.stops_bind (Rd.stops_fold (fun k acc => ?_) _ _ _) fun r =>
      Rd.stops_bind (stops_mappedVec (fun _ => hc _ _) _ _) fun _ => Rd.stops_ok _
    refine Rd.stops_bind (stops_energyOver (hc _) _) fun _ => ?_
    split <;> exact Rd.stops_ok _
  | designDfe => exact Rd.stops_bind (Rd.stops_tab (hc _) _ _) fun _ => Rd.stops_ok _
  | equalize =>
    exact Rd.stops_bind (Rd.stops_tab (fun _ => stops_convAt (hc _) (hc _) _ _ _) _ _) fun _ =>
      Rd.stops_bind (stops_equalizeLoop (hc _) _ _ _ _) fun _ => Rd.stops_ok _
  | parityCheck => exact Rd.stops_bind (Rd.stops_tab (hb _) _ _) fun _ => Rd.stops_ok _
  | parityEncode => exact Rd.stops_bind (Rd.stops_tab (hb _) _ _) fun _ => Rd.stops_ok _
  | convEncode => exact Rd.stops_bind (Rd.stops_tab (hb _) _ _) fun _ => Rd.stops_ok _
  | viterbiHard x => exact Rd.stops_bind (stops_gather (hb _) x) fun _ => Rd.stops_ok _
  | viterbiSoft x => exact Rd.stops_bind (stops_gather (hr _) x) fun _ => Rd.stops_ok _
  | schFields => exact Rd.stops_bind (Rd.stops_tab (hb _) _ _) fun _ => Rd.stops_ok _

/-- The checks of a command stop only at an unwritten word, which they name: only the DATA check reads DMEM (R200, R430). -/
theorem checksOf_stops (i : Instr) (s : State) : Rd.StopsAtUnwritten s.mem (checksOf i s) := by
  cases i with
  | viterbiSoft x =>
    show Rd.StopsAtUnwritten s.mem (viterbiSoftChecks x s)
    unfold viterbiSoftChecks
    split
    · exact Rd.stops_ok _
    · refine Rd.stops_bind (stops_gather (stops_rread s.mem _) x) fun _ => ?_
      split <;> exact Rd.stops_ok _
  | _ => exact Rd.stops_ok _

/-! ## What a command writes -/

/-- The result registers a command names, in order (R145). -/
def resultRegs : Instr → List (Fin 8)
  | .sinc | .conv | .convNd | .corr | .corrNd | .norm2 | .resample | .modulate | .fcchFeed | .fcchEdump | .designDfe => [0]
  | .interp | .p2m | .delay | .chanresp | .parityCheck | .viterbiHard _ | .viterbiSoft _ => [0, 1]
  | .freqDetect => [0, 1, 2]
  | .peak | .fcchWalk | .fcchScan => [0, 1, 2, 3, 4]
  | .schFields => [0, 1, 2, 3, 4, 5]
  | .nop | .rot | .rrot | .scale | .conj | .sliceSoft | .slice | .fcchInit | .fcchFlush | .equalize | .parityEncode
  | .convEncode => []

theorem convEncodeFrom_length (bs : List Bool) (s : Nat) : (convEncodeFrom s bs).length = 2 * bs.length := by
  induction bs generalizing s with
  | nil => rfl
  | cons b bs ih => simp [convEncodeFrom, ih]; omega

theorem divisionSteps_length (n : Nat) (b : List Bool) (h : n + 10 ≤ b.length) : (divisionSteps n b).length = b.length - n := by
  induction n generalizing b with
  | zero => simp [divisionSteps]
  | succ n ih =>
    have e : (divisionStep b).length = b.length - 1 := by
      cases b with
      | nil => rfl
      | cons c rest =>
        simp only [divisionStep]
        split
        · simp [parityGen] at h ⊢
          omega
        · simp
    rw [divisionSteps, ih _ (by omega), e]
    omega

theorem residueF_length (b : List Bool) (h : b.length = 35) : (residueF b).length = 10 := by
  rw [residueF, divisionSteps_length _ _ (by omega), h]

theorem parityEncodeF_length (info : List Bool) (h : info.length = 25) : (parityEncodeF info).length = 35 := by
  rw [parityEncodeF, List.length_append, List.length_map, residueF_length _ (by simp [h]), h]

theorem traceback_length (hist : List (List Nat)) (cur : Nat) (out : List Nat) :
    (traceback hist cur out).length = hist.length + out.length := by
  induction hist generalizing cur out with
  | nil => simp [traceback]
  | cons p hist ih => simp [traceback, ih]; omega

theorem viterbiStages_length {β ε : Type} (m : Metric β ε) (ps : List (β × β)) (errs : List ε) (hist : List (List Nat)) :
    (viterbiStages m ps errs hist).2.length = hist.length + ps.length := by
  induction ps generalizing errs hist with
  | nil => simp [viterbiStages]
  | cons p ps ih => simp [viterbiStages, ih]; omega

theorem inPairs_length {β : Type} (n : Nat) (r : List β) (h : r.length = 2 * n) : (inPairs r).length = n := by
  induction n generalizing r with
  | zero => obtain rfl : r = [] := by simpa using h
            rfl
  | succ n ih =>
    match r with
    | a :: b :: rest => simp only [inPairs, List.length_cons, ih rest (by simp at h; omega)]
    | [] => simp at h
    | [a] => simp at h; omega

/-- A Viterbi decoder gives one bit for each pair received. -/
theorem viterbiF_length {β ε : Type} (m : Metric β ε) (n : Nat) (r : List β) (h : r.length = 2 * n) :
    (viterbiF m r).out.length = n := by
  simp only [viterbiF, traceback_length, viterbiStages_length, inPairs_length n r h]
  simp

theorem gather_length {β : Type} {rd : Nat → Rd β} {x : Bool} {r : List β} (h : gather rd x = .ok r) : r.length = 78 := by
  unfold gather at h
  split at h
  · obtain ⟨a, ha, h⟩ := Rd.bind_ok h
    obtain ⟨b, hb, h⟩ := Rd.bind_ok h
    obtain rfl : r = a ++ b := by simpa using h.symm
    simp [tabRd_length ha, tabRd_length hb]
  · exact tabRd_length h

theorem equalizeLoop_length {rd : Nat → Rd Cplx} {n : Nat} {ps : List Cplx} {i : Nat} {past : List Cplx}
    {r : List F32 × List Cplx} (h : equalizeLoop rd n ps i past = .ok r) :
    r.1.length = ps.length ∧ r.2.length = past.length + ps.length := by
  induction ps generalizing i past r with
  | nil =>
    obtain rfl : r = ([], past.reverse) := by simpa [equalizeLoop] using h.symm
    simp
  | cons p ps ih =>
    obtain ⟨f, _, h⟩ := Rd.bind_ok h
    obtain ⟨q, hq, h⟩ := Rd.bind_ok h
    obtain rfl : r = (_ :: q.1, q.2) := by simpa using h.symm
    obtain ⟨h1, h2⟩ := ih hq
    simp [h1, h2]
    omega

theorem walkF_results {s : State} {f : Fcch} {a n : Nat} {r : WalkResult} (h : walkF s f a n = .ok r) :
    r.results.map Prod.fst = [0, 1, 2, 3, 4] := by
  obtain ⟨q, _, h⟩ := Rd.bind_ok h
  simp only at h
  split at h <;> (obtain rfl := (Except.ok.inj h).symm; rfl)

/-- The shape of every effect: it stores vectors of exactly the lengths its rule names, writes the result registers its rule
names, and leaves the detector, the transition detector and the pulse cache alone where its rule does not name them; only the
two walks and the parity check have an outcome flag. -/
theorem effectOf_shape {i : Instr} {s : State} {e : Effect} (h : effectOf i s = .ok e) :
    e.stores.map (fun v => (v.1, v.2.length)) = dstWords i s
    ∧ e.results.map Prod.fst = resultRegs i
    ∧ (i ≠ .fcchInit → i ≠ .fcchFlush → i ≠ .fcchFeed → i ≠ .fcchScan → e.fcch = none)
    ∧ (i ≠ .fcchInit → i ≠ .fcchWalk → i ≠ .fcchScan → e.td = none)
    ∧ (i ≠ .modulate → e.pulse = none)
    ∧ (e.detect = true → i = .fcchWalk ∨ i = .fcchScan ∨ i = .parityCheck) := by
  have tl {α : Type} {f : Nat → Rd α} {lo n : Nat} {xs : List α} := @tabRd_length α f lo n xs
  cases i with
  | nop | sinc | fcchInit | fcchFlush | fcchEdump =>
    obtain rfl := (Except.ok.inj h).symm
    simp [dstWords, resultRegs, fcchEdumpDst]
  | interp | peak | p2m | norm2 | fcchFeed | freqDetect | parityCheck | schFields =>
    obtain ⟨_, _, h⟩ := Rd.bind_ok h
    obtain rfl := (Except.ok.inj h).symm
    simp [dstWords, resultRegs]
  | rot | rrot | conv | convNd | corr | corrNd | scale | conj | sliceSoft | slice =>
    obtain ⟨ys, hy, h⟩ := Rd.bind_ok h
    obtain rfl := (Except.ok.inj h).symm
    simp [dstWords, resultRegs, rotDst, convDst, convNdDst, scaleDst, sliceSoftDst, sliceDst, tl hy]
  | delay =>
    obtain ⟨ys, hy, h⟩ := Rd.bind_ok h
    obtain rfl := (Except.ok.inj h).symm
    simp [dstWords, resultRegs, delayDst, shifted]
  | resample =>
    obtain ⟨ys, hy, h⟩ := Rd.bind_ok h
    obtain rfl := (Except.ok.inj h).symm
    simp [dstWords, resultRegs, resampleDst]
  | modulate =>
    obtain ⟨bs, hb, h⟩ := Rd.bind_ok h
    obtain ⟨ys, hy, h⟩ := Rd.bind_ok h
    obtain rfl := (Except.ok.inj h).symm
    simp [dstWords, resultRegs, modulateDst, tl hy]
  | fcchWalk =>
    obtain ⟨r, hr, h⟩ := Rd.bind_ok h
    obtain rfl := (Except.ok.inj h).symm
    simp [dstWords, resultRegs, walkF_results hr]
  | fcchScan =>
    obtain ⟨_, _, h⟩ := Rd.bind_ok h
    obtain ⟨r, hr, h⟩ := Rd.bind_ok h
    obtain rfl := (Except.ok.inj h).symm
    simp [dstWords, resultRegs, walkF_results hr]
  | chanresp =>
    obtain ⟨r, hr, h⟩ := Rd.bind_ok h
    obtain ⟨ys, hy, h⟩ := Rd.bind_ok h
    obtain rfl := (Except.ok.inj h).symm
    simp [dstWords, resultRegs, chanrespDst, tl hy]
  | designDfe =>
    obtain ⟨ys, hy, h⟩ := Rd.bind_ok h
    obtain rfl := (Except.ok.inj h).symm
    simp [dstWords, resultRegs, designDfeDst, designF, tl hy]
  | equalize =>
    obtain ⟨ps, hp, h⟩ := Rd.bind_ok h
    obtain ⟨r, hr, h⟩ := Rd.bind_ok h
    obtain rfl := (Except.ok.inj h).symm
    obtain ⟨h1, h2⟩ := equalizeLoop_length hr
    simp [dstWords, resultRegs, equalizeDst, h1, h2, tl hp]
  | parityEncode =>
    obtain ⟨bs, hb, h⟩ := Rd.bind_ok h
    obtain rfl := (Except.ok.inj h).symm
    simp [dstWords, resultRegs, parityEncodeDst, parityEncodeF_length _ (tl hb)]
  | convEncode =>
    obtain ⟨bs, hb, h⟩ := Rd.bind_ok h
    obtain rfl := (Except.ok.inj h).symm
    simp [dstWords, resultRegs, convEncodeDst, convEncodeF, convEncodeFrom_length, tl hb]
  | viterbiHard x | viterbiSoft x =>
    obtain ⟨r, hr, h⟩ := Rd.bind_ok h
    obtain rfl := (Except.ok.inj h).symm
    simp [dstWords, resultRegs, viterbiDst, decodedWords, viterbiF_length _ 39 r (gather_length hr)]

end Sys2Proof.Machine
end

