-- ==== Sys2Proof/Laws/HostBus.lean ====
section
/-!
SUPPORT. The engine's turn and the registers whose writes have a side effect (30_encoding.md R142; 20_memory.md R106, R108).
-/
namespace Sys2Proof.Machine

/-- What an engine turn can answer as a next state: nothing in flight and nothing changes; the error completion of an illegal
word or of a failed check; or the whole effect of the command. -/
theorem engineStep_next {s t : State} (h : engineStep s = .next t) :
    (s.status.busy = false ∧ t = s)
    ∨ (s.status.busy = true ∧ ((∃ c, t = s.completeErr c)
        ∨ ∃ i e, decodeWord s.cmd = .ok i ∧ checksOf i s = .ok none ∧ effectOf i s = .ok e ∧ t = s.apply e)) := by
  unfold engineStep at h
  split at h
  · rename_i hb
    split at h
    · exact .inr ⟨hb, .inl ⟨_, (Host.Outcome.next.inj h).symm⟩⟩
    · rename_i i hi
      rw [exec_eq_perform] at h
      rcases perform_next h with ⟨c, _, rfl⟩ | ⟨e, hc, he, rfl⟩
      · exact .inr ⟨hb, .inl ⟨c, rfl⟩⟩
      · exact .inr ⟨hb, .inr ⟨i, e, hi, hc, he, rfl⟩⟩
  · rename_i hb
    exact .inl ⟨by simpa using hb, (Host.Outcome.next.inj h).symm⟩

/-- No engine turn touches the sticky flags (R432). -/
theorem engineStep_sticky {s t : State} (h : engineStep s = .next t) :
    t.status.accViol = s.status.accViol ∧ t.status.cmdLost = s.status.cmdLost := by
  rcases engineStep_next h with ⟨_, rfl⟩ | ⟨_, ⟨c, rfl⟩ | ⟨_, e, _, _, _, rfl⟩⟩ <;> exact ⟨rfl, rfl⟩

/-- A target that is a register of the map is the one the register block holds at that offset. -/
theorem targetAt_reg {c : Config} {off : Nat} {r : Reg} (h : targetAt c off = .reg r) (hr : r ≠ .reserved) :
    regAt c off = r := by
  unfold targetAt at h
  split at h
  · exact Target.reg.inj h
  · split at h
    · cases h
    · exact absurd (Target.reg.inj h).symm hr

/-- CTRL, STATUS and CMD stand at one offset each. -/
theorem targetAt_offset {c : Config} {off : Nat} :
    (targetAt c off = .reg .ctrl → off = 0x008) ∧ (targetAt c off = .reg .status → off = 0x00C)
    ∧ (targetAt c off = .reg .cmd → off = 0x010) := by
  refine ⟨fun h => ?_, fun h => ?_, fun h => ?_⟩ <;>
  · have h := targetAt_reg h (by simp)
    unfold regAt at h
    split at h
    · split at h <;> first | rfl | cases h
    · repeat' split at h
      all_goals cases h

end Sys2Proof.Machine
end

