-- ==== Sys2Proof/Laws/PerInstr.lean ====
section
/-!
SUPPORT. The statement made per instruction: its command word has legal fields and decodes back to it.
-/
namespace Sys2Proof.Laws

/-- The command word of `i` is legal, and decodes to `i` (30_encoding.md R141, R142, R146). -/
def EncodingRoundTrip.Statement (i : Instr) : Prop :=
  (fieldsOf (encode i)).wellFormed = true ∧ decodeWord (encode i) = .ok i

theorem EncodingRoundTrip.nop : EncodingRoundTrip.Statement .nop := ⟨by decide, by decide⟩

theorem EncodingRoundTrip.sinc : EncodingRoundTrip.Statement .sinc := ⟨by decide, by decide⟩

theorem EncodingRoundTrip.interp : EncodingRoundTrip.Statement .interp := ⟨by decide, by decide⟩

theorem EncodingRoundTrip.peak : EncodingRoundTrip.Statement .peak := ⟨by decide, by decide⟩

theorem EncodingRoundTrip.p2m : EncodingRoundTrip.Statement .p2m := ⟨by decide, by decide⟩

theorem EncodingRoundTrip.rot : EncodingRoundTrip.Statement .rot := ⟨by decide, by decide⟩

theorem EncodingRoundTrip.rrot : EncodingRoundTrip.Statement .rrot := ⟨by decide, by decide⟩

theorem EncodingRoundTrip.conv : EncodingRoundTrip.Statement .conv := ⟨by decide, by decide⟩

theorem EncodingRoundTrip.convNd : EncodingRoundTrip.Statement .convNd := ⟨by decide, by decide⟩

theorem EncodingRoundTrip.corr : EncodingRoundTrip.Statement .corr := ⟨by decide, by decide⟩

theorem EncodingRoundTrip.corrNd : EncodingRoundTrip.Statement .corrNd := ⟨by decide, by decide⟩

theorem EncodingRoundTrip.delay : EncodingRoundTrip.Statement .delay := ⟨by decide, by decide⟩

theorem EncodingRoundTrip.scale : EncodingRoundTrip.Statement .scale := ⟨by decide, by decide⟩

theorem EncodingRoundTrip.conj : EncodingRoundTrip.Statement .conj := ⟨by decide, by decide⟩

theorem EncodingRoundTrip.sliceSoft : EncodingRoundTrip.Statement .sliceSoft := ⟨by decide, by decide⟩

theorem EncodingRoundTrip.slice : EncodingRoundTrip.Statement .slice := ⟨by decide, by decide⟩

theorem EncodingRoundTrip.norm2 : EncodingRoundTrip.Statement .norm2 := ⟨by decide, by decide⟩

theorem EncodingRoundTrip.resample : EncodingRoundTrip.Statement .resample := ⟨by decide, by decide⟩

theorem EncodingRoundTrip.modulate : EncodingRoundTrip.Statement .modulate := ⟨by decide, by decide⟩

theorem EncodingRoundTrip.fcchInit : EncodingRoundTrip.Statement .fcchInit := ⟨by decide, by decide⟩

theorem EncodingRoundTrip.fcchFlush : EncodingRoundTrip.Statement .fcchFlush := ⟨by decide, by decide⟩

theorem EncodingRoundTrip.fcchFeed : EncodingRoundTrip.Statement .fcchFeed := ⟨by decide, by decide⟩

theorem EncodingRoundTrip.fcchWalk : EncodingRoundTrip.Statement .fcchWalk := ⟨by decide, by decide⟩

theorem EncodingRoundTrip.fcchScan : EncodingRoundTrip.Statement .fcchScan := ⟨by decide, by decide⟩

theorem EncodingRoundTrip.freqDetect : EncodingRoundTrip.Statement .freqDetect := ⟨by decide, by decide⟩

theorem EncodingRoundTrip.fcchEdump : EncodingRoundTrip.Statement .fcchEdump := ⟨by decide, by decide⟩

theorem EncodingRoundTrip.chanresp : EncodingRoundTrip.Statement .chanresp := ⟨by decide, by decide⟩

theorem EncodingRoundTrip.designDfe : EncodingRoundTrip.Statement .designDfe := ⟨by decide, by decide⟩

theorem EncodingRoundTrip.equalize : EncodingRoundTrip.Statement .equalize := ⟨by decide, by decide⟩

theorem EncodingRoundTrip.parityCheck : EncodingRoundTrip.Statement .parityCheck := ⟨by decide, by decide⟩

theorem EncodingRoundTrip.parityEncode : EncodingRoundTrip.Statement .parityEncode := ⟨by decide, by decide⟩

theorem EncodingRoundTrip.convEncode : EncodingRoundTrip.Statement .convEncode := ⟨by decide, by decide⟩

theorem EncodingRoundTrip.viterbiHard (x : Bool) : EncodingRoundTrip.Statement (.viterbiHard x) := by
  cases x <;> exact ⟨by decide, by decide⟩

theorem EncodingRoundTrip.viterbiSoft (x : Bool) : EncodingRoundTrip.Statement (.viterbiSoft x) := by
  cases x <;> exact ⟨by decide, by decide⟩

theorem EncodingRoundTrip.schFields : EncodingRoundTrip.Statement .schFields := ⟨by decide, by decide⟩

end Sys2Proof.Laws
end

