-- ==== Sys2Proof/Tests/Slice0.lean ====
section
/-!
SUPPORT. Tests on fixed values: the command words written out from R141 and R146, the worked vectors of
spec/95_test_vectors.md (the row is named in each docstring), and for every statement with hypotheses a state that meets
them.
-/
set_option Elab.async false

namespace Sys2Proof.Tests

open Sys2Proof.Machine Sys2Proof.Spec

/-! ## Helpers -/

/-- The bytes of the words `ws` at word address `a`. -/
def cells : Nat → List Word → Memory
  | _, [] => []
  | a, w :: ws =>
    (4 * a, laneOf w 0) :: (4 * a + 1, laneOf w 1) :: (4 * a + 2, laneOf w 2) :: (4 * a + 3, laneOf w 3) :: cells (a + 1) ws

/-- A state after reset with the given arguments and the given DMEM vectors of words, by rising address. -/
def st (args : List Word) (mem : List (Nat × List Word)) : State :=
  { State.reset with
    args := Vector.ofFn fun i => args.getD i 0#32
    mem := mem.flatMap fun v => cells v.1 v.2 }

theorem readWord_cells (ws : List Word) : ∀ (a k : Nat) (h : k < ws.length), (cells a ws).readWord (a + k) = some ws[k] := by
  induction ws with
  | nil => intro a k h; cases h
  | cons w ws ih =>
    intro a k h
    cases k with
    | zero =>
      simp only [cells, Memory.readWord, Memory.readByte, Nat.add_zero, if_true, List.getElem_cons_zero]
      rw [if_neg (by omega), if_neg (by omega), if_neg (by omega), if_neg (by omega), if_neg (by omega), if_neg (by omega)]
      simp [wordOfLanes_laneOf]
    | succ k =>
      have e := ih (a + 1) k (by simpa using h)
      rw [show a + 1 + k = a + (k + 1) by omega] at e
      have skip : ∀ j, 4 * (a + (k + 1)) ≤ j → (cells a (w :: ws)).readByte j = (cells (a + 1) ws).readByte j := by
        intro j hj
        simp only [cells, Memory.readByte]
        rw [if_neg (by omega), if_neg (by omega), if_neg (by omega), if_neg (by omega)]
      simp only [Memory.readWord] at e ⊢
      rw [skip _ (by omega), skip _ (by omega), skip _ (by omega), skip _ (by omega)]
      simpa using e

/-- The next state of an outcome. -/
def nextOf (o : Host.Outcome State Fault Refusal) : Option State :=
  match o with
  | .next t => some t
  | _ => none

/-- The fault of an outcome. -/
def faultOf (o : Host.Outcome State Fault Refusal) : Option Fault :=
  match o with
  | .fault f => some f
  | _ => none

/-- The state after the command word `w`, accepted and performed from `s`. -/
def run (w : Nat) (s : State) : Option State := nextOf (step (s.withFetchWord 32 w))

/-- STATUS after the command word `w`. -/
def stat (w : Nat) (s : State) : Option Word := (run w s).map fun t => t.readReg .status

/-- The first `n` result registers after the command word `w`. -/
def results (w : Nat) (s : State) (n : Nat) : Option (List Word) := (run w s).map fun t => t.res.toList.take n

/-- The words [a, a + n) of DMEM after the command word `w`. -/
def words (w : Nat) (s : State) (a n : Nat) : Option (List (Option Word)) :=
  (run w s).map fun t => (List.range n).map fun k => t.mem.readWord (a + k)

/-- Bits as they stand in a bit vector. -/
def bits (b : List Nat) : List Word := b.map (BitVec.ofNat 32)

/-- A list of words as a real vector. -/
def rv (xs : List Word) (k : Nat) : F32 := xs.getD k 0#32

/-- A list of words, re and im in turn, as a complex vector. -/
def cv (xs : List Word) (k : Nat) : Cplx := ⟨xs.getD (2 * k) 0#32, xs.getD (2 * k + 1) 0#32⟩

/-- A list of words as a bit vector. -/
def bv (xs : List Word) (k : Nat) : Bool := (xs.getD k 0#32).getLsbD 0

/-- A state with one vector holds its words as a real vector. -/
theorem realOn_st (args : List Word) (a : Nat) (ws : List Word) :
    RealOn (st args [(a, ws)]).mem a (List.range ws.length) (rv ws) := by
  intro k hk
  have h := List.mem_range.mp hk
  have e : (st args [(a, ws)]).mem = cells a ws := List.append_nil _
  rw [e, readWord_cells ws a k h, rv, List.getD_eq_getElem _ _ h]

/-- A state with one vector holds its words as a bit vector. -/
theorem bitOn_st (args : List Word) (a : Nat) (ws : List Word) :
    BitOn (st args [(a, ws)]).mem a (List.range ws.length) (bv ws) := by
  intro k hk
  rw [realOn_st args a ws k hk]
  rfl

/-! ## Well-formedness: each check refuses an ill-formed word -/

theorem test_opcodeAssigned_refuses : (CmdFields.mk 0x07#8 false 0#7 0#16).wellFormed = false := by decide
theorem test_rsvdZero_refuses : (CmdFields.mk 0x10#8 false 0#7 1#16).wellFormed = false := by decide
theorem test_flagsZero_refuses : (CmdFields.mk 0x10#8 false 1#7 0#16).wellFormed = false := by decide
theorem test_xAllowed_refuses : (CmdFields.mk 0x10#8 true 0#7 0#16).wellFormed = false := by decide
theorem test_wellFormed_accepts : (CmdFields.mk 0x64#8 true 0#7 0#16).wellFormed = true := by decide

/-! ## Decoding: every command's word, from the table of R146 and the format of R141 -/

theorem test_decode_primitives :
    [0x00#32, 0x10#32, 0x11#32, 0x12#32, 0x13#32, 0x14#32, 0x15#32, 0x16#32, 0x17#32].map (fun w => (decodeWord w).toOption)
      = [some .nop, some .sinc, some .interp, some .peak, some .p2m, some .rot, some .rrot, some .conv, some .convNd] := by
  decide

theorem test_decode_primitives2 :
    [0x18#32, 0x19#32, 0x1A#32, 0x1B#32, 0x1C#32, 0x1D#32, 0x1E#32, 0x1F#32, 0x20#32].map (fun w => (decodeWord w).toOption)
      = [some .corr, some .corrNd, some .delay, some .scale, some .conj, some .sliceSoft, some .slice, some .norm2,
         some .resample] := by
  decide

theorem test_decode_modulator_and_detector :
    [0x30#32, 0x40#32, 0x41#32, 0x42#32, 0x43#32, 0x44#32, 0x45#32, 0x46#32].map (fun w => (decodeWord w).toOption)
      = [some .modulate, some .fcchInit, some .fcchFlush, some .fcchFeed, some .fcchWalk, some .fcchScan, some .freqDetect,
         some .fcchEdump] := by
  decide

theorem test_decode_equalizer_and_decoder :
    [0x50#32, 0x51#32, 0x58#32, 0x60#32, 0x61#32, 0x62#32, 0x63#32, 0x163#32, 0x64#32, 0x164#32, 0x65#32].map
        (fun w => (decodeWord w).toOption)
      = [some .chanresp, some .designDfe, some .equalize, some .parityCheck, some .parityEncode, some .convEncode,
         some (.viterbiHard false), some (.viterbiHard true), some (.viterbiSoft false), some (.viterbiSoft true),
         some .schFields] := by
  decide

/-- 95 E1-E5: reserved opcodes, X where there is none, and reserved bits. -/
theorem test_illegal_words :
    [0x00000007#32, 0x00000110#32, 0x80000000#32, 0x000000FF#32, 0x00000120#32].map (fun w => (decodeWord w).toOption)
      = [none, none, none, none, none] := by
  decide

theorem test_decodeTableWord :
    decodeTableWord 32 0x63 = some (.viterbiHard false) ∧ decodeTableWord 32 0x163 = some (.viterbiHard true)
      ∧ decodeTableWord 32 0x10010 = none := by
  decide

/-- The byte lanes of a word (R107, 95 H7). -/
theorem test_lanes : [0, 1, 2, 3].map (laneOf 0x12345678#32) = [0x78#8, 0x56#8, 0x34#8, 0x12#8] := by decide

/-! ## STATUS, errors and the host interface (95 §2.1, §2.2) -/

/-- 95 H12, E1-E5. -/
theorem test_status_words :
    [0x00, 0x07, 0x110, 0x80000000, 0xFF, 0x120].map (fun w => stat w (st [] []))
      = [some 0x00000002#32, some 0x00070106#32, some 0x00100106#32, some 0x00000106#32, some 0x00FF0106#32,
         some 0x00200106#32] := by
  decide +kernel

/-- 95 H4. -/
theorem test_cfg_registers :
    [Reg.cfgDmemWords, .cfgFftSize, .cfgXcap, .cfgEcap, .cfgGpmax, .cfgFeatures].map State.reset.readReg
      = [0x00100000#32, 0x00000400#32, 0x00002000#32, 0x00100000#32, 0x00404080#32, 0#32] := by
  decide +kernel

/-- 95 H6. -/
theorem test_unwritten_read_faults : faultOf (hostRead (st [] []) .w32 0x1000000#25) = some (.unwritten 0 none) := by
  decide +kernel

/-- 95 H7, through the window. -/
theorem test_dmem_read_after_write :
    (nextOf (hostRead (hostWrite (st [] []) .w32 0x1000014#25 0x12345678#32) .w32 0x1000014#25)).map (·.answer)
      = some (some (.data 0x12345678#32)) := by
  decide +kernel

/-- 95 H15: a write to CMD while BUSY is dropped. -/
theorem test_cmd_lost :
    (nextOf (engineStep (((st [] []).accept 0#32).writeCmd 0x10#32))).map (fun t => (t.readReg .status, t.cmd))
      = some (0x00000022#32, 0#32) := by
  decide +kernel

/-- 95 H19: the soft reset makes the aborted destination unwritten and keeps the sources. -/
theorem test_abort_unwrites_destination :
    let s := (st [0#32, 2#32, 0x10#32, 2#32, 0x100#32] [(0, [1#32, 2#32, 3#32, 4#32]), (0x10, [1#32, 2#32, 3#32, 4#32]),
      (0x100, [1#32, 2#32, 3#32, 4#32, 5#32, 6#32, 7#32])]).accept 0x16#32
    [0x0, 0x100, 0x105, 0x106].map (fun a => (s.writeCtrl 2#32).mem.readWord a) = [some 1#32, none, none, some 7#32] := by
  decide +kernel

/-! ## One or two vectors for each command (95 §1, §2.2-§2.7) -/

/-- 95 P3, P4. -/
theorem test_sinc : results 0x10 (st [0x7FC00000#32] []) 1 = some [0x3F800000#32]
    ∧ results 0x10 (st [0x80000000#32] []) 1 = some [0x3F800000#32] := by
  decide +kernel

/-- 95 E9; and by R203 the only element of a vector at its index is itself. -/
theorem test_interp : stat 0x11 (st [0#32, 5#32, 0x7F800000#32] []) = some 0x00110606#32
    ∧ results 0x11 (st [0#32, 1#32, 0#32] [(0, [0x40400000#32, 0x40800000#32])]) 2
      = some [0x40400000#32, 0x40800000#32] := by
  decide +kernel

/-- 95 E12. -/
theorem test_peak : stat 0x12 (st [] []) = some 0x00120506#32 := by decide +kernel

/-- 95 P11. -/
theorem test_p2m : results 0x13
    (st [0#32, 8#32, 0x41200000#32, 0#32, 3#32, 4#32]
      [(0, [0x3F800000#32, 0#32, 0x3F800000#32, 0#32, 0x3F800000#32, 0#32, 0x41200000#32, 0#32, 0x3F800000#32, 0#32,
        0x3F800000#32, 0#32, 0x3F800000#32, 0#32, 0x40000000#32, 0#32])]) 2 = some [0x40FCFAEF#32, 5#32] := by
  decide +kernel

/-- 95 P12. -/
theorem test_p2m_valley : stat 0x13 (st [0#32, 3#32, 0x3F800000#32, 0#32, 1#32, 1#32] []) = some 0x00130806#32 := by
  decide +kernel

/-- 95 P13. -/
theorem test_rot : words 0x14
    (st [0#32, 2#32, 0#32] [(0, [0x3F800000#32, 0#32, 0x3F800000#32, 0#32])]) 0 4
      = some [some 0x3F800000#32, some 0#32, some 0#32, some 0x3F800000#32] := by
  decide +kernel

/-- 95 P14, E13. -/
theorem test_rot_limit : stat 0x14 (st [0#32, 0#32, 1024#32] []) = some 0x00140002#32
    ∧ stat 0x14 (st [0#32, 25#32, 1000#32] []) = some 0x00140506#32 := by
  decide +kernel

/-- 95 §1.2 property 5, second and fourth element: offset 4 and 6. -/
theorem test_rrot : words 0x15
    (st [0#32, 3#32, 4#32] [(0, [0x40400000#32, 0x40800000#32, 0xC0C00000#32, 0xC0A00000#32, 0xC0E00000#32, 0x41000000#32])])
      0 6
      = some [some 0x40400000#32, some 0x40800000#32, some 0xC0A00000#32, some 0x40C00000#32, some 0x40E00000#32,
          some 0xC1000000#32] := by
  decide +kernel

/-- x and h of 95 P16, and the arguments of the four convolutions. -/
def convState : State :=
  st [0#32, 3#32, 0x10#32, 2#32, 0x100#32]
    [(0, [0x3F800000#32, 0x3F800000#32, 0x40000000#32, 0#32, 0#32, 0xBF800000#32]),
     (0x10, [0x3F800000#32, 0#32, 0#32, 0x3F800000#32])]

/-- 95 P16. -/
theorem test_conv : words 0x16 convState 0x100 9
      = some [some 0x3F800000#32, some 0x3F800000#32, some 0x3F800000#32, some 0x3F800000#32, some 0#32, some 0x3F800000#32,
          some 0x3F800000#32, some 0#32, none]
    ∧ results 0x16 convState 1 = some [4#32] := by
  decide +kernel

/-- 95 E14, E20: LENGTH outranks ALIGN. -/
theorem test_conv_errors : stat 0x16 (st [1#32, 0#32, 0x10#32, 1#32, 0x100#32] []) = some 0x00160506#32
    ∧ stat 0x16 (st [1#32, 2#32, 0x10#32, 1#32, 0x100#32] []) = some 0x00160306#32 := by
  decide +kernel

/-- 95 P18. -/
theorem test_convNd : words 0x17 convState 0x100 7
    = some [some 0x3F800000#32, some 0x3F800000#32, some 0x3F800000#32, some 0x3F800000#32, some 0#32, some 0x3F800000#32,
        none] := by
  decide +kernel

/-- 95 P19. -/
theorem test_corr : (words 0x18 convState 0x100 9).map (fun ws => ws.map (Option.map F32.isZero))
      = some [some false, some false, some false, some false, some false, some true, some true, some false, none]
    ∧ (words 0x18 convState 0x100 4) = some [some 0x3F800000#32, some 0xBF800000#32, some 0x3F800000#32,
      some 0xBF800000#32] := by
  decide +kernel

/-- 95 P20. -/
theorem test_corrNd : words 0x19
    (st [0#32, 3#32, 0#32, 3#32, 0x100#32]
      [(0, [0x3F800000#32, 0x3F800000#32, 0x40000000#32, 0#32, 0#32, 0xBF800000#32])]) 0x100 6
    = some [some 0x40000000#32, some 0x40800000#32, some 0x40E00000#32, some 0#32, some 0x40000000#32,
        some 0xC0800000#32] := by
  decide +kernel

/-- 95 P21, P25: v = [0, 1, 0, 0, 0], real parts. -/
theorem test_delay :
    let v := [0#32, 0#32, 0x3F800000#32, 0#32, 0#32, 0#32, 0#32, 0#32, 0#32, 0#32]
    words 0x1A (st [0#32, 5#32, 0x40000000#32] [(0, v)]) 4 3 = some [some 0#32, some 0#32, some 0x3F800000#32]
      ∧ results 0x1A (st [0#32, 5#32, 0x40000000#32] [(0, v)]) 2 = some [2#32, 0#32]
      ∧ words 0x1A (st [0#32, 5#32, 0xBF800000#32] [(0, v)]) 0 2 = some [some 0x3F800000#32, some 0#32]
      ∧ results 0x1A (st [0#32, 5#32, 0xBF800000#32] [(0, v)]) 2 = some [0xFFFFFFFF#32, 0#32] := by
  decide +kernel

/-- 95 P27. -/
theorem test_scale : words 0x1B (st [0#32, 1#32, 0x10#32, 0x46FFFE00#32] [(0, [0x3F800000#32, 0xC0000000#32])]) 0x10 2
    = some [some 0x46FFFE00#32, some 0xC77FFE00#32] := by
  decide +kernel

/-- 95 E24, E25: a partial overlap is an error, the exact alias is not. -/
theorem test_scale_overlap : stat 0x1B (st [0#32, 4#32, 2#32, 0x40000000#32] []) = some 0x001B0406#32
    ∧ stat 0x1B (st [0#32, 1#32, 0#32, 0x40000000#32] [(0, [0x3F800000#32, 0#32])]) = some 0x001B0002#32 := by
  decide +kernel

/-- 95 P28. -/
theorem test_conj : words 0x1C
    (st [0#32, 2#32, 0x10#32] [(0, [0x3F800000#32, 0x40000000#32, 0x40400000#32, 0x80000000#32])]) 0x10 4
    = some [some 0x3F800000#32, some 0xC0000000#32, some 0x40400000#32, some 0#32] := by
  decide +kernel

/-- 95 P29. -/
theorem test_sliceSoft : words 0x1D
    (st [0#32, 3#32, 0x10#32] [(0, [0x3E4CCCCD#32, 0#32, 0x3F800000#32, 0#32, 0xC0400000#32, 0#32])]) 0x10 3
    = some [some 0x3ECCCCCD#32, some 0#32, some 0x3F800000#32] := by
  decide +kernel

/-- 95 P31, P32: 0, 0.4, 0.5, 0.51, 1, NaN, in place. -/
theorem test_slice : words 0x1E
    (st [0#32, 6#32, 0#32] [(0, [0#32, 0x3ECCCCCD#32, 0x3F000000#32, 0x3F028F5C#32, 0x3F800000#32, 0x7FC00000#32])]) 0 6
    = some [some 0#32, some 0#32, some 0#32, some 1#32, some 1#32, some 0#32] := by
  decide +kernel

/-- 95 P34, P35. -/
theorem test_norm2 : results 0x1F (st [0#32, 1#32] [(0, [0x40400000#32, 0x40800000#32])]) 1 = some [0x41C80000#32]
    ∧ results 0x1F (st [0#32, 0#32] []) 1 = some [0#32] := by
  decide +kernel

/-- 95 E6. -/
theorem test_resample : stat 0x20 (st [] []) = some 0x00200906#32 := by decide +kernel

/-- 95 E7, E26. -/
theorem test_modulate : stat 0x30 (st [0#32, 4#32, 1#32, 0x3F000000#32, 0x100#32] []) = some 0x00300606#32
    ∧ stat 0x30 (st [0#32, 1#32, 1#32, 0x42800000#32, 0x100#32] []) = some 0x00300706#32 := by
  decide +kernel

/-- A detector that is not in its reset state. -/
def usedDetector : State :=
  { st [0#32, 5#32] [] with
    fcch := { Fcch.reset Config.default with d := 1#32, me := 0x3F800000#32, xbuf := [⟨0#32, 0#32⟩], ebuf := [0x3D000000#32]
                                             esum := 0x3D000000#32 }
    td := { TransDet.reset with low := true, count := 4#32 } }

/-- 95 F7. -/
theorem test_fcchInit : (run 0x40 usedDetector).map (fun t => (t.fcch.d, t.fcch.me, t.fcch.ebuf, t.td.low, t.td.count))
    = some (32#32, 0#32, [], false, 0#32) := by
  decide +kernel

/-- 95 F6. -/
theorem test_fcchFlush : (run 0x41 usedDetector).map (fun t => (t.fcch.d, t.fcch.me, t.fcch.ebuf, t.fcch.esum, t.td.low))
    = some (1#32, 0x3F800000#32, [], 0#32, true) := by
  decide +kernel

/-- 95 F1: 18 samples (1, 0) with D = 1. -/
theorem test_fcchFeed :
    let s := st [0#32, 18#32] [(0, (List.replicate 18 [0x3F800000#32, 0#32]).flatten)]
    (run 0x42 { s with fcch := { s.fcch with d := 1#32 } }).map
        (fun t => (t.res[0], t.fcch.ebuf, t.fcch.taps[16], t.fcch.me, t.fcch.xbuf.length))
      = some (1#32, [0x3D000000#32], ⟨0x3DA3D70A#32, 0#32⟩, 0x3D000000#32, 17) := by
  decide +kernel

/-- 95 F8. -/
theorem test_fcchWalk : results 0x43 (st [0#32, 5#32] [(0, List.replicate 10 0#32)]) 5 = some [0#32, 0#32, 5#32, 0#32, 0#32] := by
  decide +kernel

/-- 95 E17, its LENGTH rule: fewer samples than errors. -/
theorem test_fcchWalk_length : stat 0x43 { usedDetector with args := Vector.replicate 16 0#32 } = some 0x00430506#32 := by
  decide +kernel

/-- 95 F9, with 4 samples: they make no error. -/
theorem test_fcchScan : results 0x44 (st [0#32, 4#32] [(0, List.replicate 8 0#32)]) 5
    = some [0#32, 0#32, 4#32, 0#32, 0#32] := by
  decide +kernel

/-- 95 E28. -/
theorem test_freqDetect : stat 0x45 (st [0#32, 1024#32] []) = some 0x00450A06#32 := by decide +kernel

/-- 95 F3, with one error. -/
theorem test_fcchEdump : words 0x46 { usedDetector with args := Vector.replicate 16 0x100#32 } 0x100 2
    = some [some 0x3D000000#32, none] := by
  decide +kernel

/-- 95 Q2: the hysteresis. -/
theorem test_chanresp :
    let s := st [0#32, 2#32, 1#32, 0x3F000000#32, 0x3F800000#32, 0#32, 0x100#32]
      [(0, [0x41200000#32, 0#32, 0x411CCCCD#32, 0#32])]
    results 0x50 s 2 = some [1#32, 0x42C0147B#32] ∧ words 0x50 s 0x100 1 = some [some 0x411CCCCD#32] := by
  decide +kernel

/-- 95 Q7. -/
theorem test_designDfe :
    let s := st [0#32, 1#32, 0x42C80000#32, 2#32, 0x20#32, 0x30#32] [(0, [0x3F800000#32, 0#32])]
    results 0x51 s 1 = some [0x3F8147AF#32] ∧ words 0x51 s 0x22 2 = some [some 0x3F7D771F#32, some 0#32] := by
  decide +kernel

/-- 95 Q9. -/
theorem test_equalize : words 0x58
    (st [0#32, 2#32, 0x10#32, 1#32, 0x20#32, 0#32, 0x40#32]
      [(0, [0x3F800000#32, 0#32, 0#32, 0x3F800000#32]), (0x10, [0x3F800000#32, 0#32])]) 0x40 2
    = some [some 0#32, some 0#32] := by
  decide +kernel

/-- 95 S1: 0^25 1^10. -/
theorem test_parityCheck :
    let s := st [] [(0, bits (List.replicate 25 0 ++ List.replicate 10 1))]
    results 0x60 s 2 = some [0#32, 0x3FF#32] ∧ stat 0x60 s = some 0x0060000A#32 := by
  decide +kernel

/-- 95 S3: bit 0 flipped. -/
theorem test_parityCheck_flip :
    results 0x60 (st [] [(0, bits (1 :: (List.replicate 24 0 ++ List.replicate 10 1)))]) 2 = some [1#32, 0x145#32] := by
  decide +kernel

/-- The information bits of 95 S4 and its parity block. -/
def info : List Nat := [0, 1, 1, 1, 0, 1, 0, 1, 1, 0, 0, 1, 0, 1, 1, 0, 0, 1, 1, 0, 0, 0, 1, 0, 0]
def block : List Nat := info ++ [1, 1, 1, 0, 1, 1, 0, 0, 1, 1]

/-- 95 S6: the code word of `block`. -/
def code : List Nat :=
  [0, 0, 1, 1, 1, 0, 1, 0, 1, 0, 1, 1, 0, 1, 0, 0, 0, 1, 1, 0, 1, 1, 1, 1, 1, 0, 1, 1, 0, 1, 1, 0, 1, 1, 1, 1, 0, 1, 0]
  ++ [1, 1, 1, 0, 0, 0, 0, 0, 1, 0, 0, 0, 0, 0, 1, 1, 0, 1, 0, 1, 1, 1, 0, 1, 0, 1, 1, 1, 1, 0, 1, 0, 1, 1, 1, 0, 0, 1, 1]

/-- 95 S4. -/
theorem test_parityEncode : words 0x61 (st [0x100#32, 0#32] [(0x100, bits info)]) 0 35 = some ((bits block).map some) := by
  decide +kernel

/-- A list of 0 and 1 as bits. -/
def bools (b : List Nat) : List Bool := b.map (· == 1)

/-- 95 S6, the whole code word. -/
theorem test_convEncodeF : convEncodeF (bools block) = bools code := by decide +kernel

/-- `CONV_ENCODE` completes. -/
theorem test_convEncode : stat 0x62 (st [0x100#32, 0#32] [(0x100, bits block)]) = some 0x00620002#32 := by
  decide +kernel

/-- 95 P3: one channel error, at code bit 10; the whole output. -/
theorem test_viterbiF_hard : viterbiF hardMetric (bools (code.set 10 0))
    = { out := block ++ [0, 0, 0, 0], metric := 1, state := 0 } := by
  decide +kernel

/-- 95 S12: ties go to the lower predecessor and the lowest state; the whole output. -/
theorem test_viterbiF_soft : viterbiF softMetric (List.replicate 78 0x3F000000#32)
    = { out := List.replicate 39 0, metric := 0x421C0000#32, state := 0 } := by
  decide +kernel

/-- 95 E31: 1.5 is refused. -/
theorem test_viterbiSoft_data :
    stat 0x64 (st [0x100#32, 0#32] [(0x100, (List.replicate 78 0x3F000000#32).set 7 0x3FC00000#32)])
      = some 0x00640B06#32 := by
  decide +kernel

/-- 95 E33: −0 is in range. -/
theorem test_softInRange : softInRange 0x80000000#32 = true ∧ softInRange 0x7FC00000#32 = false := by decide

/-- 95 S15. -/
theorem test_schFields : results 0x65 (st [] [(0, bits info)]) 6
    = some [43#32, 1234#32, 17#32, 4#32, 41#32, 1637549#32] := by
  decide +kernel

/-- 95 S19: the largest frame number the formula gives. -/
theorem test_schFields_largest : results 0x65
    (st [] [(0, bits ([1, 1, 1, 1, 1, 1, 1, 1, 1, 1, 1, 1, 1, 1, 1, 1, 1, 1] ++ [0, 0, 1, 0, 1, 1, 1]))]) 6
    = some [63#32, 2047#32, 20#32, 7#32, 71#32, 2715668#32] := by
  decide +kernel

/-! ## Witnesses: for every statement with hypotheses, a state and operands that meet them

The witnesses of `ReportsErrors` are the codes a command's first failing check gives, each at a boundary value. -/

theorem witness_illegal_word : ((st [] []).accept 0x10010#32).status.busy = true
    ∧ ¬ ∃ i, decodeWord ((st [] []).accept 0x10010#32).cmd = .ok i := by
  refine ⟨by decide, fun ⟨i, h⟩ => ?_⟩
  have e : decodeWord ((st [] []).accept 0x10010#32).cmd = .error .rsvdNonzero := by decide
  rw [e] at h
  cases h

theorem witness_decode : decodeWord 0x164#32 = .ok (.viterbiSoft true)
    ∧ decode [0x64#8, 0x01#8, 0#8, 0#8, 0xAA#8] = .ok (.viterbiSoft true, [0xAA#8]) := by
  decide

/-- A state with the command word `w` in flight and the turns `agenda` to come. -/
def inFlight (w : Word) (agenda : List Event) (s : State) : State := { s.accept w with agenda := agenda }

theorem witness_step :
    let s := inFlight 0x65#32 [.engine, .reset] (st [] [(0, bits info)])
    s.fault = none ∧ s.agenda = .engine :: [.reset] ∧ s.status.busy = true ∧ decodeWord s.cmd = .ok .schFields := by
  decide +kernel

theorem witness_step_empty_agenda :
    let s := inFlight 0x65#32 [] (st [] [(0, bits info)])
    s.fault = none ∧ s.agenda = [] ∧ s.status.busy = true ∧ decodeWord s.cmd = .ok .schFields := by
  decide +kernel

theorem witness_step_idle : (st [] []).fault = none ∧ (st [] []).agenda = [] ∧ (st [] []).status.busy = false := by
  decide

theorem witness_step_host_and_reset :
    (inFlight 0#32 [.host (.read .w32 0#25)] State.reset).fault = none
    ∧ (inFlight 0#32 [.host (.read .w32 0#25)] State.reset).agenda = .host (.read .w32 0#25) :: []
    ∧ (inFlight 0#32 [.reset] State.reset).agenda = .reset :: [] := by
  decide

theorem witness_command_faults :
    faultOf (exec .schFields (inFlight 0x65#32 [] (st [] [(0, bits (info.take 24))]))) = some (.unwritten 24 (some 0x65#32))
    ∧ { State.reset with fault := some (.unwritten 0 none) }.fault = some (.unwritten 0 none) := by
  decide +kernel

theorem witness_host_read_faults : faultOf (hostAccess State.reset (.read .w32 0x1000000#25)) = some (.unwritten 0 none) := by
  decide +kernel

theorem witness_unwritten_source :
    let s := st [] [(0, bits (info.take 24))]
    24 ∈ wordsRead .schFields s ∧ error .schFields s = none ∧ s.mem.readWord 24 = none := by
  decide +kernel

/-- The last word of the second operand, of a filter tap and of the gathered words of a burst. -/
theorem witness_unwritten_operands :
    let s := st [0#32, 3#32, 0x10#32, 2#32, 0x100#32, 1#32, 0x200#32] []
    [Instr.conv, .convNd, .corr, .corrNd, .equalize].map (fun i => (error i s, decide (0x13 ∈ wordsRead i s)))
      = List.replicate 5 (none, true)
    ∧ error (.viterbiSoft true) (st [0#32, 0x100#32] []) = none
    ∧ 144 ∈ wordsRead (.viterbiSoft true) (st [0#32, 0x100#32] [])
    ∧ error .freqDetect s = none ∧ 5 ∈ wordsRead .freqDetect s := by
  decide +kernel

/-- A `CONV` in flight whose checks pass: 0x100 and 0x105 are the ends of its destination, 0x106 is outside. -/
def convInFlight : State := convState.accept 0x16#32

theorem witness_soft_reset : convInFlight.fault = none ∧ (2#32).getLsbD 1 = true ∧ convInFlight.status.busy = true
    ∧ decodeWord convInFlight.cmd = .ok .conv ∧ Passes .conv convInFlight
    ∧ destinations .conv convInFlight = [(0x100, 8)] := by
  refine ⟨rfl, by decide, by decide +kernel, by decide +kernel, ⟨by decide +kernel, trivial⟩, by decide +kernel⟩

theorem witness_soft_reset_conditions : CheckWordsWritten .conv convInFlight
    ∧ State.reset.fault = none ∧ ¬ (State.reset.status.busy = true) := by
  exact ⟨trivial, rfl, by decide⟩

theorem witness_soft_reset_data_check :
    let s := (st [0x100#32, 0#32] [(0x100, List.replicate 78 0x3F000000#32)]).accept 0x64#32
    decodeWord s.cmd = .ok (.viterbiSoft false) ∧ CheckWordsWritten (.viterbiSoft false) s := by
  refine ⟨by decide +kernel, fun _ k hk => ?_⟩
  exact Option.isSome_iff_exists.mpr ⟨_, realOn_st [0x100#32, 0#32] 0x100 (List.replicate 78 0x3F000000#32) k hk⟩

theorem witness_idle_and_busy : State.reset.status.busy = false ∧ (State.reset.accept 0#32).status.busy = true := by decide

theorem witness_completions :
    (nextOf (exec .nop State.reset)).map (·.status.errcode) = some .none
    ∧ (nextOf (exec .peak State.reset)).map (·.status.errcode) = some .length
    ∧ (nextOf (exec .parityCheck (st [] [(0, bits block)]))).map (·.status.detect) = some true := by
  decide +kernel

theorem witness_interrupt :
    ({ State.reset with irqEn := true, status := { Status.reset with done := true } } : State).irq = true
    ∧ (2#32).getLsbD 1 = true
    ∧ WritesTo State.reset 0x00C 2#32 State.reset ∧ WritesTo State.reset 0x008 1#32 { State.reset with irqEn := true }
    ∧ WritesTo State.reset 0x010 0#32 (State.reset.accept 0#32) := by
  refine ⟨by decide, by decide, ?_, ?_, ?_⟩ <;> unfold WritesTo <;> decide +kernel

theorem witness_register_reads :
    Config.default.gpMax < 2 ^ 8 ∧ Config.default.nfMax < 2 ^ 8 ∧ Config.default.hMax < 2 ^ 8 ∧ Config.default.gpMax ≤ 128
    ∧ [0x014, 0x01C, 0x0D8, 0x0FC, 0x188, 0x1FC, 0x400, 0xFFFFFC, 0x1400000, 0x1FFFFFC].map
        (fun off => (decide (off % 4 = 0), decide (off < 2 ^ 25), reservedOffset Config.default off))
      = List.replicate 10 (true, true, true)
    ∧ State.reset.pulse.samples.length < 2 ^ 16 := by
  decide +kernel

theorem witness_register_writes :
    [0x000, 0x00C, 0x010, 0x01C, 0x060, 0x07C, 0x094, 0x0FC, 0x188, 0xFFFFFC].map
      (fun off => (decide (off % 4 = 0), writableReg off))
      = [(true, false), (true, true), (true, true), (true, false), (true, false), (true, false), (true, false), (true, false),
         (true, false), (true, false)]
    ∧ [0x008, 0x020, 0x05C, 0x080, 0x090, 0x100, 0x184].map writableReg = List.replicate 7 true
    ∧ State.reset.status.busy = false ∧ (1#32).getLsbD 1 = false := by
  decide

theorem witness_refused_offsets :
    [0x020, 0x05C, 0x080, 0x0BC, 0x100, 0x184, 0x200, 0x3FC, 0x1000000, 0x13FFFFC].map (refusedWhileBusy Config.default)
      = List.replicate 10 true
    ∧ [0x000, 0x01C, 0x060, 0x07C, 0x0C0, 0x0D4, 0x188, 0x400, 0xFFFFFC, 0x1400000].map (refusedWhileBusy Config.default)
      = List.replicate 10 false
    ∧ (State.reset.accept 0#32).status.busy = true := by
  decide +kernel

theorem witness_bus_error : Width.w16 ≠ .w32 ∧ (0x1000002#25).toNat % 4 ≠ 0 := by decide

theorem witness_dmem_access :
    let s := st [] [(1048575, [7#32])]
    s.status.busy = false ∧ 1048575 < s.cfg.dmemWords ∧ s.cfg.dmemWords ≤ 2 ^ 22 ∧ s.mem.readWord 1048575 = some 7#32
      ∧ s.mem.readWord 0 = none := by
  decide +kernel

/-- The flags (ACC_VIOL, CMD_LOST) after one turn `e` of a state where they are `acc` and `lost`. -/
def flagsAfter (busy acc lost : Bool) (e : Event) : Option (Bool × Bool) :=
  let s : State := { State.reset with status := { Status.reset with busy := busy, accViol := acc, cmdLost := lost }
                                      agenda := [e] }
  (nextOf (step s)).map fun t => (t.status.accViol, t.status.cmdLost)

theorem witness_sticky_set :
    flagsAfter true false false (.host (.read .w32 0x020#25)) = some (true, false)
    ∧ flagsAfter true false false (.host (.write .w32 0x13FFFFC#25 0#32)) = some (true, false)
    ∧ flagsAfter true false false (.host (.write .w32 0x010#25 0#32)) = some (false, true) := by
  decide +kernel

theorem witness_sticky_cleared :
    flagsAfter false true true (.host (.write .w32 0x00C#25 0x10#32)) = some (false, true)
    ∧ flagsAfter false true true (.host (.write .w32 0x00C#25 0x20#32)) = some (true, false)
    ∧ flagsAfter true true true (.host (.write .w32 0x008#25 2#32)) = some (false, false)
    ∧ flagsAfter true true true .reset = some (false, false) := by
  decide +kernel

theorem witness_error_completion :
    (nextOf (exec .norm2 (st [0xFFFFE#32, 2#32] []))).map (fun t => (t.status.err, t.status.errcode)) = some (true, .range) := by
  decide +kernel

theorem witness_frame : (nextOf (exec .conv convState)).isSome = true := by decide +kernel

theorem witness_undisturbed :
    decodeWord convInFlight.cmd = .ok .conv
    ∧ (nextOf (hostAccess convInFlight (.write .w32 0x1000000#25 9#32))).map (·.status.accViol) = some true
    ∧ (nextOf (hostAccess convInFlight (.write .w32 0x008#25 1#32))).map (·.irqEn) = some true
    ∧ (1#32).getLsbD 1 = false := by
  decide +kernel

/-- The engine's step of an illegal word in flight, and of a command that reads an unwritten word. -/
theorem witness_undisturbed_outcomes :
    (nextOf (engineStep ((st [] []).accept 0x10010#32))).map (·.status.errcode) = some .illegal
    ∧ faultOf (engineStep { convInFlight with mem := [] }) = some (.unwritten 0x10 (some 0x16#32)) := by
  decide +kernel

theorem witness_invariant : State.reset.Inv ∧ step State.reset = .next State.reset ∧ State.reset.cfg.wf = true := by
  refine ⟨⟨rfl, List.Pairwise.nil, ?_, ?_, ?_, ?_, ⟨fun _ => ⟨rfl, rfl⟩, ?_⟩, ⟨?_, ?_, ?_, rfl⟩⟩, rfl, by decide⟩ <;> decide

/-! ### Commands: the operands of a completion -/

theorem witness_interp :
    let m := [0x40400000#32, 0x40800000#32]
    let s := st [0#32, 1#32, 0#32] [(0, m)]
    error .interp s = none ∧ interpRange 1 0#32 = [0] ∧ CplxOn s.mem 0 [0] (cv m) := by
  decide +kernel

theorem witness_interp_errors :
    [st [0#32, 5#32, 0x7F800000#32] [], st [0#32, 5#32, 0x4F000000#32] [], st [1#32, 5#32, 0#32] [],
      st [0xFFFFE#32, 2#32, 0#32] []].map (error .interp)
      = [some .value, some .value, some .align, some .range] := by
  decide +kernel

theorem witness_peak :
    let m := [0x40400000#32, 0x40800000#32]
    let s := st [0#32, 1#32] [(0, m)]
    error .peak s = none ∧ CplxOn s.mem 0 (List.range 1) (cv m) := by
  decide +kernel

theorem witness_peak_errors :
    [st [] [], st [1#32, 1#32] [], st [0xFFFFE#32, 2#32] []].map (error .peak)
      = [some .length, some .align, some .range] := by
  decide +kernel

theorem witness_p2m :
    let m := [0x3F800000#32, 0#32, 0x3F800000#32, 0#32, 0x3F800000#32, 0#32, 0x3F800000#32, 0#32]
    let s := st [0#32, 4#32, 0x3F800000#32, 0#32, 0#32, 2#32] [(0, m)]
    error .p2m s = none ∧ valley 4 0 2 = [2, 3] ∧ CplxOn s.mem 0 [2, 3] (cv m) := by
  decide +kernel

theorem witness_p2m_errors :
    [st [1#32] [], st [0xFFFFE#32, 2#32] [], st [0#32, 3#32, 0#32, 0#32, 0#32, 4#32] []].map (error .p2m)
      = [some .align, some .range, some .valley] := by
  decide +kernel

theorem witness_rotations :
    let m := [0x3F800000#32, 0#32, 0x3F800000#32, 0#32]
    let s := st [0#32, 2#32, 1022#32] [(0, m)]
    error .rot s = none ∧ error .rrot s = none ∧ CplxOn s.mem 0 (List.range 2) (cv m) := by
  decide +kernel

theorem witness_rotations_errors :
    [st [0#32, 25#32, 1000#32] [], st [1#32] [], st [0xFFFFE#32, 2#32] []].map (fun s => (error .rot s, error .rrot s))
      = [(some .length, some .length), (some .align, some .align), (some .range, some .range)] := by
  decide +kernel

theorem witness_rrot_undoes_rot : F32.isFinite 0x7F7FFFFF#32 = true ∧ F32.isFinite 0x80000000#32 = true := by decide

theorem witness_convolutions :
    let x := [0x3F800000#32, 0x3F800000#32, 0x40000000#32, 0#32, 0#32, 0xBF800000#32]
    let h := [0x3F800000#32, 0#32, 0#32, 0x3F800000#32]
    CplxOn convState.mem 0 (List.range 3) (cv x) ∧ CplxOn convState.mem 0x10 (List.range 2) (cv h)
      ∧ error .conv convState = none ∧ error .convNd convState = none ∧ error .corr convState = none
      ∧ error .corrNd convState = none := by
  decide +kernel

theorem witness_convolutions_errors :
    [st [0#32, 1#32, 0x10#32, 0#32, 0x100#32] [], st [0#32, 1#32, 0x11#32, 1#32, 0x100#32] [],
      st [0#32, 1#32, 0x10#32, 1#32, 0x100000#32] [], st [0#32, 2#32, 0x10#32, 1#32, 2#32] []].map
        (fun s => [error .conv s, error .convNd s, error .corr s, error .corrNd s])
      = [.length, .align, .range, .overlap].map fun c => List.replicate 4 (some c) := by
  decide +kernel

theorem witness_delay :
    let m := [0x3F800000#32, 0#32, 0#32, 0#32]
    let s := st [0#32, 2#32, 0xCF000000#32] [(0, m)]
    error .delay s = none ∧ CplxOn s.mem 0 (List.range 2) (cv m) := by
  decide +kernel

theorem witness_delay_errors :
    [st [0#32, 5#32, 0x4F000000#32] [], st [1#32, 5#32, 0#32] [], st [0xFFFFE#32, 2#32, 0#32] []].map (error .delay)
      = [some .value, some .align, some .range] := by
  decide +kernel

theorem witness_scale_and_conj :
    let m := [0x3F800000#32, 0#32, 0x40000000#32, 0#32]
    let s := st [0#32, 2#32, 0#32, 0x40000000#32] [(0, m)]
    CplxOn s.mem 0 (List.range 2) (cv m) ∧ error .scale s = none ∧ error .conj s = none := by
  decide +kernel

theorem witness_scale_and_conj_errors :
    [st [1#32] [], st [0xFFFFE#32, 2#32] [], st [0#32, 4#32, 2#32] []].map (fun s => (error .scale s, error .conj s))
      = [(some .align, some .align), (some .range, some .range), (some .overlap, some .overlap)] := by
  decide +kernel

theorem witness_slices :
    let m := [0x3F800000#32, 0#32, 0x40000000#32, 0#32]
    let s := st [0#32, 2#32, 4#32] [(0, m)]
    CplxOn s.mem 0 (List.range 2) (cv m) ∧ error .sliceSoft s = none ∧ RealOn s.mem 0 (List.range 2) (rv m)
      ∧ error .slice s = none := by
  decide +kernel

theorem witness_slices_errors :
    [st [1#32] [], st [0xFFFFE#32, 2#32] [], st [0#32, 2#32, 3#32] []].map (error .sliceSoft)
      = [some .align, some .range, some .overlap]
    ∧ [st [0xFFFFE#32, 3#32] [], st [0#32, 2#32, 1#32] []].map (error .slice) = [some .range, some .overlap] := by
  decide +kernel

theorem witness_norm2 :
    let m := [0x40400000#32, 0x40800000#32]
    let s := st [0#32, 1#32] [(0, m)]
    error .norm2 s = none ∧ CplxOn s.mem 0 (List.range 1) (cv m) := by
  decide +kernel

theorem witness_norm2_errors : [st [1#32] [], st [0xFFFFE#32, 2#32] []].map (error .norm2) = [some .align, some .range] := by
  decide +kernel

/-- With the feature, 0 source elements and DMEM as long as the open length function asks for. -/
theorem witness_resample :
    let s : State := { st [0#32, 0#32, 0#32, 1#32, 1#32] [] with
      cfg := { Config.default with resample := true, dmemWords := 2 * Config.resampleLen 0 1 1 } }
    error .resample s = none ∧ CplxOn s.mem (s.argN 0) (List.range (s.argN 1)) fun _ => ⟨0#32, 0#32⟩ := by
  simp only
  refine ⟨?_, fun k hk => nomatch hk⟩
  simp [error, checkList, fitsC, fits, apart, even, State.argN, State.arg, st, State.reset, State.resetOf, Vector.ofFn]

theorem witness_resample_errors :
    let s : State := { st [0#32, 0#32, 0#32, 0#32, 1#32] [] with cfg := { Config.default with resample := true } }
    error .resample State.reset = some .unimpl ∧ error .resample s = some .length ∧ State.reset.cfg.resample = false := by
  decide +kernel

theorem witness_modulate :
    let s := st [0#32, 2#32, 1#32, 0x3F800000#32, 0x100#32] [(0, [1#32, 0#32])]
    error .modulate s = none ∧ BitOn s.mem 0 (List.range 2) (bv [1#32, 0#32])
      ∧ (F32.isFinite (s.argF 3) && F32.le 0x3F800000#32 (s.argF 3)) = true
      ∧ F32.isFinite (F32.mul (s.argF 3) (F32.ofInt (s.argN 1 + s.argN 2 : Nat))) = true := by
  decide +kernel

theorem witness_modulate_errors :
    [st [0#32, 4#32, 1#32, 0x3F7FFFFF#32, 0x100#32] [], st [0#32, 1024#32, 1#32, 0x3F800000#32, 0x1000#32] [],
      st [0#32, 4#32, 1#32, 0x3F800000#32, 0x101#32] [], st [0xFFFFE#32, 3#32, 1#32, 0x3F800000#32, 0x100#32] [],
      st [0#32, 4#32, 1#32, 0x3F800000#32, 2#32] [], st [0#32, 1#32, 1#32, 0x42800000#32, 0x100#32] []].map
        (error .modulate)
      = [some .value, some .length, some .align, some .range, some .overlap, some .capacity] := by
  decide +kernel

/-- A pulse cache built at sps = 1 with another pulse of one sample. -/
theorem witness_modulate_cached :
    let s : State := { st [0#32, 1#32, 1#32, 0x42800000#32, 0x100#32] [(0, [1#32])] with
      pulse := { valid := true, sps := 0x3F800000#32, samples := [0x3F800000#32] } }
    error .modulate s = none ∧ BitOn s.mem 0 (List.range 1) (bv [1#32]) ∧ s.pulse.valid = true := by
  decide +kernel

theorem witness_feed :
    let m := [0x3F800000#32, 0#32, 0x40000000#32, 0#32]
    let s := st [0#32, 2#32] [(0, m)]
    error .fcchFeed s = none ∧ CplxOn s.mem 0 (List.range 2) (cv m) ∧ s.fcch.xbuf.length < 17 + s.fcch.d.toNat := by
  decide +kernel

theorem witness_feed_errors :
    [st [1#32] [], st [0xFFFFE#32, 2#32] [], { st [0#32, 1#32] [] with fcch := { Fcch.reset Config.default with d := 8176#32 } }].map
        (error .fcchFeed)
      = [some .align, some .range, some .capacity] := by
  decide +kernel

/-- Two samples in one part, and in two parts of one. -/
theorem witness_feed_in_parts :
    let s := st [] [(0, [0x3F800000#32, 0#32, 0x40000000#32, 0#32])]
    let at_ (q : State) (addr len : Nat) : State :=
      { q with args := (q.args.set 0 (BitVec.ofNat 32 addr)).set 1 (BitVec.ofNat 32 len) }
    0 + 2 * (1 + 1) ≤ s.cfg.dmemWords ∧ s.cfg.dmemWords ≤ 2 ^ 22
    ∧ (nextOf (exec .fcchFeed (at_ s 0 2))).map (·.status.err) = some false
    ∧ ((nextOf (exec .fcchFeed (at_ s 0 1))).bind fun u => nextOf (exec .fcchFeed (at_ u 2 1))).map (·.status.err)
      = some false := by
  decide +kernel

theorem witness_walk :
    let m := List.replicate 2 0#32
    let s := { st [0#32, 1#32] [(0, m)] with fcch := usedDetector.fcch }
    error .fcchWalk s = none ∧ CplxOn s.mem 0 (List.range 1) (cv m) := by
  decide +kernel

theorem witness_walk_errors :
    [{ State.reset with sampleRate := 0#32 }, { State.reset with fcch := usedDetector.fcch }, st [1#32] [],
      st [0xFFFFE#32, 2#32] [], { State.reset with sampleRate := 0x4A043E2B#32 }].map (error .fcchWalk)
      = [some .value, some .length, some .align, some .range, some .fftsize] := by
  decide +kernel

theorem witness_scan :
    let m := List.replicate 4 0#32
    let s := st [0#32, 2#32] [(0, m)]
    error .fcchScan s = none ∧ CplxOn s.mem 0 (List.range 2) (cv m) := by
  decide +kernel

theorem witness_scan_errors :
    [{ State.reset with sampleRate := 0#32 }, st [1#32] [], st [0xFFFFE#32, 2#32] [],
      { State.reset with fcch := { Fcch.reset Config.default with d := 8176#32 } },
      { State.reset with sampleRate := 0x4A043E2B#32 }].map (error .fcchScan)
      = [some .value, some .align, some .range, some .capacity, some .fftsize] := by
  decide +kernel

theorem witness_freqDetect :
    let m := List.replicate 4 0#32
    let s := st [0#32, 2#32] [(0, m)]
    error .freqDetect s = none ∧ CplxOn s.mem 0 (List.range 2) (cv m)
      ∧ error .freqDetect (st [0#32, 1023#32] []) = none := by
  decide +kernel

theorem witness_freqDetect_errors :
    [{ State.reset with sampleRate := 0x7F800000#32 }, st [] [], st [1#32, 1#32] [], st [0xFFFFE#32, 2#32] [],
      st [0#32, 1024#32] []].map (error .freqDetect)
      = [some .value, some .length, some .align, some .range, some .fftsize] := by
  decide +kernel

theorem witness_edump :
    error .fcchEdump { usedDetector with args := Vector.replicate 16 0xFFFFF#32 } = none
    ∧ error .fcchEdump { usedDetector with args := Vector.replicate 16 0x100000#32 } = some .range := by
  decide +kernel

theorem witness_chanresp :
    let m := [0x41200000#32, 0#32, 0x411CCCCD#32, 0#32]
    let s := st [0#32, 2#32, 1#32, 0x3F000000#32, 0x3F800000#32, 0#32, 0x100#32] [(0, m)]
    error .chanresp s = none ∧ CplxOn s.mem 0 (List.range 2) (cv m) := by
  decide +kernel

theorem witness_chanresp_errors :
    [st [0#32, 2#32, 1#32, 0x4F000000#32] [], st [0#32, 3#32, 1#32, 0xBF000000#32] [],
      st [1#32, 2#32, 1#32, 0#32, 0#32, 0#32, 0x100#32] [], st [0#32, 2#32, 1#32, 0#32, 0#32, 0#32, 0x100000#32] [],
      st [0#32, 2#32, 1#32, 0#32, 0#32, 0#32, 2#32] []].map (error .chanresp)
      = [some .value, some .length, some .align, some .range, some .overlap] := by
  decide +kernel

theorem witness_designDfe :
    let m := [0x3F800000#32, 0#32]
    let s := st [0#32, 1#32, 0x42C80000#32, 2#32, 0x20#32, 0x30#32] [(0, m)]
    error .designDfe s = none ∧ CplxOn s.mem 0 (List.range 1) (cv m) := by
  decide +kernel

theorem witness_designDfe_errors :
    [st [0#32, 1#32, 0#32, 3#32, 0x20#32, 0x30#32] [], st [0#32, 1#32, 0x42C80000#32, 1#32, 0x20#32, 0x30#32] [],
      st [0#32, 65#32, 0x42C80000#32, 2#32, 0x100#32, 0x200#32] [],
      st [0#32, 1#32, 0x42C80000#32, 2#32, 0x21#32, 0x30#32] [], st [0#32, 1#32, 0x42C80000#32, 2#32, 0xFFFFE#32, 0x30#32] [],
      st [0#32, 2#32, 0x42C80000#32, 2#32, 0x20#32, 0x22#32] []].map (error .designDfe)
      = [some .value, some .length, some .length, some .align, some .range, some .overlap] := by
  decide +kernel

theorem witness_equalize :
    let v := [0x3F800000#32, 0#32, 0#32, 0x3F800000#32]
    let f := [0x3F800000#32, 0#32]
    let s := st [0#32, 2#32, 0x10#32, 1#32, 0x20#32, 1#32, 0x40#32] [(0, v), (0x10, f), (0x20, f)]
    error .equalize s = none ∧ CplxOn s.mem 0 (List.range 2) (cv v) ∧ CplxOn s.mem 0x10 (List.range 1) (cv f)
      ∧ CplxOn s.mem 0x20 (List.range 1) (cv f) := by
  decide +kernel

theorem witness_equalize_errors :
    [st [0#32, 1025#32, 0#32, 1#32] [], st [1#32, 1#32, 0x10#32, 1#32, 0x20#32, 1#32, 0x40#32] [],
      st [0#32, 2#32, 0x10#32, 1#32, 0x20#32, 1#32, 0xFFFFF#32] [], st [0#32, 2#32, 0x10#32, 1#32, 0x20#32, 1#32, 3#32] []].map
        (error .equalize)
      = [some .length, some .align, some .range, some .overlap] := by
  decide +kernel

theorem witness_parity_check :
    let s := st [] [(0, bits block)]
    error .parityCheck s = none ∧ BitOn s.mem 0 (List.range 35) (bv (bits block))
      ∧ error .parityCheck (st [0xFFFDE#32] []) = some .range := by
  decide +kernel

theorem witness_parity_encode :
    let s := st [0#32, 0x20#32] [(0, bits info)]
    error .parityEncode s = none ∧ BitOn s.mem 0 (List.range 25) (bv (bits info))
      ∧ error .parityEncode (st [0xFFFE8#32] []) = some .range ∧ error .parityEncode (st [0#32, 24#32] []) = some .overlap := by
  decide +kernel

theorem witness_parity_codewords : (bools info).length = 25 ∧ (bools block).length = 35
    ∧ (residueF (bools block)).all id = true := by
  decide +kernel

theorem witness_conv_encode :
    let s := st [0#32, 0x80#32] [(0, bits block)]
    error .convEncode s = none ∧ BitOn s.mem 0 (List.range 35) (bv (bits block))
      ∧ error .convEncode (st [0xFFFDE#32] []) = some .range ∧ error .convEncode (st [0#32, 34#32] []) = some .overlap := by
  decide +kernel

theorem witness_viterbi_hard :
    let s := st [0#32, 0x80#32] [(0, bits code)]
    error (.viterbiHard false) s = none ∧ BitOn s.mem 0 (gathered false) (bv (bits code))
      ∧ error (.viterbiHard false) (st [0#32, 77#32] []) = some .overlap
      ∧ error (.viterbiHard true) (st [0xFFF70#32] []) = some .range :=
  ⟨by decide +kernel, bitOn_st _ 0 (bits code), by decide +kernel⟩

/-- With X, on a burst of 145 words. -/
theorem witness_viterbi_x :
    let m := List.replicate 145 0x3F800000#32
    let s := st [0#32, 145#32] [(0, m)]
    error (.viterbiHard true) s = none ∧ error (.viterbiSoft true) s = none ∧ BitOn s.mem 0 (gathered true) (bv m)
      ∧ RealOn s.mem 0 (gathered true) (rv m)
      ∧ ∀ k ∈ gathered true, (F32.le 0#32 (rv m k) && F32.le (rv m k) 0x3F800000#32) = true := by
  have sub : ∀ k ∈ gathered true, k ∈ List.range 145 := by decide +kernel
  exact ⟨by decide +kernel, by decide +kernel, fun k hk => bitOn_st _ 0 (List.replicate 145 0x3F800000#32) k (sub k hk),
    fun k hk => realOn_st _ 0 (List.replicate 145 0x3F800000#32) k (sub k hk), by decide +kernel⟩

theorem witness_viterbi_soft :
    let m := List.replicate 78 0x3F800000#32
    let s := st [0#32, 78#32] [(0, m)]
    error (.viterbiSoft false) s = none ∧ RealOn s.mem 0 (gathered false) (rv m)
      ∧ ∀ k ∈ gathered false, (F32.le 0#32 (rv m k) && F32.le (rv m k) 0x3F800000#32) = true :=
  ⟨by decide +kernel, realOn_st _ 0 (List.replicate 78 0x3F800000#32), by decide +kernel⟩

theorem witness_viterbi_soft_data :
    let m := (List.replicate 78 0x3F000000#32).set 77 0x3F800001#32
    let s := st [0#32, 78#32] [(0, m)]
    error (.viterbiSoft false) s = none ∧ RealOn s.mem 0 (gathered false) (rv m)
      ∧ (∃ k ∈ gathered false, (F32.le 0#32 (rv m k) && F32.le (rv m k) 0x3F800000#32) = false)
      ∧ error (.viterbiSoft true) (st [0xFFF70#32] []) = some .range
      ∧ error (.viterbiSoft true) (st [0#32, 144#32] []) = some .overlap :=
  ⟨by decide +kernel, realOn_st _ 0 ((List.replicate 78 0x3F000000#32).set 77 0x3F800001#32), by decide +kernel⟩

theorem witness_decoder_input : (bools block).length = 35 := by decide

theorem witness_sch_fields :
    let s := st [] [(0, bits info)]
    error .schFields s = none ∧ BitOn s.mem 0 (List.range 25) (bv (bits info))
      ∧ error .schFields (st [0xFFFE8#32] []) = some .range := by
  decide +kernel

end Sys2Proof.Tests
end

/-!
PROOFS. A turn of the agenda is the turn of the agent it names (00_scope.md R26; 60_exceptions.md R421, R446;
70_reset_and_hazards.md R450).
-/
namespace Sys2Proof.Proofs

open Sys2Proof.Machine Sys2Proof.Spec

/-! ## The engine's turn -/

/-- R421: with a command in flight the engine's turn is that command's meaning. -/
theorem engineStep_of_decode {s : State} {i : Instr} (hb : s.status.busy = true) (hi : decodeWord s.cmd = .ok i) :
    engineStep s = exec i s := by
  simp only [engineStep, if_pos hb, hi]

/-- R446: with no command in flight the engine's turn changes nothing. -/
theorem engineStep_of_idle {s : State} (hb : s.status.busy = false) : engineStep s = .next s := by
  simp [engineStep, hb]

/-! ## One turn of each agent -/

theorem step_of_engine_turn {s : State} {rest : List Event} (hf : s.fault = none) (ha : s.agenda = .engine :: rest) :
    step s = engineStep { s with agenda := rest } := by
  simp only [step, hf, ha]

/-- An empty agenda is the engine's turn, which uses up nothing (log entry 1). -/
theorem step_of_empty_agenda {s : State} (hf : s.fault = none) (ha : s.agenda = []) : step s = engineStep s := by
  simp only [step, hf, ha]

theorem step_of_host_turn {s : State} {a : Access} {rest : List Event} (hf : s.fault = none)
    (ha : s.agenda = .host a :: rest) : step s = hostAccess { s with agenda := rest } a := by
  simp only [step, hf, ha]

theorem step_of_reset_turn {s : State} {rest : List Event} (hf : s.fault = none) (ha : s.agenda = .reset :: rest) :
    step s = .next { s with agenda := rest }.hardReset := by
  simp only [step, hf, ha]

/-- The engine's turn, named in the agenda or the turn of an empty one, is the engine's step in the state that has used up the
turn. -/
theorem step_of_engine_due {s : State} {rest : List Event} (hf : s.fault = none)
    (ha : s.agenda = .engine :: rest ∨ (s.agenda = [] ∧ rest = [])) : step s = engineStep { s with agenda := rest } := by
  rcases ha with ha | ⟨ha, rfl⟩
  · exact step_of_engine_turn hf ha
  · have used : { s with agenda := [] } = s := by rw [← ha]
    rw [used, step_of_empty_agenda hf ha]

/-- Settles O4: the engine's turn by `step_of_engine_due`, the others by the agenda's head. -/
theorem stepRunsTheDecodedCommand : Obligations.StepRunsTheDecodedCommand := by
  intro s rest hf
  refine ⟨fun ha => ?_, fun a ha => step_of_host_turn hf ha, fun ha => step_of_reset_turn hf ha⟩
  have engine := step_of_engine_due hf ha
  exact ⟨engine, fun i hb hi => engine.trans (engineStep_of_decode hb hi), fun hb => engine.trans (engineStep_of_idle hb)⟩

end Sys2Proof.Proofs

/-!
PROOFS. How any command ends, said once: the error completion of its first failing check, or `Spec.Done` of its whole effect
(10_state.md R59; 60_exceptions.md R413, R414, R421). A command's own proof then gives its checks and its effect.
-/
namespace Sys2Proof.Proofs

open Sys2Proof.Machine Sys2Proof.Spec

/-! ## Checks -/

/-- The two spellings of "the address is a multiple of 2" (R101). -/
theorem isEven_eq_even (a : Nat) : isEven a = even a := by
  rw [Bool.eq_iff_iff, isEven_iff, even, decide_eq_true_iff, Nat.dvd_iff_mod_eq_zero]

/-- The model's checks report what the first failing condition of the Spec's list reports, when the lists are the same. -/
theorem pureChecks_eq_error {i : Instr} {s : State} {cs : List (Bool × ErrCode)} (h : cs = checkList i s) :
    pureChecks cs = .ok (Spec.error i s) := by
  rw [pureChecks, firstFailing_eq_find, h]
  rfl

/-- No code is reported exactly when every condition of the list holds (R413). -/
theorem error_eq_none {i : Instr} {s : State} : Spec.error i s = none ↔ ∀ p ∈ checkList i s, p.1 = true := by
  simp [Spec.error]

/-- R414: a command whose checks report what the Spec's list reports ends with that code. -/
theorem reportsErrors_of_checks {i : Instr} (h : ∀ s, checksOf i s = .ok (Spec.error i s)) : ReportsErrors i := by
  intro s c hc
  rw [exec_eq_perform, perform_of_error ((h s).trans (congrArg Except.ok hc))]
  rfl

/-! ## Result registers -/

/-- A result register that no write of the list names keeps its value. -/
theorem foldl_set_other (rs : List (Fin 8 × Word)) (r : Vector Word 8) {i : Fin 8} (h : ∀ p ∈ rs, p.1 ≠ i) :
    (rs.foldl (fun r v => r.set v.1 v.2) r)[i] = r[i] := by
  induction rs generalizing r with
  | nil => rfl
  | cons p rs ih =>
    have hp : p.1.val ≠ i.val := fun e => h p List.mem_cons_self (Fin.ext e)
    rw [List.foldl_cons, ih _ fun q hq => h q (List.mem_cons_of_mem _ hq)]
    exact Vector.getElem_set_ne _ _ hp

/-- Each of several writes to different result registers reads back. -/
theorem foldl_set_same {rs : List (Fin 8 × Word)} (hn : (rs.map Prod.fst).Nodup) (r : Vector Word 8) {p : Fin 8 × Word}
    (hp : p ∈ rs) : (rs.foldl (fun r v => r.set v.1 v.2) r)[p.1] = p.2 := by
  induction rs generalizing r with
  | nil => cases hp
  | cons q rs ih =>
    rw [List.map_cons, List.nodup_cons] at hn
    obtain ⟨hq, hn⟩ := hn
    rw [List.foldl_cons]
    rcases List.mem_cons.1 hp with rfl | hp
    · have later : ∀ u ∈ rs, u.1 ≠ p.1 := fun u hu e => hq (List.mem_map.2 ⟨u, hu, e⟩)
      rw [foldl_set_other _ _ later]
      exact Vector.getElem_set_self _
    · exact ih hn _ hp

/-- No command names a result register twice (R145). -/
theorem resultRegs_nodup (i : Instr) : (resultRegs i).Nodup := by
  cases i <;> simp [resultRegs]

/-! ## The whole effect -/

/-- `State.apply` writes exactly its effect, where the stored vectors are disjoint and the results go to different registers
(R113, R421). -/
theorem done_apply {s : State} {e : Effect}
    (hs : e.stores.Pairwise fun v w => disjoint v.1 v.2.length w.1 w.2.length = true) (hr : (e.results.map Prod.fst).Nodup) :
    Done s (s.apply e) e.stores e.results e.detect (e.fcch.getD s.fcch) (e.td.getD s.td) (e.pulse.getD s.pulse) where
  status := rfl
  stored v hv k hk := by rw [State.apply_mem, Memory.readWord_stores hs _ hv hk]
  elsewhere b hb := by rw [State.apply_mem, Memory.readByte_stores_other _ _ _ hb]
  result p hp := by rw [State.apply_res, foldl_set_same hr _ hp]
  otherResults i hi := by rw [State.apply_res, foldl_set_other _ _ hi]
  fcchIs := rfl
  tdIs := rfl
  pulseIs := rfl
  args := State.apply_args s e
  cmd := State.apply_cmd s e
  sampleRate := State.apply_sampleRate s e
  irqEn := State.apply_irqEn s e
  cfg := State.apply_cfg s e
  fault := State.apply_fault s e
  agenda := State.apply_agenda s e
  answer := State.apply_answer s e

/-- A command whose checks pass and whose effect is `e` completes with exactly `e`. -/
theorem completes_of_effect {i : Instr} {s : State} {e : Effect} (hc : checksOf i s = .ok none)
    (he : effectOf i s = .ok e)
    (hs : e.stores.Pairwise fun v w => disjoint v.1 v.2.length w.1 w.2.length = true) :
    Completes i s e.stores e.results e.detect (e.fcch.getD s.fcch) (e.td.getD s.td) (e.pulse.getD s.pulse) := by
  refine ⟨s.apply e, by rw [exec_eq_perform, perform_of_ok hc he], done_apply hs ?_⟩
  obtain ⟨-, results, -⟩ := effectOf_shape he
  exact results ▸ resultRegs_nodup i

end Sys2Proof.Proofs

/-!
PROOFS. Interpolation and peak detection over a vector whose elements can be read are the functions of the Spec
(40_dsp_primitives.md R203, R204). Every read of R203 is inside the vector, so nothing is asked of what lies past it.
-/
namespace Sys2Proof.Proofs

open Sys2Proof.Machine Sys2Proof.Spec

/-- The elements read at `t` are elements of the vector (R203). -/
theorem lt_of_mem_interpRange {n k : Nat} {t : F32} (h : k ∈ interpRange n t) : k < n := by
  simp only [interpRange, List.mem_range'_1] at h
  omega

/-- `InterpF` asks for the elements of `interpRange` only. -/
theorem interpF_eq {rd : Nat → Rd Cplx} {x : Nat → Cplx} {n : Nat} {t : F32}
    (h : ∀ k ∈ interpRange n t, rd k = .ok (x k)) (w : Bool) : interpF w rd n t = .ok (interp w x n t) := by
  have turns := foldRd_ok (f := fun k acc => do
      let z ← rd k
      .ok (Cplx.add acc (Cplx.smul (interpWeight w t k) z)))
    (g := fun acc k => acc.add (Cplx.smul (interpWeight w t k) (x k))) (a := Cplx.zero)
    fun k acc lo hi => by rw [h k (List.mem_range'_1.2 ⟨lo, hi⟩), Rd.ok_bind]
  rw [interp, sumC, List.foldl_map]
  exact turns

/-- A vector whose elements can be read can be interpolated anywhere. -/
theorem interpF_eq_of_lt {rd : Nat → Rd Cplx} {x : Nat → Cplx} {n : Nat} (h : ∀ k < n, rd k = .ok (x k)) (w : Bool)
    (t : F32) : interpF w rd n t = .ok (interp w x n t) :=
  interpF_eq (fun k hk => h k (lt_of_mem_interpRange hk)) w

/-- One turn of the scan of R204: the sum of powers, the best power and its index, after element `i`. -/
def scanPower (x : Nat → Cplx) (acc : F32 × F32 × Nat) (i : Nat) : F32 × F32 × Nat :=
  if F32.lt acc.2.1 (x i).norm then (F32.add acc.1 (x i).norm, (x i).norm, i)
  else (F32.add acc.1 (x i).norm, acc.2.1, acc.2.2)

/-- The scan is the sum of powers beside the search for the best one: neither depends on the other. -/
theorem foldl_scanPower (x : Nat → Cplx) (ks : List Nat) (sum best : F32) (i : Nat) :
    ks.foldl (scanPower x) (sum, best, i)
      = let top := ks.foldl (fun (b : Nat × F32) k => if F32.lt b.2 (x k).norm then (k, (x k).norm) else b) (i, best)
        ((ks.map fun k => (x k).norm).foldl F32.add sum, top.2, top.1) := by
  induction ks generalizing sum best i with
  | nil => rfl
  | cons k ks ih =>
    simp only [List.foldl_cons, List.map_cons, scanPower]
    split <;> exact ih _ _ _

theorem peakScan_eq {rd : Nat → Rd Cplx} {x : Nat → Cplx} {n : Nat} (h : ∀ k < n, rd k = .ok (x k)) :
    peakScan rd n = .ok (sumR ((List.range n).map fun i => (x i).norm), (peakIndex x n).2, (peakIndex x n).1) := by
  have turns := foldRd_ok (f := fun i (acc : F32 × F32 × Nat) => do
      let z ← rd i
      let pw := z.norm
      let sum := F32.add acc.1 pw
      if F32.lt acc.2.1 pw then .ok (sum, pw, i) else .ok (sum, acc.2.1, acc.2.2))
    (g := scanPower x) (lo := 0) (n := n) (a := (0#32, F32.minusOne, 0))
    fun i acc _ hi => by
      rw [h i (by omega), Rd.ok_bind, scanPower]
      exact (apply_ite Except.ok _ _ _).symm
  rw [peakScan, turns, ← List.range_eq_range', foldl_scanPower]
  rfl

theorem peakSearch_eq {rd : Nat → Rd Cplx} {x : Nat → Cplx} {n : Nat} (h : ∀ k < n, rd k = .ok (x k)) (w : Bool)
    (turns : Nat) (early incr : F32) :
    Machine.peakSearch w rd n turns early incr = .ok (Spec.peakSearch w x n turns early incr) := by
  induction turns generalizing early incr with
  | zero => rfl
  | succ turns ih =>
    rw [Machine.peakSearch, Spec.peakSearch]
    simp only [interpF_eq_of_lt h, Rd.ok_bind, ih, F32.two]
    split_ifs <;> rfl

/-- `PeakDetectF` of a vector whose elements can be read is the Spec's `peak` (R204). -/
theorem peakDetectF_eq {rd : Nat → Rd Cplx} {x : Nat → Cplx} {n : Nat} (h : ∀ k < n, rd k = .ok (x k)) (w : Bool) :
    peakDetectF w rd n = .ok (peak w x n) := by
  rw [peakDetectF, peakScan_eq h, Rd.ok_bind]
  simp only
  rw [peakSearch_eq h, Rd.ok_bind, interpF_eq_of_lt h, Rd.ok_bind]
  rfl

end Sys2Proof.Proofs

/-!
PROOFS. The frequency detector and the walk over the errors, over samples that can be read, are the functions of the Spec
(42_fcch_detector.md R284, R285, R287, R294), and `FCCH_WALK` (R291). A run that ends at error i started at
`start` with `start + run ≤ i`, so the samples it examines lie below the number of errors: this is the invariant of the walk.
-/
namespace Sys2Proof.Proofs

open Sys2Proof.Machine Sys2Proof.Spec

/-! ## Frequency detection (R294) -/

/-- The elements of a written complex vector can be read (R101, R105). -/
theorem cread_of_cplxOn {m : Memory} {a n : Nat} {x : Nat → Cplx} (h : CplxOn m a (List.range n) x) :
    ∀ k < n, cread m a k = .ok (x k) := fun k hk =>
  have ⟨hre, him⟩ := h k (List.mem_range.2 hk)
  cread_ok hre him

theorem fftBuffer_eq {rd : Nat → Rd Cplx} {x : Nat → Cplx} {start sl : Nat}
    (h : ∀ k < start + sl, rd k = .ok (x k)) (fftSize : Nat) :
    fftBuffer rd fftSize start sl
      = .ok ((List.range fftSize).map fun m => if m < sl then x (start + m) else ⟨0#32, 0#32⟩) := by
  rw [fftBuffer, List.range_eq_range']
  refine tabRd_ok fun m _ _ => ?_
  split
  · exact h _ (by omega)
  · rfl

/-- Element `k` of the swapped spectrum, (+0, +0) past its end. -/
theorem fftShifted_getD (fftSize : Nat) (buf : List Cplx) (k : Nat) :
    (fftShifted fftSize buf).getD k Cplx.zero
      = if k < fftSize then Config.fftBin fftSize buf ((k + fftSize / 2) % fftSize) else ⟨0#32, 0#32⟩ := by
  rw [fftShifted, List.getD_eq_getElem?_getD, List.getElem?_map]
  split
  next inside =>
    rw [List.getElem?_range inside]
    rfl
  next outside =>
    rw [List.getElem?_eq_none (by simpa using outside)]
    rfl

/-- `FreqDetectF` of a slice whose samples can be read is the Spec's `freqDetect` (R294). -/
theorem freqDetectF_eq {rd : Nat → Rd Cplx} {x : Nat → Cplx} {start sl : Nat}
    (h : ∀ k < start + sl, rd k = .ok (x k)) (c : Config) (rate : F32) :
    freqDetectF c rate rd start sl = .ok (freqDetect c rate x start sl) := by
  rw [freqDetectF, fftBuffer_eq h, Rd.ok_bind]
  simp only [fftShifted_getD]
  rw [peakDetectF_eq fun _ _ => rfl, Rd.ok_bind]
  rfl

/-! ## The walk (R284, R285, R287) -/

theorem sps_eq_spec (s : State) : s.sps = sps s := rfl

theorem burstLen_eq_spec (s : State) : s.burstLen = burst s := rfl

/-- The examination of a run whose samples can be read. -/
theorem examineRun_eq {s : State} {rd : Nat → Rd Cplx} {x : Nat → Cplx} {start run : Nat}
    (h : ∀ k < start + run, rd k = .ok (x k)) :
    examineRun s.cfg s.sampleRate s.sps s.burstLen rd start run = .ok (examine s x start run) := by
  have slice : ∀ k < start + min run s.burstLen, rd k = .ok (x k) := fun k hk => h k (by omega)
  rw [examineRun, freqDetectF_eq slice, Rd.ok_bind, sps_eq_spec, burstLen_eq_spec, examine]
  by_cases long : F32.le (F32.mul 0x42C80000#32 (sps s)) (F32.ofInt run) = true
  · simp only [long, if_true, Bool.true_and]
    split <;> rfl
  · simp only [long, Bool.false_and]
    rfl

/-- The run in progress before error `i` lies below `i`. -/
def RunBelow (t : WalkTd) (i : Nat) : Prop := t.low = true → t.start + t.count ≤ i

theorem RunBelow.of_not_low {t : WalkTd} {i : Nat} (h : t.low = false) : RunBelow t i := fun hl => by simp [h] at hl

/-- An error below the limit starts a run at `i` or lengthens the one in progress. -/
theorem RunBelow.below {t : WalkTd} {i : Nat} (h : RunBelow t i) : RunBelow (t.below i) (i + 1) := by
  intro _
  unfold WalkTd.below
  split
  · have := h ‹_›
    simp only
    omega
  · simp

/-- The walk asks about runs inside the errors only: over `n` samples it is the Spec's `walk`, when every examination of a run
inside [0, n) succeeds. -/
theorem walkErrors_eq {ex : Nat → Nat → Rd (Option Detection)} {ex' : Nat → Nat → Option Detection} {n : Nat}
    (h : ∀ start run, start + run ≤ n → ex start run = .ok (ex' start run)) (limit : F32) (errors : List F32) (i : Nat)
    (t : WalkTd) (hn : i + errors.length ≤ n) (ht : RunBelow t i) :
    walkErrors limit ex errors i t = .ok (walk limit ex' errors i t) := by
  induction errors generalizing i t with
  | nil => rfl
  | cons a rest ih =>
    rw [List.length_cons] at hn
    rw [walkErrors, walk]
    split
    · exact ih (i + 1) _ (by omega) ht.below
    · split
      next low =>
        have run := ht low
        rw [h t.start t.count (by omega), Rd.ok_bind]
        cases ex' t.start t.count with
        | some d => rfl
        | none => exact ih (i + 1) _ (by omega) (.of_not_low rfl)
      next idle => exact ih (i + 1) t (by omega) (.of_not_low (by simpa using idle))

/-- `WalkF` over the errors of a detector, with a written sample for each error: the transition detector, the result registers
and the outcome flag of the Spec. -/
theorem walkF_eq {s : State} {f : Fcch} {a sLen : Nat} {x : Nat → Cplx} (hx : CplxOn s.mem a (List.range sLen) x)
    (hl : f.ebuf.length ≤ sLen) :
    walkF s f a sLen = .ok
      { td := walkTd f (walkOf s f x).1
        results := walkResults f sLen (walkOf s f x).2
        detect := (walkOf s f x).2.isSome } := by
  have runs : ∀ start run, start + run ≤ sLen →
      examineRun s.cfg s.sampleRate s.sps s.burstLen (cread s.mem a) start run = .ok (examine s x start run) :=
    fun start run hr => examineRun_eq fun k hk => cread_of_cplxOn hx k (by omega)
  have walked : walkErrors f.limit (examineRun s.cfg s.sampleRate s.sps s.burstLen (cread s.mem a)) f.ebuf 0
      { low := false, count := 0, start := 0 } = .ok (walkOf s f x) :=
    walkErrors_eq runs _ _ 0 _ (by omega) (.of_not_low rfl)
  rw [walkF, walked, Rd.ok_bind]
  obtain ⟨t, found⟩ := walkOf s f x
  cases found <;> rfl

/-! ## `FCCH_WALK` (R291) -/

/-- The checks of R291. -/
theorem checksOf_fcchWalk (s : State) : checksOf .fcchWalk s = .ok (Spec.error .fcchWalk s) := by
  refine pureChecks_eq_error ?_
  rw [isEven_eq_even]
  rfl

/-- Checks that pass leave a sample for each error. -/
theorem ebuf_length_le_of_fcchWalk {s : State} (h : Spec.error .fcchWalk s = none) : s.fcch.ebuf.length ≤ s.argN 1 := by
  have check : (decide (s.fcch.ebuf.length ≤ s.argN 1), ErrCode.length) ∈ checkList .fcchWalk s := by simp [checkList]
  exact of_decide_eq_true (error_eq_none.1 h _ check)

/-- Settles O43: the checks by `checksOf_fcchWalk`, the completion by `walkF_eq`. -/
theorem walkOverErrors : Obligations.WalkOverErrors := by
  refine ⟨reportsErrors_of_checks checksOf_fcchWalk, fun s x hc hx => ?_⟩
  have effect : effectOf .fcchWalk s = .ok
      { results := walkResults s.fcch (s.argN 1) (walkOf s s.fcch x).2
        td := some (walkTd s.fcch (walkOf s s.fcch x).1)
        detect := (walkOf s s.fcch x).2.isSome } := by
    change fcchWalkEffect s = _
    rw [fcchWalkEffect, walkF_eq hx (ebuf_length_le_of_fcchWalk hc)]
    rfl
  exact completes_of_effect ((checksOf_fcchWalk s).trans (congrArg Except.ok hc)) effect List.Pairwise.nil

end Sys2Proof.Proofs

/-!
PROOFS. How any command ends, as a next state: the error completion of a failed check or the whole effect of passed ones
(10_state.md R59; 60_exceptions.md R412, R413, R421). From it the completion update and the frame of every command.
-/
namespace Sys2Proof.Proofs

open Sys2Proof.Machine Sys2Proof.Spec

/-! ## The ways a command answers a next state -/

/-- What the meaning of a command can answer as a next state. -/
theorem exec_next {i : Instr} {s t : State} (h : exec i s = .next t) :
    (∃ c, checksOf i s = .ok (some c) ∧ t = s.completeErr c)
    ∨ ∃ e, checksOf i s = .ok none ∧ effectOf i s = .ok e ∧ t = s.apply e :=
  perform_next ((exec_eq_perform i s).symm.trans h)

/-! ## The codes of the checks (R412) -/

/-- Checks that read no DMEM report a code of their list. -/
theorem pureChecks_code {cs : List (Bool × ErrCode)} {codes : List ErrCode} {c : ErrCode}
    (h : pureChecks cs = .ok (some c)) (listed : cs.map Prod.snd ⊆ codes) : c ∈ codes :=
  listed (List.mem_map_of_mem (firstFailing_mem (Except.ok.inj h)))

/-- The checks of `VITERBI_SOFT` report a code of the checks on registers, or DATA (R382). -/
theorem viterbiSoftChecks_code {x : Bool} {s : State} {c : ErrCode} (h : viterbiSoftChecks x s = .ok (some c)) :
    viterbiChecks x s = some c ∨ c = .data := by
  unfold viterbiSoftChecks at h
  split at h
  case h_1 c' hc =>
    obtain rfl : c' = c := by simpa using h
    exact .inl hc
  case h_2 =>
    obtain ⟨r, -, h⟩ := Rd.bind_ok h
    split at h
    · cases h
    · exact .inr (by simpa using h.symm)

/-- A code that the checks of a command report is one of the codes the table gives it (R412). -/
theorem checksOf_code {i : Instr} {s : State} {c : ErrCode} (h : checksOf i s = .ok (some c)) : c ∈ codesOf i := by
  cases i with
  | viterbiSoft x =>
    rcases viterbiSoftChecks_code h with hr | rfl
    · exact pureChecks_code (congrArg Except.ok hr) (by simp [codesOf])
    · simp [codesOf]
  | _ => exact pureChecks_code h (by simp [codesOf])

/-- Code 0 is no error: no check of any command reports it (R412). -/
theorem checksOf_ne_none {i : Instr} {s : State} {c : ErrCode} (h : checksOf i s = .ok (some c)) : c ≠ .none := by
  have listed : ErrCode.none ∉ codesOf i := by cases i <;> simp [codesOf]
  rintro rfl
  exact listed (checksOf_code h)

/-! ## The completion update (R59, R200) -/

/-- Settles O11: the error completion has a code other than 0 by `checksOf_ne_none`; which commands have an outcome flag is
`effectOf_shape`. -/
theorem completionUpdate : Obligations.CompletionUpdate := by
  intro i s t h
  rcases exec_next h with ⟨c, hc, rfl⟩ | ⟨e, -, he, rfl⟩
  · simp [checksOf_ne_none hc]
  · obtain ⟨-, -, -, -, -, flag⟩ := effectOf_shape he
    simpa using flag

/-! ## The frame (R110, R145, R453) -/

/-- The ranges the model names as written are the destinations of the rules. -/
theorem dstWords_eq_destinations (i : Instr) (s : State) : dstWords i s = destinations i s := by
  cases i <;> rfl

/-- The result registers a command names are RES0 on, as many as its rule has (R145). -/
theorem resultRegs_vals (i : Instr) : (resultRegs i).map Fin.val = List.range (resultCount i) := by
  cases i <;> rfl

theorem val_lt_of_mem_resultRegs {i : Instr} {j : Fin 8} (h : j ∈ resultRegs i) : j.val < resultCount i :=
  List.mem_range.1 (resultRegs_vals i ▸ List.mem_map_of_mem h)

/-- A byte outside the destinations of a command is outside every vector its effect stores. -/
theorem outside_stores {i : Instr} {s : State} {e : Effect} (he : effectOf i s = .ok e) {b : Nat}
    (hb : ∀ d ∈ destinations i s, b < 4 * d.1 ∨ 4 * (d.1 + d.2) ≤ b) :
    ∀ v ∈ e.stores, b < 4 * v.1 ∨ 4 * (v.1 + v.2.length) ≤ b := by
  obtain ⟨stores, -⟩ := effectOf_shape he
  rw [dstWords_eq_destinations] at stores
  exact fun v hv => hb (v.1, v.2.length) (stores ▸ List.mem_map_of_mem hv)

/-- A result register past those a command names is none that its effect writes. -/
theorem ne_results {i : Instr} {s : State} {e : Effect} (he : effectOf i s = .ok e) {j : Fin 8}
    (hj : resultCount i ≤ j.val) : ∀ p ∈ e.results, p.1 ≠ j := by
  obtain ⟨-, results, -⟩ := effectOf_shape he
  rintro p hp rfl
  have named : p.1 ∈ resultRegs i := results ▸ List.mem_map_of_mem hp
  exact absurd (val_lt_of_mem_resultRegs named) (by omega)

/-- Settles O21: the error completion changes STATUS only; a whole effect has the shape of `effectOf_shape`. -/
theorem frameOfEveryCommand : Obligations.FrameOfEveryCommand := by
  intro i s t h
  rcases exec_next h with ⟨c, -, rfl⟩ | ⟨e, -, he, rfl⟩
  · simp
  · obtain ⟨-, -, fcch, td, pulse, -⟩ := effectOf_shape he
    have mem : ∀ b, (∀ d ∈ destinations i s, b < 4 * d.1 ∨ 4 * (d.1 + d.2) ≤ b) →
        (s.apply e).mem.readByte b = s.mem.readByte b := fun b hb => by
      rw [State.apply_mem, Memory.readByte_stores_other _ _ _ (outside_stores he hb)]
    have res : ∀ j : Fin 8, resultCount i ≤ j.val → (s.apply e).res[j] = s.res[j] := fun j hj => by
      rw [State.apply_res, foldl_set_other _ _ (ne_results he hj)]
    refine ⟨by simp, by simp, by simp, by simp, by simp, by simp, by simp, by simp, rfl, rfl, rfl, mem, res, ?_, ?_, ?_⟩
    · exact fun h1 h2 h3 h4 => by simp [fcch h1 h2 h3 h4]
    · exact fun h1 h2 h3 => by simp [td h1 h2 h3]
    · exact fun h1 => by simp [pulse h1]

end Sys2Proof.Proofs

/-!
PROOFS. The register map (10_state.md; 20_memory.md R106, R108, R112): which register an offset holds, and that a 32-bit read
or write that is not refused is the read or write of that register.
-/
namespace Sys2Proof.Proofs

open Sys2Proof.Machine Sys2Proof.Spec

/-! ## Accesses to a register that is not refused -/

/-- An aligned offset of the window, as the address of a 32-bit access (R106, R107). -/
theorem accessOk_ofNat {off : Nat} (hal : off % 4 = 0) (hw : off < 2 ^ 25) :
    (BitVec.ofNat 25 off).toNat = off ∧ accessOk .w32 (BitVec.ofNat 25 off) = true := by
  have same : (BitVec.ofNat 25 off).toNat = off := by rw [BitVec.toNat_ofNat, Nat.mod_eq_of_lt hw]
  exact ⟨same, by simp [accessOk, same, hal]⟩

/-- A register is refused only while BUSY, and only when it is marked B (R112). -/
theorem not_refused {s : State} {r : Reg} (h : s.status.busy = false ∨ r.busyRefused = false) :
    (s.status.busy && Target.busyRefused (.reg r)) = false := by
  rcases h with h | h <;> simp [h, Target.busyRefused]

/-- A read that is not refused answers what the register reads and changes nothing. -/
theorem readsAs_readReg {s : State} {off : Nat} {r : Reg} (hal : off % 4 = 0) (hw : off < 2 ^ 25)
    (ht : targetAt s.cfg off = .reg r) (hr : s.status.busy = false ∨ r.busyRefused = false) :
    ReadsAs s off (s.readReg r) := by
  obtain ⟨same, ok⟩ := accessOk_ofNat hal hw
  simp only [ReadsAs, hostRead, ok, same, ht, not_refused hr]
  rfl

/-- A write that is not refused is the write of the register. -/
theorem writesTo_writeReg {s : State} {off : Nat} {r : Reg} (w : Word) (hal : off % 4 = 0) (hw : off < 2 ^ 25)
    (ht : targetAt s.cfg off = .reg r) (hr : s.status.busy = false ∨ r.busyRefused = false) :
    WritesTo s off w (s.writeReg r w) := by
  obtain ⟨same, ok⟩ := accessOk_ofNat hal hw
  simp only [WritesTo, hostWrite, ok, same, ht, not_refused hr]
  rfl

/-! ## The offsets of the register arrays -/

theorem targetAt_arg (c : Config) (i : Fin 16) : targetAt c (0x020 + 4 * i) = .reg (.arg i) := by
  fin_cases i <;> rfl

theorem targetAt_res (c : Config) (i : Fin 8) : targetAt c (0x060 + 4 * i) = .reg (.res i) := by
  fin_cases i <;> rfl

theorem targetAt_tapRe (c : Config) (i : Fin 17) : targetAt c (0x100 + 8 * i) = .reg (.tapRe i) := by
  fin_cases i <;> rfl

theorem targetAt_tapIm (c : Config) (i : Fin 17) : targetAt c (0x104 + 8 * i) = .reg (.tapIm i) := by
  fin_cases i <;> rfl

/-- Past the taps an offset of the register block holds a pulse sample or is reserved (R68). -/
theorem regAt_of_past_taps {c : Config} {off : Nat} (h : 0x188 ≤ off) :
    regAt c off = if 0x200 ≤ off ∧ (off - 0x200) / 4 < c.gpMax then .gp ((off - 0x200) / 4) else .reserved := by
  unfold regAt
  rw [if_neg (by omega), if_neg (by omega), if_neg (by omega), if_neg (by omega), if_neg (by omega)]

/-- The pulse samples lie inside the register block, as GP_MAX is at most 128 (R11, R68). -/
theorem targetAt_gp {c : Config} {i : Nat} (hi : i < c.gpMax) (hc : c.gpMax ≤ 128) :
    targetAt c (0x200 + 4 * i) = .reg (.gp i) := by
  have index : (0x200 + 4 * i - 0x200) / 4 = i := by omega
  rw [targetAt, if_pos (by omega), regAt_of_past_taps (by omega), index, if_pos ⟨by omega, hi⟩]

/-! ## Reserved offsets, the mark B and the registers that ignore writes (R108, R112) -/

/-- Past the taps a reserved offset of the register block is past the pulse samples. -/
theorem regAt_reserved_past_taps {c : Config} {off : Nat} (h : 0x188 ≤ off)
    (hg : off < 0x200 ∨ 0x200 + 4 * c.gpMax ≤ off) : regAt c off = .reserved := by
  rw [regAt_of_past_taps h, if_neg (by omega)]

/-- The two gaps between the registers below the taps. -/
theorem regAt_gap {c : Config} {off : Nat} (h : (0x014 ≤ off ∧ off < 0x020) ∨ (0x0D8 ≤ off ∧ off < 0x100)) :
    regAt c off = .reserved := by
  rcases h with ⟨lo, hi⟩ | ⟨lo, hi⟩ <;> interval_cases off <;> rfl

/-- A reserved offset holds no register and no word of DMEM (R106). -/
theorem targetAt_reserved {c : Config} {off : Nat} (h : reservedOffset c off = true) :
    targetAt c off = .reg .reserved := by
  simp only [reservedOffset, Bool.or_eq_true, decide_eq_true_eq] at h
  by_cases block : off < 0x1000
  · rw [targetAt, if_pos block]
    by_cases gap : off < 0x188
    · rw [regAt_gap (by omega)]
    · rw [regAt_reserved_past_taps (by omega) (by omega)]
  · rw [targetAt, if_neg block, if_neg (by omega)]

/-- The mark B of the register at an offset is that of the register map (R112). -/
theorem regAt_busyRefused {c : Config} {off : Nat} (hal : off % 4 = 0) (hb : off < 0x1000) :
    (regAt c off).busyRefused = refusedWhileBusy c off := by
  by_cases low : off < 0x188
  · obtain ⟨k, rfl⟩ := Nat.dvd_of_mod_eq_zero hal
    have count : k < 98 := by omega
    interval_cases k <;> rfl
  · have marked : refusedWhileBusy c off = decide (0x200 ≤ off ∧ (off - 0x200) / 4 < c.gpMax) := by
      rw [Bool.eq_iff_iff]
      simp only [refusedWhileBusy, Bool.or_eq_true, decide_eq_true_eq]
      omega
    rw [regAt_of_past_taps (by omega), marked]
    split
    case isTrue h => exact (decide_eq_true h).symm
    case isFalse h => exact (decide_eq_false h).symm

/-- The registers on which a host write has no effect (R108). -/
def ignoresWrites : Reg → Bool
  | .ctrl | .status | .cmd | .arg _ | .sampleRate | .fcchD | .fcchP | .fcchG | .fcchMe | .tapRe _ | .tapIm _ => false
  | .id | .version | .res _ | .fcchXavail | .fcchXspace | .fcchEavail | .fcchEspace | .fcchEsum | .tdState | .tdCount
  | .tdStart | .tdThresh | .gpStatus | .gpSps | .cfgDmemWords | .cfgFftSize | .cfgXcap | .cfgEcap | .cfgGpmax
  | .cfgFeatures | .gp _ | .reserved => true

theorem writeReg_of_ignoresWrites {r : Reg} (h : ignoresWrites r = true) (s : State) (w : Word) : s.writeReg r w = s := by
  cases r with
  | ctrl | status | cmd | arg | sampleRate | fcchD | fcchP | fcchG | fcchMe | tapRe | tapIm => simp [ignoresWrites] at h
  | _ => rfl

/-- The registers that ignore writes are those the register map does not let the host write. -/
theorem regAt_ignoresWrites {c : Config} {off : Nat} (hal : off % 4 = 0) (h : writableReg off = false) :
    ignoresWrites (regAt c off) = true := by
  by_cases low : off < 0x188
  · obtain ⟨k, rfl⟩ := Nat.dvd_of_mod_eq_zero hal
    have count : k < 98 := by omega
    rw [← Bool.not_eq_true'] at h
    rw [← h]
    interval_cases k <;> rfl
  · rw [regAt_of_past_taps (by omega)]
    split <;> rfl

end Sys2Proof.Proofs

/-!
PROOFS. The registers as the host reads and writes them (10_state.md R53-R68): STATUS as a word, the acceptance of a command, and
the register map.
-/
namespace Sys2Proof.Proofs

open Sys2Proof.Machine Sys2Proof.Spec

/-! ## Words made of fields -/

/-- A word made of two fields, as a number. -/
theorem toNat_append_eq_add {m n : Nat} (x : BitVec m) (y : BitVec n) :
    (x ++ y).toNat = x.toNat * 2 ^ n + y.toNat := by
  rw [BitVec.toNat_append, ← Nat.shiftLeft_add_eq_or_of_lt y.isLt, Nat.shiftLeft_eq]

theorem code_toNat (c : ErrCode) : c.code.toNat = codeNumber c := by
  cases c <;> rfl

/-- STATUS as the host reads it is the word of its fields, each at its place (R57). -/
theorem status_word_eq (t : Status) : t.word = statusWord t := by
  have code : codeNumber t.errcode < 2 ^ 8 := code_toNat t.errcode ▸ t.errcode.code.isLt
  have opc : t.lastOpc.toNat < 2 ^ 8 := t.lastOpc.isLt
  have bit (b : Bool) : b.toNat < 2 := Bool.toNat_lt b
  have := bit t.busy; have := bit t.done; have := bit t.err
  have := bit t.detect; have := bit t.accViol; have := bit t.cmdLost
  apply BitVec.eq_of_toNat_eq
  simp only [Status.word, statusWord, toNat_append_eq_add, BitVec.toNat_ofBool, BitVec.toNat_ofNat, code_toNat]
  omega

/-- Each bit of STATUS as the host reads it (R57). -/
theorem status_word_getLsbD (t : Status) {i : Nat} (hi : i < 32) :
    t.word.getLsbD i =
      if i < 8 then [t.busy, t.done, t.err, t.detect, t.accViol, t.cmdLost].getD i false
      else if i < 16 then t.errcode.code.getLsbD (i - 8)
      else t.lastOpc.getLsbD (i - 16) := by
  change BitVec.getLsbD (w := 8 + 8 + 8 + 2 + 1 + 1 + 1 + 1 + 1 + 1)
    (0#8 ++ t.lastOpc ++ t.errcode.code ++ 0#2 ++ BitVec.ofBool t.cmdLost ++ BitVec.ofBool t.accViol
      ++ BitVec.ofBool t.detect ++ BitVec.ofBool t.err ++ BitVec.ofBool t.done ++ BitVec.ofBool t.busy) i = _
  simp only [BitVec.getLsbD_append, BitVec.getLsbD_ofBool, BitVec.getLsbD_zero]
  interval_cases i <;> simp

/-- A write to STATUS clears the bits of DONE, ERR, ACC_VIOL and CMD_LOST that are written 1, and no other (R60). -/
theorem writeOneToClear_word (t : Status) (w : Word) :
    (t.writeOneToClear w).word = t.word &&& ~~~(w &&& 0x36#32) := by
  apply BitVec.eq_of_getLsbD_eq
  intro i hi
  simp only [BitVec.getLsbD_and, BitVec.getLsbD_not, status_word_getLsbD _ hi, hi]
  interval_cases i <;> simp

/-- The reserved bits of STATUS read 0 (R57). -/
theorem status_word_reserved (t : Status) : t.word &&& 0xFF0000C0#32 = 0#32 := by
  apply BitVec.eq_of_getLsbD_eq
  intro i hi
  rw [BitVec.getLsbD_and, status_word_getLsbD _ hi]
  interval_cases i <;> simp

/-! ## STATUS and CMD -/

theorem writesTo_status (s : State) (w : Word) :
    WritesTo s 0x00C w { s with status := s.status.writeOneToClear w } :=
  writesTo_writeReg w rfl (by omega) (r := .status) rfl (.inr rfl)

theorem writesTo_cmd (s : State) (w : Word) : WritesTo s 0x010 w (s.writeCmd w) :=
  writesTo_writeReg w rfl (by omega) (r := .cmd) rfl (.inr rfl)

/-- Settles O10: the two branches of a write to CMD. -/
theorem commandAcceptance : Obligations.CommandAcceptance := by
  intro s w
  have written := writesTo_cmd s w
  refine ⟨fun idle => ?_, fun busy => ?_⟩
  · rw [State.writeCmd, idle] at written
    exact written
  · rw [State.writeCmd, busy] at written
    exact written

/-- Settles O12. -/
theorem statusWriteOneToClear : Obligations.StatusWriteOneToClear := by
  intro s w
  refine ⟨_, writesTo_status s w, writeOneToClear_word s.status w, rfl, status_word_reserved s.status, fun h => ?_⟩
  simp [State.irq, h]

/-! ## Reads -/

/-- CFG_GPMAX is the word of its three 8-bit fields (R66). -/
theorem readReg_cfgGpmax {s : State} (hg : s.cfg.gpMax < 2 ^ 8) (hn : s.cfg.nfMax < 2 ^ 8) (hh : s.cfg.hMax < 2 ^ 8) :
    s.readReg .cfgGpmax = BitVec.ofNat 32 (s.cfg.gpMax + 2 ^ 8 * s.cfg.nfMax + 2 ^ 16 * s.cfg.hMax) := by
  apply BitVec.eq_of_toNat_eq
  simp only [State.readReg, toNat_append_eq_add, BitVec.toNat_ofNat]
  omega

/-- GP_STATUS is the word of GP_VALID and GP_LEN (R68). -/
theorem readReg_gpStatus (s : State) :
    s.readReg .gpStatus = BitVec.ofNat 32 (2 ^ 16 * s.pulse.samples.length + s.pulse.valid.toNat) := by
  have valid : s.pulse.valid.toNat < 2 := Bool.toNat_lt _
  apply BitVec.eq_of_toNat_eq
  simp only [State.readReg, State.gpLen, toNat_append_eq_add, BitVec.toNat_ofNat, BitVec.toNat_ofBool]
  omega

/-- Settles O14: the register at each offset, then what it reads. -/
theorem readsFollowTheRegisterMap : Obligations.ReadsFollowTheRegisterMap := by
  intro s
  have always {off : Nat} (r : Reg) (hal : off % 4 = 0) (hw : off < 2 ^ 25) (ht : targetAt s.cfg off = .reg r)
      (hr : r.busyRefused = false) : ReadsAs s off (s.readReg r) := readsAs_readReg hal hw ht (.inr hr)
  refine ⟨⟨always .id rfl (by omega) rfl rfl, always .version rfl (by omega) rfl rfl, always .ctrl rfl (by omega) rfl rfl,
    status_word_eq s.status ▸ always .status rfl (by omega) rfl rfl, always .cmd rfl (by omega) rfl rfl,
    fun i => always (.res i) (by omega) (by omega) (targetAt_res _ i) rfl,
    always .cfgDmemWords rfl (by omega) rfl rfl, always .cfgFftSize rfl (by omega) rfl rfl,
    always .cfgXcap rfl (by omega) rfl rfl, always .cfgEcap rfl (by omega) rfl rfl,
    fun hg hn hh => readReg_cfgGpmax hg hn hh ▸ always .cfgGpmax rfl (by omega) rfl rfl,
    always .cfgFeatures rfl (by omega) rfl rfl,
    fun off hal hw _ h => always .reserved hal hw (targetAt_reserved h) rfl⟩, fun idle => ?_⟩
  have marked {off : Nat} (r : Reg) (hal : off % 4 = 0) (hw : off < 2 ^ 25) (ht : targetAt s.cfg off = .reg r) :
      ReadsAs s off (s.readReg r) := readsAs_readReg hal hw ht (.inl idle)
  exact ⟨fun i => marked (.arg i) (by omega) (by omega) (targetAt_arg _ i),
    marked .sampleRate rfl (by omega) rfl, marked .fcchD rfl (by omega) rfl, marked .fcchP rfl (by omega) rfl,
    marked .fcchG rfl (by omega) rfl, marked .fcchMe rfl (by omega) rfl, marked .fcchXavail rfl (by omega) rfl,
    marked .fcchXspace rfl (by omega) rfl, marked .fcchEavail rfl (by omega) rfl, marked .fcchEspace rfl (by omega) rfl,
    marked .fcchEsum rfl (by omega) rfl, marked .tdState rfl (by omega) rfl, marked .tdCount rfl (by omega) rfl,
    marked .tdStart rfl (by omega) rfl, marked .tdThresh rfl (by omega) rfl,
    fun _ => readReg_gpStatus s ▸ marked .gpStatus rfl (by omega) rfl, marked .gpSps rfl (by omega) rfl,
    fun i => ⟨marked (.tapRe i) (by omega) (by omega) (targetAt_tapRe _ i),
      marked (.tapIm i) (by omega) (by omega) (targetAt_tapIm _ i)⟩,
    fun i hi hc => marked (.gp i) (by omega) (by omega) (targetAt_gp hi hc)⟩

/-! ## Writes -/

/-- A write to an offset outside DMEM that holds no writable register, and that is not refused, is ignored (R108). -/
theorem writesTo_ignored {s : State} {off : Nat} (w : Word) (hal : off % 4 = 0) (hw : off < 2 ^ 25)
    (hro : writableReg off = false) (hd : off < 0x01000000 ∨ 0x01000000 + 4 * s.cfg.dmemWords ≤ off)
    (hr : s.status.busy = false ∨ refusedWhileBusy s.cfg off = false) : WritesTo s off w s := by
  by_cases block : off < 0x1000
  · have written := writesTo_writeReg w hal hw (if_pos block) (regAt_busyRefused hal block ▸ hr)
    rwa [writeReg_of_ignoresWrites (regAt_ignoresWrites hal hro)] at written
  · have reserved : targetAt s.cfg off = .reg .reserved := by rw [targetAt, if_neg block, if_neg (by omega)]
    exact writesTo_writeReg w hal hw reserved (.inr rfl)

/-- Settles O15: the register at each offset, then what its write leaves. -/
theorem writesFollowTheRegisterMap : Obligations.WritesFollowTheRegisterMap := by
  intro s w
  refine ⟨fun off hal hw hro hd hr => writesTo_ignored w hal hw hro hd hr, fun keep => ?_, fun idle => ?_⟩
  · have written := writesTo_writeReg w rfl (by omega) (s := s) (off := 0x008) (r := .ctrl) rfl (.inr rfl)
    rw [State.writeReg, State.writeCtrl, keep] at written
    exact written
  · have written {off : Nat} (r : Reg) (hal : off % 4 = 0) (hw : off < 2 ^ 25) (ht : targetAt s.cfg off = .reg r) :
        WritesTo s off w (s.writeReg r w) := writesTo_writeReg w hal hw ht (.inl idle)
    exact ⟨fun i => written (.arg i) (by omega) (by omega) (targetAt_arg _ i), written .sampleRate rfl (by omega) rfl,
      written .fcchD rfl (by omega) rfl, written .fcchP rfl (by omega) rfl, written .fcchG rfl (by omega) rfl,
      written .fcchMe rfl (by omega) rfl,
      fun i => ⟨written (.tapRe i) (by omega) (by omega) (targetAt_tapRe _ i),
        written (.tapIm i) (by omega) (by omega) (targetAt_tapIm _ i)⟩⟩

end Sys2Proof.Proofs

/-!
PROOFS. What a host access can leave, said once (20_memory.md R107, R108, R112; 60_exceptions.md R431, R432, R435).
-/
namespace Sys2Proof.Proofs

open Sys2Proof.Machine Sys2Proof.Spec

/-- What a host access can leave, before its bus answer is recorded: the state as it was, by a read, a bus error or a write that
is ignored; a refused access; the write of a register; the write of a DMEM word. -/
inductive HostLeaves (s : State) (acc : Access) : State → Prop
  | same : HostLeaves s acc s
  | refused {off : BitVec 25} (hacc : acc = .read .w32 off ∨ ∃ w, acc = .write .w32 off w) (aligned : off.toNat % 4 = 0)
      (busy : s.status.busy = true) (marked : (targetAt s.cfg off.toNat).busyRefused = true) : HostLeaves s acc s.refuse
  | register {off : BitVec 25} {w : Word} {r : Reg} (hacc : acc = .write .w32 off w) (aligned : off.toNat % 4 = 0)
      (target : targetAt s.cfg off.toNat = .reg r) (allowed : s.status.busy = true → r.busyRefused = false) :
      HostLeaves s acc (s.writeReg r w)
  | dmem {off : BitVec 25} {w : Word} {a : Nat} (hacc : acc = .write .w32 off w) (aligned : off.toNat % 4 = 0)
      (target : targetAt s.cfg off.toNat = .dmem a) (idle : s.status.busy = false) :
      HostLeaves s acc { s with mem := s.mem.writeWord a w }

/-- An access that is no bus error is 32 bits wide and aligned (R107). -/
theorem accessOk_iff {wd : Width} {off : BitVec 25} : accessOk wd off = true ↔ wd = .w32 ∧ off.toNat % 4 = 0 := by
  simp [accessOk]

/-- A read changes nothing, or is refused. -/
theorem hostRead_next {s t : State} {wd : Width} {off : BitVec 25} (h : hostRead s wd off = .next t) :
    ∃ u ans, HostLeaves s (.read wd off) u ∧ t = u.answered ans := by
  unfold hostRead at h
  split at h
  case isTrue => exact ⟨s, _, .same, (Host.Outcome.next.inj h).symm⟩
  case isFalse ok =>
    obtain ⟨rfl, aligned⟩ := accessOk_iff.1 (by simpa using ok)
    dsimp only at h
    split at h
    case isTrue refused =>
      obtain ⟨busy, marked⟩ := Bool.and_eq_true_iff.1 refused
      exact ⟨_, _, .refused (.inl rfl) aligned busy marked, (Host.Outcome.next.inj h).symm⟩
    case isFalse =>
      split at h
      case h_1 => exact ⟨s, _, .same, (Host.Outcome.next.inj h).symm⟩
      case h_2 =>
        split at h
        case h_1 => exact ⟨s, _, .same, (Host.Outcome.next.inj h).symm⟩
        case h_2 => cases h

/-- A write is a bus error, is refused, or writes its target. -/
theorem hostWrite_leaves (s : State) (wd : Width) (off : BitVec 25) (w : Word) :
    ∃ u ans, HostLeaves s (.write wd off w) u ∧ hostWrite s wd off w = u.answered ans := by
  unfold hostWrite
  split
  case isTrue => exact ⟨s, _, .same, rfl⟩
  case isFalse ok =>
    obtain ⟨rfl, aligned⟩ := accessOk_iff.1 (by simpa using ok)
    dsimp only
    split
    case isTrue refused =>
      obtain ⟨busy, marked⟩ := Bool.and_eq_true_iff.1 refused
      exact ⟨_, _, .refused (.inr ⟨w, rfl⟩) aligned busy marked, rfl⟩
    case isFalse taken =>
      split
      case h_1 r target =>
        rw [target] at taken
        have allowed : s.status.busy = true → r.busyRefused = false := fun busy => by
          simpa [busy, Target.busyRefused] using taken
        exact ⟨_, _, .register rfl aligned target allowed, rfl⟩
      case h_2 a target =>
        rw [target] at taken
        exact ⟨_, _, .dmem rfl aligned target (by simpa [Target.busyRefused] using taken), rfl⟩

/-- What any host access that answers a next state leaves. -/
theorem hostAccess_next {s t : State} {acc : Access} (h : hostAccess s acc = .next t) :
    ∃ u ans, HostLeaves s acc u ∧ t = u.answered ans := by
  cases acc with
  | read wd off => exact hostRead_next h
  | write wd off w =>
    obtain rfl := Host.Outcome.next.inj h
    exact hostWrite_leaves s wd off w

end Sys2Proof.Proofs

/-!
PROOFS. A command in flight is not disturbed by the host (10_state.md R71; 20_memory.md R112; 60_exceptions.md R421, R435): an
access that is no soft reset keeps the data of the state, and the engine's step is a function of the data and of the word in
flight.
-/
namespace Sys2Proof.Proofs

open Sys2Proof.Machine Sys2Proof.Spec

/-! ## What a host access keeps while a command is in flight -/

/-- `t` has the data of `s`, and STATUS shows the same command in flight or none: what the engine's step depends on. -/
structure Undisturbed (s t : State) : Prop where
  data : s.sameData t
  busy : t.status.busy = s.status.busy
  lastOpc : t.status.lastOpc = s.status.lastOpc

/-- A change of STATUS that keeps BUSY and LAST_OPC, of CTRL or of the bus answer disturbs nothing. -/
theorem undisturbed_of_status {s t : State} (ht : t = { s with status := t.status, irqEn := t.irqEn, answer := t.answer })
    (hb : t.status.busy = s.status.busy) (ho : t.status.lastOpc = s.status.lastOpc) : Undisturbed s t := by
  refine ⟨?_, hb, ho⟩
  rw [ht]
  exact ⟨rfl, rfl, rfl, rfl, rfl, rfl, rfl, rfl, rfl, rfl⟩

theorem undisturbed_answered (s : State) (a : BusAnswer) : Undisturbed s (s.answered a) :=
  undisturbed_of_status rfl rfl rfl

theorem undisturbed_refuse (s : State) (a : BusAnswer) : Undisturbed s (s.refuse.answered a) :=
  undisturbed_of_status rfl rfl rfl

/-- While BUSY the only registers whose write has an effect are STATUS, CMD and CTRL, and only a soft reset by CTRL changes more
than STATUS and IRQ_EN (R71, R112). -/
theorem undisturbed_writeReg {s : State} {r : Reg} {w : Word} (hb : s.status.busy = true) (hr : r.busyRefused = false)
    (hreset : r = .ctrl → w.getLsbD 1 = false) (a : BusAnswer) : Undisturbed s ((s.writeReg r w).answered a) := by
  by_cases ignored : ignoresWrites r = true
  · rw [writeReg_of_ignoresWrites ignored]
    exact undisturbed_answered s a
  · cases r with
    | ctrl =>
      rw [State.writeReg, State.writeCtrl, hreset rfl]
      exact undisturbed_of_status rfl rfl rfl
    | status => exact undisturbed_of_status rfl rfl rfl
    | cmd =>
      rw [State.writeReg, State.writeCmd, hb]
      exact undisturbed_of_status rfl rfl rfl
    | arg | sampleRate | fcchD | fcchP | fcchG | fcchMe | tapRe | tapIm => simp [Reg.busyRefused] at hr
    | _ => exact absurd rfl ignored

/-- CTRL is written by a 32-bit write at its one offset. -/
theorem eq_ctrl_offset {c : Config} {off : BitVec 25} (h : targetAt c off.toNat = .reg .ctrl) : off = 0x008#25 := by
  obtain ⟨ctrl, -, -⟩ := targetAt_offset (c := c) (off := off.toNat)
  exact BitVec.eq_of_toNat_eq (ctrl h)

/-- R71, R112: a host access while a command is in flight, but for a soft reset, leaves its data and its word. -/
theorem undisturbed_hostAccess {s t : State} {acc : Access} (hb : s.status.busy = true)
    (hreset : ∀ w, acc = .write .w32 0x008#25 w → w.getLsbD 1 = false) (h : hostAccess s acc = .next t) :
    Undisturbed s t := by
  obtain ⟨u, ans, left, rfl⟩ := hostAccess_next h
  cases left with
  | same => exact undisturbed_answered s ans
  | refused => exact undisturbed_refuse s ans
  | @register off w r hacc aligned target allowed =>
    refine undisturbed_writeReg hb (allowed hb) (fun ctrl => hreset w ?_) ans
    subst ctrl
    rw [hacc, eq_ctrl_offset target]
  | dmem hacc aligned target idle => simp [hb] at idle

/-! ## The engine's step is a function of what is kept -/

/-- The two states have the same data, and STATUS shows the same completion. -/
structure SameCompletion (t t' : State) : Prop where
  data : State.sameData t t'
  busy : t'.status.busy = t.status.busy
  done : t'.status.done = t.status.done
  err : t'.status.err = t.status.err
  detect : t'.status.detect = t.status.detect
  errcode : t'.status.errcode = t.status.errcode
  lastOpc : t'.status.lastOpc = t.status.lastOpc

theorem Undisturbed.completeErr {s s' : State} (h : Undisturbed s s') (c : ErrCode) :
    SameCompletion (s.completeErr c) (s'.completeErr c) where
  data := h.data
  busy := rfl
  done := rfl
  err := rfl
  detect := rfl
  errcode := rfl
  lastOpc := h.lastOpc

theorem Undisturbed.apply {s s' : State} (h : Undisturbed s s') (e : Effect) : SameCompletion (s.apply e) (s'.apply e) where
  data := by
    obtain ⟨hcfg, hmem, hcmd, hargs, hres, hrate, hfcch, htd, hpulse, hfault⟩ := h.data
    simp [State.sameData, *]
  busy := rfl
  done := rfl
  err := rfl
  detect := rfl
  errcode := rfl
  lastOpc := h.lastOpc

/-- R421: what a command answers is fixed by the data. -/
theorem Undisturbed.exec_congr {s s' : State} (h : Undisturbed s s') (i : Instr) :
    (∀ t, exec i s = .next t → ∃ t', exec i s' = .next t' ∧ SameCompletion t t')
    ∧ ∀ f, exec i s = .fault f → exec i s' = .fault f := by
  have checks := checksOf_congr h.data i
  have effect := effectOf_congr h.data i
  have word : s'.cmd = s.cmd := by
    obtain ⟨-, -, hcmd, -⟩ := h.data
    exact hcmd.symm
  rw [exec_eq_perform, exec_eq_perform, checks]
  refine ⟨fun t ht => ?_, fun f hf => ?_⟩
  · rcases perform_next ht with ⟨c, hc, rfl⟩ | ⟨e, hc, he, rfl⟩
    · exact ⟨_, perform_of_error hc, h.completeErr c⟩
    · exact ⟨_, perform_of_ok hc (effect.trans he), h.apply e⟩
  · obtain ⟨a, rfl, hc | ⟨hc, he⟩⟩ := perform_fault hf
    · simp [perform, hc, word]
    · rw [perform_of_unwritten hc (effect.trans he), word]

/-- The engine's step of an illegal word in flight (R142). -/
theorem engineStep_of_illegal {s : State} {e : DecodeError} (hb : s.status.busy = true)
    (he : decodeWord s.cmd = .error e) : engineStep s = .next (s.completeErr .illegal) := by
  simp only [engineStep, if_pos hb, he]

/-- R435: the engine's step of the word in flight ends as it would have without the access. -/
theorem Undisturbed.engineStep_congr {s s' : State} (h : Undisturbed s s') (hb : s.status.busy = true) :
    (∀ t, engineStep s = .next t → ∃ t', engineStep s' = .next t' ∧ SameCompletion t t')
    ∧ ∀ f, engineStep s = .fault f → engineStep s' = .fault f := by
  have hb' : s'.status.busy = true := h.busy.trans hb
  have word : s'.cmd = s.cmd := by
    obtain ⟨-, -, hcmd, -⟩ := h.data
    exact hcmd.symm
  cases decoded : decodeWord s.cmd with
  | error e =>
    rw [engineStep_of_illegal hb decoded, engineStep_of_illegal hb' (word ▸ decoded)]
    refine ⟨fun t ht => ?_, fun f hf => nomatch hf⟩
    obtain rfl := Host.Outcome.next.inj ht
    exact ⟨_, rfl, h.completeErr .illegal⟩
  | ok i =>
    rw [engineStep_of_decode hb decoded, engineStep_of_decode hb' (word ▸ decoded)]
    exact h.exec_congr i

/-- Settles O22: the access keeps what the engine's step depends on. -/
theorem hostCannotDisturbACommand : Obligations.HostCannotDisturbACommand := by
  intro s s' acc hb hreset hs
  have kept := undisturbed_hostAccess hb hreset hs
  obtain ⟨next, fault⟩ := kept.engineStep_congr hb
  obtain ⟨-, -, hcmd, -⟩ := kept.data
  refine ⟨kept.busy.trans hb, hcmd.symm, fun t ht => ?_, fault⟩
  obtain ⟨t', ht', same⟩ := next t ht
  exact ⟨t', ht', same.data, same.busy, same.done, same.err, same.detect, same.errcode, same.lastOpc⟩

end Sys2Proof.Proofs

/-!
PROOFS. The invariant of L1DSP (10_state.md R57-R61, R64, R66, R68; 20_memory.md R100, R105): what the checks of a command leave
its effect, that each turn of an agent keeps the invariant, and R64.
-/
namespace Sys2Proof.Proofs

open Sys2Proof.Machine Sys2Proof.Spec

/-! ## What passed checks say of the destinations (R103, R200) -/

/-- Every condition of checks that read no DMEM holds when they pass. -/
theorem of_pureChecks {cs : List (Bool × ErrCode)} {p : Bool × ErrCode} (h : pureChecks cs = .ok none) (hp : p ∈ cs) :
    p.1 = true :=
  firstFailing_eq_none.1 (Except.ok.inj h) p hp

/-- A vector whose RANGE check is among checks that pass lies in DMEM. -/
theorem fits_of_pureChecks {s : State} {cs : List (Bool × ErrCode)} {a w : Nat} (h : pureChecks cs = .ok none)
    (hp : (s.inRange a w, ErrCode.range) ∈ cs) : a + w ≤ s.cfg.dmemWords :=
  State.inRange_iff.1 (of_pureChecks h hp)

/-- The checks of `VITERBI_SOFT` pass only when those on registers do (R382). -/
theorem viterbiChecks_of_soft {x : Bool} {s : State} (h : viterbiSoftChecks x s = .ok none) : viterbiChecks x s = none := by
  unfold viterbiSoftChecks at h
  split at h
  case h_1 => cases h
  case h_2 passed => exact passed

/-- Passed checks put every destination of the command in DMEM. -/
theorem dstWords_fit {i : Instr} {s : State} (h : checksOf i s = .ok none) :
    ∀ d ∈ dstWords i s, d.1 + d.2 ≤ s.cfg.dmemWords := by
  cases i with
  | nop | sinc | interp | peak | p2m | norm2 | fcchInit | fcchFlush | fcchFeed | fcchWalk | fcchScan | freqDetect
  | parityCheck | schFields => exact fun d hd => nomatch hd
  | designDfe | equalize =>
    refine List.forall_mem_cons.2 ⟨?_, List.forall_mem_singleton.2 ?_⟩ <;> exact fits_of_pureChecks h (by simp)
  | viterbiSoft x =>
    refine List.forall_mem_singleton.2 ?_
    exact fits_of_pureChecks (congrArg Except.ok (viterbiChecks_of_soft h)) (by simp)
  | _ =>
    refine List.forall_mem_singleton.2 ?_
    exact fits_of_pureChecks h (by simp)

/-- Passed checks put every vector that the effect stores in DMEM. -/
theorem stores_fit {i : Instr} {s : State} {e : Effect} (hc : checksOf i s = .ok none) (he : effectOf i s = .ok e) :
    ∀ v ∈ e.stores, v.1 + v.2.length ≤ s.cfg.dmemWords := by
  obtain ⟨stores, -⟩ := effectOf_shape he
  exact fun v hv => dstWords_fit hc (v.1, v.2.length) (stores ▸ List.mem_map_of_mem hv)

/-! ## The FCCH buffers (R64, R281, R282) -/

@[simp] theorem predictStep_d (f : Fcch) : f.predictStep.d = f.d := by
  rw [Fcch.predictStep]

@[simp] theorem predictStep_xbuf (f : Fcch) : f.predictStep.xbuf = f.xbuf.tail := rfl
@[simp] theorem predictStep_ebuf (f : Fcch) : f.predictStep.ebuf = f.ebuf ++ [f.normalizedError] := rfl

theorem feedSample_d (f : Fcch) (x : Cplx) : (f.feedSample x).d = f.d := by
  rw [Fcch.feedSample]
  split <;> simp

/-- A sample that completes a window makes one error and leaves XBUF as long as it was. -/
theorem feedSample_lengths_of_full {f : Fcch} (x : Cplx) (h : 16 + f.d.toNat ≤ f.xbuf.length) :
    (f.feedSample x).xbuf.length = f.xbuf.length ∧ (f.feedSample x).ebuf.length = f.ebuf.length + 1 := by
  have full : 17 + f.d.toNat ≤ (f.xbuf ++ [x]).length := by
    rw [List.length_append, List.length_singleton]
    omega
  rw [Fcch.feedSample, if_pos full]
  simp

/-- Any other sample is appended to XBUF and makes no error. -/
theorem feedSample_lengths_of_short {f : Fcch} (x : Cplx) (h : f.xbuf.length < 16 + f.d.toNat) :
    (f.feedSample x).xbuf.length = f.xbuf.length + 1 ∧ (f.feedSample x).ebuf.length = f.ebuf.length := by
  have short : ¬ 17 + f.d.toNat ≤ (f.xbuf ++ [x]).length := by
    rw [List.length_append, List.length_singleton]
    omega
  rw [Fcch.feedSample, if_neg short]
  simp

theorem feedAll_cons (f : Fcch) (x : Cplx) (xs : List Cplx) : f.feedAll (x :: xs) = (f.feedSample x).feedAll xs := rfl

/-- Feeding leaves at most 16 + D samples pending, or as many as there were. -/
theorem feedAll_xbuf_length_le (xs : List Cplx) (f : Fcch) :
    (f.feedAll xs).xbuf.length ≤ max f.xbuf.length (16 + f.d.toNat) := by
  induction xs generalizing f with
  | nil => exact Nat.le_max_left _ _
  | cons x xs ih =>
    have rest := ih (f.feedSample x)
    rw [feedSample_d] at rest
    rw [feedAll_cons]
    rcases Nat.lt_or_ge f.xbuf.length (16 + f.d.toNat) with short | full
    · obtain ⟨hx, -⟩ := feedSample_lengths_of_short x short
      omega
    · obtain ⟨hx, -⟩ := feedSample_lengths_of_full x full
      omega

/-- Feeding makes at most the errors that the formula of R290 counts, whatever FCCH_D is (log entry 10). -/
theorem feedAll_ebuf_length_le (xs : List Cplx) (f : Fcch) :
    (f.feedAll xs).ebuf.length ≤ f.ebuf.length + f.errorsFor xs.length := by
  induction xs generalizing f with
  | nil => exact Nat.le_add_right _ _
  | cons x xs ih =>
    have rest := ih (f.feedSample x)
    rw [Fcch.errorsFor, feedSample_d] at rest
    rw [feedAll_cons, Fcch.errorsFor, List.length_cons]
    rcases Nat.lt_or_ge f.xbuf.length (16 + f.d.toNat) with short | full
    · obtain ⟨hx, he⟩ := feedSample_lengths_of_short x short
      omega
    · obtain ⟨hx, he⟩ := feedSample_lengths_of_full x full
      omega

/-- Both buffers of the detector are within their capacities (R64). -/
def BuffersFit (c : Config) (f : Fcch) : Prop := f.xbuf.length ≤ c.xCap ∧ f.ebuf.length ≤ c.eCap

/-- A detector whose buffers are empty, as after `FCCH_INIT`, `FCCH_FLUSH` and `FCCH_SCAN`. -/
theorem buffersFit_of_empty {c : Config} {f : Fcch} (hx : f.xbuf = []) (he : f.ebuf = []) : BuffersFit c f := by
  simp [BuffersFit, hx, he]

/-- The capacity checks of `FCCH_FEED` bound what feeding leaves (R63, R290). -/
theorem buffersFit_feedAll {c : Config} {f : Fcch} {xs : List Cplx} (h : BuffersFit c f)
    (hx : 17 + f.d.toNat ≤ c.xCap) (he : f.ebuf.length + f.errorsFor xs.length ≤ c.eCap) :
    BuffersFit c (f.feedAll xs) := by
  obtain ⟨hxbuf, -⟩ := h
  have xbuf := feedAll_xbuf_length_le xs f
  have ebuf := feedAll_ebuf_length_le xs f
  exact ⟨by omega, by omega⟩

/-- A command whose checks pass leaves buffers that fit. -/
theorem buffersFit_effect {i : Instr} {s : State} {e : Effect} (hc : checksOf i s = .ok none) (he : effectOf i s = .ok e)
    (h : BuffersFit s.cfg s.fcch) : BuffersFit s.cfg (e.fcch.getD s.fcch) := by
  obtain ⟨-, -, untouched, -⟩ := effectOf_shape he
  by_cases detector : i = .fcchInit ∨ i = .fcchFlush ∨ i = .fcchFeed ∨ i = .fcchScan
  · rcases detector with rfl | rfl | rfl | rfl
    · obtain rfl := Except.ok.inj he
      exact buffersFit_of_empty rfl rfl
    · obtain rfl := Except.ok.inj he
      exact buffersFit_of_empty rfl rfl
    · obtain ⟨xs, read, he⟩ := Rd.bind_ok he
      obtain rfl := Except.ok.inj he
      have count : xs.length = s.argN 1 := tabRd_length read
      have room := of_pureChecks (p := (decide (17 + s.fcch.d.toNat ≤ s.cfg.xCap), .capacity)) hc (by simp)
      have errors := of_pureChecks hc
        (p := (decide (s.fcch.ebuf.length + s.fcch.errorsFor (s.argN 1) ≤ s.cfg.eCap), .capacity)) (by simp)
      exact buffersFit_feedAll h (of_decide_eq_true room) (count ▸ of_decide_eq_true errors)
    · obtain ⟨xs, -, he⟩ := Rd.bind_ok he
      obtain ⟨r, -, he⟩ := Rd.bind_ok he
      obtain rfl := Except.ok.inj he
      exact buffersFit_of_empty rfl rfl
  · simp only [not_or] at detector
    obtain ⟨h1, h2, h3, h4⟩ := detector
    rw [untouched h1 h2 h3 h4]
    exact h

/-! ## The pulse cache (R68, R262) -/

theorem gaussPulse_length (sps : F32) : (gaussPulse sps).length = pulseLen sps := by
  simp [gaussPulse]

/-- A pulse that is built is as long as the check of `MODULATE` allows; one already there is kept. -/
theorem built_length_le {p : Pulse} {sps : F32} {n : Nat} (h : p.samples.length ≤ n)
    (room : (p.valid || decide (pulseLen sps ≤ n)) = true) : (p.built sps).samples.length ≤ n := by
  rw [Pulse.built]
  split
  case isTrue => exact h
  case isFalse empty =>
    rw [gaussPulse_length]
    simpa [empty] using room

theorem built_valid (p : Pulse) (sps : F32) : (p.built sps).valid = true := by
  rw [Pulse.built]
  split
  case isTrue valid => exact valid
  case isFalse => rfl

/-- A command whose checks pass leaves the pulse cache in order. -/
theorem pulseOk_apply {i : Instr} {s : State} {e : Effect} (hc : checksOf i s = .ok none) (he : effectOf i s = .ok e)
    (h : s.pulseOk) : (s.apply e).pulseOk := by
  obtain ⟨-, -, -, -, untouched, -⟩ := effectOf_shape he
  by_cases modulate : i = .modulate
  · subst modulate
    obtain ⟨bits, -, he⟩ := Rd.bind_ok he
    obtain ⟨ys, -, he⟩ := Rd.bind_ok he
    obtain rfl := Except.ok.inj he
    have room := of_pureChecks hc
      (p := (s.pulse.valid || decide (pulseLen (s.argF 3) ≤ s.cfg.gpMax), .capacity)) (by simp)
    obtain ⟨-, fits⟩ := h
    rw [State.pulseOk, State.apply_pulse, State.apply_cfg, Option.getD_some]
    exact ⟨fun invalid => by simp [built_valid] at invalid, built_length_le fits room⟩
  · simpa [State.pulseOk, untouched modulate] using h

/-! ## STATUS (R57-R61) -/

theorem statusOk_completeErr {s : State} (h : s.statusOk) {c : ErrCode} (hc : c ≠ .none) : (s.completeErr c).statusOk := by
  obtain ⟨-, -, -, opc⟩ := h
  simp [State.statusOk, hc, opc]

theorem statusOk_apply {s : State} (h : s.statusOk) (e : Effect) : (s.apply e).statusOk := by
  obtain ⟨-, -, -, opc⟩ := h
  simp [State.statusOk, opc]

theorem statusOk_accept (s : State) (w : Word) : (s.accept w).statusOk := by
  simp [State.statusOk]

theorem statusOk_writeOneToClear {s : State} (h : s.statusOk) (w : Word) :
    State.statusOk { s with status := s.status.writeOneToClear w } := by
  obtain ⟨busy, detect, err, opc⟩ := h
  refine ⟨fun hb => ?_, detect, fun he => ?_, opc⟩
  · obtain ⟨hd, he, rest⟩ := busy hb
    exact ⟨by simp [hd], by simp [he], rest⟩
  · exact err (Bool.and_eq_true_iff.1 he).1

/-! ## Updates that keep the invariant -/

/-- The invariant says nothing of the other registers, the turns still to come or the last bus answer. -/
theorem inv_of_kept {s t : State} (h : s.Inv) (cfg : t.cfg = s.cfg) (mem : t.mem = s.mem) (fault : t.fault = s.fault)
    (xbuf : t.fcch.xbuf = s.fcch.xbuf) (ebuf : t.fcch.ebuf = s.fcch.ebuf) (pulse : t.pulse = s.pulse)
    (status : t.statusOk) : t.Inv where
  noFault := fault ▸ h.noFault
  memWf := mem ▸ h.memWf
  memWithin := by rw [mem, cfg]; exact h.memWithin
  memWhole := by rw [mem]; exact h.memWhole
  xbufFits := by rw [xbuf, cfg]; exact h.xbufFits
  ebufFits := by rw [ebuf, cfg]; exact h.ebufFits
  pulseOk := by rw [State.pulseOk, pulse, cfg]; exact h.pulseOk
  statusOk := status

/-- A reset of either kind, with what is left of DMEM. -/
theorem inv_resetOf {c : Config} {m : Memory} (wf : m.wf) (within : m.within c.dmemWords) (whole : m.whole)
    (agenda : List Event) : State.Inv { State.resetOf c with mem := m, agenda := agenda } where
  noFault := rfl
  memWf := wf
  memWithin := within
  memWhole := whole
  xbufFits := Nat.zero_le _
  ebufFits := Nat.zero_le _
  pulseOk := ⟨fun _ => ⟨rfl, rfl⟩, Nat.zero_le _⟩
  statusOk := ⟨(fun h => nomatch h), (fun h => nomatch h), (fun h => nomatch h), rfl⟩

theorem inv_hardReset (s : State) : s.hardReset.Inv :=
  inv_resetOf List.Pairwise.nil (fun _ h => nomatch h) (fun _ h => nomatch h) s.agenda

/-- The abort of the command in flight only makes words unwritten (R452). -/
theorem abortedMem_eq_unwriteAll (s : State) : ∃ ds, s.abortedMem = s.mem.unwriteAll ds := by
  unfold State.abortedMem
  split
  case isTrue =>
    split
    case h_1 => exact ⟨[], rfl⟩
    case h_2 i _ =>
      split
      case h_1 => exact ⟨[], rfl⟩
      case h_2 => exact ⟨_, rfl⟩
      case h_3 => exact ⟨_, rfl⟩
  case isFalse => exact ⟨[], rfl⟩

theorem inv_softReset {s : State} (h : s.Inv) : s.softReset.Inv := by
  obtain ⟨ds, aborted⟩ := abortedMem_eq_unwriteAll s
  rw [State.softReset, aborted]
  exact inv_resetOf (Memory.wf_unwriteAll ds h.memWf) (Memory.within_unwriteAll ds h.memWithin)
    (Memory.whole_unwriteAll ds h.memWhole) s.agenda

theorem inv_writeWord {s : State} (h : s.Inv) {a : Nat} (ha : a < s.cfg.dmemWords) (w : Word) :
    State.Inv { s with mem := s.mem.writeWord a w } :=
  { h with
    memWf := Memory.wf_writeWord h.memWf a w
    memWithin := Memory.within_writeWord h.memWithin ha w
    memWhole := Memory.whole_writeWord h.memWhole a w }

theorem inv_writeReg {s : State} (h : s.Inv) (r : Reg) (w : Word) : (s.writeReg r w).Inv := by
  by_cases ignored : ignoresWrites r = true
  · rwa [writeReg_of_ignoresWrites ignored]
  · cases r with
    | ctrl =>
      rw [State.writeReg, State.writeCtrl]
      split
      · exact inv_softReset h
      · exact inv_of_kept h rfl rfl rfl rfl rfl rfl h.statusOk
    | status => exact inv_of_kept h rfl rfl rfl rfl rfl rfl (statusOk_writeOneToClear h.statusOk w)
    | cmd =>
      rw [State.writeReg, State.writeCmd]
      split
      · exact inv_of_kept h rfl rfl rfl rfl rfl rfl h.statusOk
      · exact inv_of_kept h rfl rfl rfl rfl rfl rfl (statusOk_accept s w)
    | arg | sampleRate | fcchD | fcchP | fcchG | fcchMe | tapRe | tapIm =>
      exact inv_of_kept h rfl rfl rfl rfl rfl rfl h.statusOk
    | _ => exact absurd rfl ignored

/-- The whole effect of a command whose checks pass. -/
theorem inv_apply {s : State} (h : s.Inv) {i : Instr} {e : Effect} (hc : checksOf i s = .ok none)
    (he : effectOf i s = .ok e) : (s.apply e).Inv := by
  obtain ⟨xbuf, ebuf⟩ := buffersFit_effect hc he ⟨h.xbufFits, h.ebufFits⟩
  exact
    { noFault := by rw [State.apply_fault]; exact h.noFault
      memWf := by rw [State.apply_mem]; exact Memory.wf_stores _ h.memWf
      memWithin := by rw [State.apply_mem, State.apply_cfg]; exact Memory.within_stores _ h.memWithin (stores_fit hc he)
      memWhole := by rw [State.apply_mem]; exact Memory.whole_stores _ h.memWhole
      xbufFits := by rw [State.apply_fcch, State.apply_cfg]; exact xbuf
      ebufFits := by rw [State.apply_fcch, State.apply_cfg]; exact ebuf
      pulseOk := pulseOk_apply hc he h.pulseOk
      statusOk := statusOk_apply h.statusOk e }

/-! ## The turns of the agents -/

/-- The DMEM words of the window lie in DMEM (R106). -/
theorem lt_dmemWords_of_targetAt {c : Config} {off a : Nat} (h : targetAt c off = .dmem a) : a < c.dmemWords := by
  unfold targetAt at h
  split at h
  case isTrue => cases h
  case isFalse =>
    split at h
    case isTrue inside =>
      obtain rfl := Target.dmem.inj h
      exact inside.2
    case isFalse => cases h

/-- The host's turn keeps the invariant. -/
theorem inv_hostAccess {s t : State} (h : s.Inv) {acc : Access} (ht : hostAccess s acc = .next t) : t.Inv := by
  obtain ⟨u, ans, left, rfl⟩ := hostAccess_next ht
  have kept : u.Inv := by
    cases left with
    | same => exact h
    | refused => exact inv_of_kept h rfl rfl rfl rfl rfl rfl h.statusOk
    | register => exact inv_writeReg h _ _
    | dmem _ _ target _ => exact inv_writeWord h (lt_dmemWords_of_targetAt target) _
  exact inv_of_kept kept rfl rfl rfl rfl rfl rfl kept.statusOk

/-- The engine's turn keeps the invariant. -/
theorem inv_engineStep {s t : State} (h : s.Inv) (ht : engineStep s = .next t) : t.Inv := by
  have failed {c : ErrCode} (hc : c ≠ .none) : (s.completeErr c).Inv :=
    inv_of_kept h rfl rfl rfl rfl rfl rfl (statusOk_completeErr h.statusOk hc)
  cases hb : s.status.busy with
  | false =>
    rw [engineStep_of_idle hb] at ht
    exact Host.Outcome.next.inj ht ▸ h
  | true =>
    cases decoded : decodeWord s.cmd with
    | error e =>
      rw [engineStep_of_illegal hb decoded] at ht
      exact Host.Outcome.next.inj ht ▸ failed (by decide)
    | ok i =>
      rw [engineStep_of_decode hb decoded] at ht
      rcases exec_next ht with ⟨c, hc, rfl⟩ | ⟨e, hc, he, rfl⟩
      · exact failed (checksOf_ne_none hc)
      · exact inv_apply h hc he

/-- A step that answers a next state is a turn of the engine, of the host or of the reset input, in the state that has used up
the turn, and that state has no fault record. -/
theorem step_next {s t : State} (h : step s = .next t) :
    s.fault = none ∧ ∃ rest,
      engineStep { s with agenda := rest } = .next t
      ∨ (∃ acc, s.agenda = .host acc :: rest ∧ hostAccess { s with agenda := rest } acc = .next t)
      ∨ (s.agenda = .reset :: rest ∧ t = State.hardReset { s with agenda := rest }) := by
  have hf : s.fault = none := by
    cases hf : s.fault with
    | none => rfl
    | some f => simp [step, hf] at h
  refine ⟨hf, ?_⟩
  cases ha : s.agenda with
  | nil => exact ⟨[], .inl ((step_of_engine_due hf (.inr ⟨ha, rfl⟩)).symm.trans h)⟩
  | cons turn rest =>
    refine ⟨rest, ?_⟩
    cases turn with
    | engine => exact .inl ((step_of_engine_turn hf ha).symm.trans h)
    | host acc => exact .inr (.inl ⟨acc, rfl, (step_of_host_turn hf ha).symm.trans h⟩)
    | reset => exact .inr (.inr ⟨rfl, Host.Outcome.next.inj (h.symm.trans (step_of_reset_turn hf ha))⟩)

theorem inv_step {s t : State} (h : s.Inv) (ht : step s = .next t) : t.Inv := by
  obtain ⟨-, rest, turn⟩ := step_next ht
  have used : State.Inv { s with agenda := rest } := inv_of_kept h rfl rfl rfl rfl rfl rfl h.statusOk
  rcases turn with engine | ⟨acc, -, host⟩ | ⟨-, rfl⟩
  · exact inv_engineStep used engine
  · exact inv_hostAccess used host
  · exact inv_hardReset _

/-! ## The configuration (R66) -/

theorem writeReg_cfg (s : State) (r : Reg) (w : Word) : (s.writeReg r w).cfg = s.cfg := by
  cases r with
  | ctrl => rw [State.writeReg, State.writeCtrl]; split <;> rfl
  | cmd => rw [State.writeReg, State.writeCmd]; split <;> rfl
  | _ => rfl

theorem hostAccess_cfg {s t : State} {acc : Access} (h : hostAccess s acc = .next t) : t.cfg = s.cfg := by
  obtain ⟨u, ans, left, rfl⟩ := hostAccess_next h
  cases left with
  | same | refused | dmem => rfl
  | register => exact writeReg_cfg s _ _

theorem engineStep_cfg {s t : State} (h : engineStep s = .next t) : t.cfg = s.cfg := by
  rcases engineStep_next h with ⟨-, rfl⟩ | ⟨-, ⟨c, rfl⟩ | ⟨i, e, -, -, -, rfl⟩⟩
  · rfl
  · rfl
  · exact State.apply_cfg s e

theorem step_cfg {s t : State} (h : step s = .next t) : t.cfg = s.cfg := by
  obtain ⟨-, rest, engine | ⟨acc, -, host⟩ | ⟨-, rfl⟩⟩ := step_next h
  · have used := engineStep_cfg engine
    exact used
  · have used := hostAccess_cfg host
    exact used
  · rfl

/-- Settles O23. -/
theorem everyStepKeepsTheInvariant : Obligations.EveryStepKeepsTheInvariant :=
  ⟨fun _ _ h ht => inv_step h ht, fun _ _ ht => step_cfg ht⟩

/-! ## Entries held and entries free (R64) -/

/-- The capacities fit the 32-bit registers (R11). -/
theorem capacities_lt_of_wf {c : Config} (h : c.wf = true) : c.xCap < 2 ^ 32 ∧ c.eCap < 2 ^ 32 := by
  simp only [Config.wf, Bool.and_eq_true, decide_eq_true_eq] at h
  omega

/-- Neither of the two registers wraps, and together they are the capacity. -/
theorem natWord_add_natWord_sub {n cap : Nat} (h : n ≤ cap) (hc : cap < 2 ^ 32) :
    (natWord n).toNat + (natWord (cap - n)).toNat = cap := by
  rw [natWord, natWord, BitVec.toNat_ofNat, BitVec.toNat_ofNat, Nat.mod_eq_of_lt (by omega), Nat.mod_eq_of_lt (by omega)]
  omega

/-- Settles O25: the invariant bounds the buffers, the configuration the capacities. -/
theorem availablePlusSpaceIsCapacity : Obligations.AvailablePlusSpaceIsCapacity := by
  intro s h wf
  obtain ⟨xCap, eCap⟩ := capacities_lt_of_wf wf
  exact ⟨natWord_add_natWord_sub h.xbufFits xCap, natWord_add_natWord_sub h.ebufFits eCap⟩

end Sys2Proof.Proofs

/-!
PROOFS. Command words and their bytes (30_encoding.md R140-R142, R146; 20_memory.md R107): a word is its four fields and its four
byte lanes, and an opcode is that of one command, so decoding and encoding are inverse.
-/
namespace Sys2Proof.Proofs

open Sys2Proof.Machine Sys2Proof.Spec

/-! ## A word and its fields (R141) -/

/-- A word is the concatenation of its fields. -/
theorem word_eq_fields (w : Word) :
    w = (fieldsOf w).rsvd ++ (fieldsOf w).flagsRsvd ++ BitVec.ofBool (fieldsOf w).x ++ (fieldsOf w).opc := by
  apply BitVec.eq_of_getLsbD_eq
  intro i hi
  change _ = BitVec.getLsbD (w := 16 + 7 + 1 + 8) _ i
  simp only [fieldsOf, BitVec.getLsbD_append, BitVec.getLsbD_extractLsb', BitVec.getLsbD_ofBool]
  interval_cases i <;> simp

/-- The fields of a command's word: its opcode, its flag X, and zeros. -/
theorem fieldsOf_encode (i : Instr) : fieldsOf (encode i) = ⟨opcodeOf i, xOf i, 0#7, 0#16⟩ := by
  cases i with
  | viterbiHard x | viterbiSoft x => cases x <;> rfl
  | _ => rfl

/-- A word with the fields of a command's word is that word. -/
theorem eq_encode_of_fieldsOf {w : Word} {i : Instr} (h : fieldsOf w = ⟨opcodeOf i, xOf i, 0#7, 0#16⟩) : w = encode i := by
  rw [word_eq_fields w, word_eq_fields (encode i), h, fieldsOf_encode]

/-! ## Opcodes (R146) -/

/-- The table of R146 gives a command's opcode that command. -/
theorem opcodeInstr_opcodeOf (i : Instr) : opcodeInstr (xOf i) (opcodeOf i) = some i := by
  cases i <;> rfl

/-- The table gives an opcode only to the command that has it. -/
theorem eq_opcodeOf_of_opcodeInstr {x : Bool} {opc : BitVec 8} {i : Instr} (h : opcodeInstr x opc = some i) :
    opc = opcodeOf i := by
  unfold opcodeInstr at h
  split at h
  case h_36 => cases h
  all_goals
    rename_i number
    obtain rfl := Option.some.inj h
    exact BitVec.eq_of_toNat_eq number

/-- The flag X reaches the two Viterbi decoders, and no other command (R141). -/
theorem xOf_of_opcodeInstr {x : Bool} {i : Instr} (h : opcodeInstr x (opcodeOf i) = some i) :
    xOf i = (x && (opcodeOf i == 0x63#8 || opcodeOf i == 0x64#8)) := by
  cases i with
  | viterbiHard y =>
    obtain rfl := Instr.viterbiHard.inj (Option.some.inj h)
    exact (Bool.and_true x).symm
  | viterbiSoft y =>
    obtain rfl := Instr.viterbiSoft.inj (Option.some.inj h)
    exact (Bool.and_true x).symm
  | _ => exact (Bool.and_false x).symm

/-! ## Words (R142, R147) -/

/-- A word decodes to a command when its opcode is given that command and its other fields are legal. -/
theorem decodeWord_eq_ok {w : Word} {i : Instr} :
    decodeWord w = .ok i ↔
      opcodeInstr (fieldsOf w).x (fieldsOf w).opc = some i ∧ (fieldsOf w).rsvdZero = true
        ∧ (fieldsOf w).flagsZero = true ∧ (fieldsOf w).xAllowed = true := by
  unfold decodeWord
  dsimp only
  split
  next unassigned => simp [unassigned]
  next j assigned =>
    rw [assigned]
    split_ifs <;> simp_all

/-- Every command's word decodes to the command. -/
theorem decodeWord_encode (i : Instr) : decodeWord (encode i) = .ok i := by
  rw [decodeWord_eq_ok, fieldsOf_encode]
  refine ⟨opcodeInstr_opcodeOf i, rfl, rfl, ?_⟩
  cases i with
  | viterbiHard x | viterbiSoft x => cases x <;> rfl
  | _ => rfl

/-- A word that decodes is the word of the command it decodes to. -/
theorem eq_encode_of_decodeWord {w : Word} {i : Instr} (h : decodeWord w = .ok i) : w = encode i := by
  obtain ⟨assigned, rsvd, flags, allowed⟩ := decodeWord_eq_ok.1 h
  have opc := eq_opcodeOf_of_opcodeInstr assigned
  have x : xOf i = (fieldsOf w).x := by
    rw [opc] at assigned
    rw [CmdFields.xAllowed, opc, Bool.or_assoc] at allowed
    rw [xOf_of_opcodeInstr assigned]
    cases hx : (fieldsOf w).x with
    | false => rfl
    | true => simpa [hx] using allowed
  have flagsZero : (fieldsOf w).flagsRsvd = 0#7 := eq_of_beq flags
  have rsvdZero : (fieldsOf w).rsvd = 0#16 := eq_of_beq rsvd
  apply eq_encode_of_fieldsOf
  rw [x, ← opc, ← flagsZero, ← rsvdZero]

/-! ## Bytes of the host window (R107, R140) -/

theorem wordOfLanes_toNat (b0 b1 b2 b3 : Byte) :
    (wordOfLanes b0 b1 b2 b3).toNat = b0.toNat + 2 ^ 8 * b1.toNat + 2 ^ 16 * b2.toNat + 2 ^ 24 * b3.toNat := by
  simp only [wordOfLanes, toNat_append_eq_add]
  omega

/-- A word made of four lanes has these lanes. -/
theorem laneOf_wordOfLanes (b0 b1 b2 b3 : Byte) :
    laneOf (wordOfLanes b0 b1 b2 b3) 0 = b0 ∧ laneOf (wordOfLanes b0 b1 b2 b3) 1 = b1
      ∧ laneOf (wordOfLanes b0 b1 b2 b3) 2 = b2 ∧ laneOf (wordOfLanes b0 b1 b2 b3) 3 = b3 := by
  have byte (b : Byte) : b.toNat < 2 ^ 8 := b.isLt
  have := byte b0; have := byte b1; have := byte b2; have := byte b3
  refine ⟨?_, ?_, ?_, ?_⟩ <;>
  · apply BitVec.eq_of_toNat_eq
    simp only [laneOf, BitVec.extractLsb'_toNat, Nat.shiftRight_eq_div_pow, wordOfLanes_toNat]
    omega

/-- A stream decodes when its first four bytes are the lanes of a word that decodes; the other bytes are left over. -/
theorem decode_eq_ok {bytes : List Byte} {i : Instr} {rest : List Byte} :
    decode bytes = .ok (i, rest) ↔
      ∃ b0 b1 b2 b3, bytes = b0 :: b1 :: b2 :: b3 :: rest ∧ decodeWord (wordOfLanes b0 b1 b2 b3) = .ok i := by
  constructor
  · intro h
    unfold decode at h
    split at h
    next b0 b1 b2 b3 rest' =>
      split at h
      next j word =>
        obtain ⟨rfl, rfl⟩ := Prod.mk.inj (Except.ok.inj h)
        exact ⟨b0, b1, b2, b3, rfl, word⟩
      next => cases h
    next => cases h
  · rintro ⟨b0, b1, b2, b3, rfl, word⟩
    simp only [decode, word]

theorem decode_encodeBytes (i : Instr) (rest : List Byte) : decode (encodeBytes i ++ rest) = .ok (i, rest) :=
  decode_eq_ok.2 ⟨_, _, _, _, rfl, by rw [wordOfLanes_laneOf, decodeWord_encode]⟩

theorem eq_encodeBytes_of_decode {bytes : List Byte} {i : Instr} {rest : List Byte} (h : decode bytes = .ok (i, rest)) :
    bytes = encodeBytes i ++ rest := by
  obtain ⟨b0, b1, b2, b3, rfl, word⟩ := decode_eq_ok.1 h
  obtain ⟨lane0, lane1, lane2, lane3⟩ := laneOf_wordOfLanes b0 b1 b2 b3
  rw [encodeBytes, ← eq_encode_of_decodeWord word, lane0, lane1, lane2, lane3]
  rfl

/-- Settles O3: the words by their fields, the bytes by the lanes of the word. -/
theorem decodeAndEncodeAreInverse : Obligations.DecodeAndEncodeAreInverse :=
  ⟨decodeWord_encode, fun _ _ => eq_encode_of_decodeWord, decode_encodeBytes, fun _ _ _ => eq_encodeBytes_of_decode⟩

end Sys2Proof.Proofs

/-!
PROOFS. DMEM through the host window, the accesses refused while BUSY, and where a step faults (20_memory.md R105, R106, R108,
R112; 60_exceptions.md R430).
-/
namespace Sys2Proof.Proofs

open Sys2Proof.Machine Sys2Proof.Spec

/-! ## The offsets of DMEM (R106) -/

/-- The aligned offsets of the window that hold a word of DMEM. -/
theorem targetAt_eq_dmem {c : Config} {off a : Nat} (hal : off % 4 = 0) :
    targetAt c off = .dmem a ↔ off = 0x01000000 + 4 * a ∧ a < c.dmemWords := by
  unfold targetAt
  split
  next block => simp; omega
  next =>
    split
    next inside => simp; omega
    next outside => simp; omega

/-- The mark B of what an aligned offset names is that of the register map and DMEM (R112). -/
theorem targetAt_busyRefused {c : Config} {off : Nat} (hal : off % 4 = 0) (hg : c.gpMax ≤ 128) :
    (targetAt c off).busyRefused = refusedWhileBusy c off := by
  by_cases block : off < 0x1000
  · rw [targetAt, if_pos block]
    exact regAt_busyRefused hal block
  · have marked : refusedWhileBusy c off = decide (0x01000000 ≤ off ∧ (off - 0x01000000) / 4 < c.dmemWords) := by
      rw [Bool.eq_iff_iff]
      simp only [refusedWhileBusy, Bool.or_eq_true, decide_eq_true_eq]
      omega
    rw [targetAt, if_neg block, marked]
    split
    case isTrue inside => exact (decide_eq_true inside).symm
    case isFalse outside => exact (decide_eq_false outside).symm

/-! ## Accesses refused while BUSY (R112) -/

/-- Settles O16: the target of the offset is marked B. -/
theorem busyAccessesRefused : Obligations.BusyAccessesRefused := by
  intro s off busy hg hal hw marked
  obtain ⟨same, ok⟩ := accessOk_ofNat hal hw
  have refused : (s.status.busy && (targetAt s.cfg off).busyRefused) = true := by
    rw [busy, targetAt_busyRefused hal hg, marked]
    rfl
  refine ⟨?_, fun w => ?_⟩
  · simp only [hostRead, ok, same, refused]
    rfl
  · simp only [WritesTo, hostWrite, ok, same, refused]
    rfl

/-! ## Reads and writes of DMEM (R105, R106, R108) -/

/-- A word of DMEM that fits the window, as the target of an aligned 32-bit access. -/
theorem dmem_access {c : Config} {a : Nat} (ha : a < c.dmemWords) (hc : c.dmemWords ≤ 2 ^ 22) :
    accessOk .w32 (BitVec.ofNat 25 (0x01000000 + 4 * a)) = true
      ∧ targetAt c (BitVec.ofNat 25 (0x01000000 + 4 * a)).toNat = .dmem a := by
  have aligned : (0x01000000 + 4 * a) % 4 = 0 := by omega
  obtain ⟨same, ok⟩ := accessOk_ofNat aligned (by omega)
  exact ⟨ok, by rw [same]; exact (targetAt_eq_dmem aligned).2 ⟨rfl, ha⟩⟩

/-- Settles O18: the write is `Memory.writeWord`, the read `Memory.readWord`. -/
theorem hostReadsAndWritesDmem : Obligations.HostReadsAndWritesDmem := by
  intro s a w idle ha hc
  obtain ⟨ok, target⟩ := dmem_access ha hc
  refine ⟨⟨s.mem.writeWord a w, ?_, Memory.readWord_writeWord_same _ _ _,
    fun b => Memory.readByte_writeWord_other _ _ _ b⟩, fun v written => ?_, fun unwritten => ?_⟩
  · simp only [WritesTo, hostWrite, ok, target, idle]
    rfl
  · simp only [ReadsAs, hostRead, ok, target, idle, written]
    rfl
  · simp only [hostRead, ok, target, idle, unwritten]
    rfl

/-! ## Where a step faults (R430) -/

/-- A command faults only at an unwritten word that its checks or its effect read. -/
theorem exec_fault {i : Instr} {s : State} {f : Fault} (h : exec i s = .fault f) :
    ∃ a, f = .unwritten a (some s.cmd) ∧ s.mem.readWord a = none := by
  rw [exec_eq_perform] at h
  obtain ⟨a, rfl, checks | ⟨-, effect⟩⟩ := perform_fault h
  · exact ⟨a, rfl, checksOf_stops i s a checks⟩
  · exact ⟨a, rfl, effectOf_stops i s a effect⟩

/-- Of the host's accesses only the read of an unwritten word of DMEM faults. -/
theorem hostAccess_fault {s : State} {acc : Access} {f : Fault} (h : hostAccess s acc = .fault f) :
    ∃ off a, acc = .read .w32 off ∧ off.toNat = 0x01000000 + 4 * a ∧ f = .unwritten a none
      ∧ s.mem.readWord a = none := by
  cases acc with
  | write wd off w => cases h
  | read wd off =>
    simp only [hostAccess, hostRead] at h
    split at h
    case isTrue => cases h
    case isFalse ok =>
      obtain ⟨rfl, aligned⟩ := accessOk_iff.1 (by simpa using ok)
      split at h
      case isTrue => cases h
      case isFalse =>
        split at h
        case h_1 => cases h
        case h_2 a target =>
          split at h
          case h_1 => cases h
          case h_2 unwritten =>
            obtain rfl := Host.Outcome.fault.inj h
            obtain ⟨place, -⟩ := (targetAt_eq_dmem aligned).1 target
            exact ⟨off, a, rfl, place, rfl, unwritten⟩

theorem step_of_fault {s : State} {f : Fault} (hf : s.fault = some f) : step s = .fault f := by
  simp only [step, hf]

/-- Settles O6. -/
theorem faultsComeFromUnwrittenWords : Obligations.FaultsComeFromUnwrittenWords := by
  refine ⟨fun s f => step_of_fault, fun i s f => exec_fault, fun s acc f h => ?_⟩
  obtain ⟨off, a, rfl, place, rfl, unwritten⟩ := hostAccess_fault h
  exact ⟨off, rfl, a, place, rfl, unwritten⟩

end Sys2Proof.Proofs

/-!
PROOFS. The checks of every command are the list of the Spec (60_exceptions.md R413), but for the DATA check of `VITERBI_SOFT`,
which reads DMEM.
-/
namespace Sys2Proof.Proofs

open Sys2Proof.Machine Sys2Proof.Spec

/-- Two conditions of one code may be checked as one (log entry 21). -/
theorem ite_and_eq_ite_ite {α : Type} (a b : Bool) (x y : α) :
    (if (a && b) = true then x else y) = if a = true then if b = true then x else y else y := by
  cases a <;> rfl

theorem error_eq_firstFailing (i : Instr) (s : State) : Spec.error i s = firstFailing (checkList i s) :=
  (firstFailing_eq_find _).symm

theorem disjoint_eq_apart (a n b m : Nat) : disjoint a n b m = apart a n b m := by
  rw [Bool.eq_iff_iff, disjoint_iff, apart, decide_eq_true_iff]

/-- The condition under which `floor` of an operand can be taken (R18). -/
theorem floor_convertible (x : F32) :
    (F32.isFinite x && decide (-2 ^ 31 ≤ F32.floor x) && decide (F32.floor x < 2 ^ 31))
      = F32.convertible F32.floor x := rfl

/-- The condition under which an operand can be rounded to an integer (R18). -/
theorem roundInt_convertible (x : F32) :
    (F32.isFinite x && decide (-2 ^ 31 ≤ F32.roundInt x) && decide (F32.roundInt x < 2 ^ 31))
      = F32.convertible F32.roundInt x := rfl

/-- The elements `P2M` accumulates are those of R205. -/
theorem valleyIndices_eq_valley (n : Nat) (pi : Int) (width : Nat) : valleyIndices n pi width = valley n pi width :=
  valleyIndices_eq n pi width

/-- The valid window starts of `CHANRESP` (R331). -/
theorem mem_windowStarts {r : Int} {c an : Nat} {st : Int} :
    st ∈ windowStarts r c an ↔ max (r - c + 1) 0 ≤ st ∧ st ≤ min r ((an : Int) - c) := by
  simp only [windowStarts, List.mem_filter, List.mem_map, List.mem_range, Bool.and_eq_true, decide_eq_true_eq]
  constructor
  · rintro ⟨⟨j, hj, rfl⟩, inside⟩
    omega
  · intro h
    exact ⟨⟨(st - (r - c + 1)).toNat, by omega, by omega⟩, by omega⟩

/-- Some window is valid exactly when the first one does not pass the last one (R331). -/
theorem windowStarts_nonempty (s : State) :
    (!(windowStarts (F32.roundInt (s.argF 3)) (s.argN 2) (s.argN 1)).isEmpty) = decide (s.chanFirst ≤ s.chanLast) := by
  rw [Bool.eq_iff_iff, Bool.not_eq_true', List.isEmpty_eq_false_iff_exists_mem, decide_eq_true_iff]
  simp only [mem_windowStarts]
  exact ⟨fun ⟨_, first, last⟩ => first.trans last, fun h => ⟨_, le_refl _, h⟩⟩

/-- The checks on registers that the two decoders share. -/
theorem viterbiChecks_eq_error (x : Bool) (s : State) :
    viterbiChecks x s = Spec.error (.viterbiHard x) s ∧ viterbiChecks x s = Spec.error (.viterbiSoft x) s := by
  simp only [error_eq_firstFailing, checkList, firstFailing, ite_and_eq_ite_ite, ← disjoint_eq_apart]
  exact ⟨rfl, rfl⟩

/-- The checks of every command but `VITERBI_SOFT` report what the Spec's list reports: the same conditions, where the Spec
joins those of one code. -/
theorem checksOf_eq_error {i : Instr} (hi : ∀ x, i ≠ .viterbiSoft x) (s : State) :
    checksOf i s = .ok (Spec.error i s) := by
  have flush : s.argN 1 - (16 + s.fcch.d.toNat) = s.fcch.flush.errorsFor (s.argN 1) := by
    simp [Fcch.errorsFor, Fcch.flush]
  rw [error_eq_firstFailing]
  cases i with
  | viterbiSoft x => exact absurd rfl (hi x)
  | viterbiHard x =>
    obtain ⟨same, -⟩ := viterbiChecks_eq_error x s
    exact congrArg Except.ok (same.trans (error_eq_firstFailing _ s))
  | p2m =>
    simp only [checkList, firstFailing, ← isEven_eq_even, ← valleyIndices_eq_valley]
    rfl
  | fcchScan =>
    simp only [checkList, firstFailing, ite_and_eq_ite_ite, ← isEven_eq_even, flush]
    rfl
  | chanresp =>
    simp only [checkList, windowStarts_nonempty, roundInt_convertible, firstFailing, ite_and_eq_ite_ite,
      ← disjoint_eq_apart, ← isEven_eq_even]
    rfl
  | modulate | designDfe | equalize =>
    simp only [checksOf, modulateChecks, designDfeChecks, equalizeChecks, pureChecks, checkList, firstFailing,
      Bool.decide_and, ite_and_eq_ite_ite, ← disjoint_eq_apart, ← isEven_eq_even]
    rfl
  | _ =>
    simp only [checkList, Spec.rotChecks, Spec.convChecks, Spec.scaleChecks, floor_convertible, firstFailing,
      ite_and_eq_ite_ite, ← disjoint_eq_apart, ← isEven_eq_even]
    rfl

end Sys2Proof.Proofs

/-!
PROOFS. Which words a command reads, as the list of the Spec (20_memory.md R105; 60_exceptions.md R430): a computation reads
exactly the words `ws` when it stops at one of them only, and stops whenever one of them is unwritten.
-/
namespace Sys2Proof.Proofs

open Sys2Proof.Machine Sys2Proof.Spec

/-! ## Computations that read given words -/

/-- The computation stops at no word but those of `ws`. -/
def StopsWithin {α : Type} (ws : List Nat) (r : Rd α) : Prop := ∀ e, r = .error e → e ∈ ws

/-- The computation stops at no word but those of `ws`, and does not end without all of them being written. -/
structure ReadsExactly {α : Type} (m : Memory) (ws : List Nat) (r : Rd α) : Prop where
  within : StopsWithin ws r
  stops : ∀ w ∈ ws, m.readWord w = none → ∃ e, r = .error e

section
variable {α β σ : Type} {m : Memory} {ws vs : List Nat}

theorem StopsWithin.ok (x : α) : StopsWithin ws (.ok x : Rd α) := fun _ h => nomatch h

theorem StopsWithin.bind {r : Rd α} {f : α → Rd β} (h : StopsWithin ws r)
    (hf : ∀ x, r = .ok x → StopsWithin ws (f x)) : StopsWithin ws (r >>= f) := fun e he => by
  rcases Rd.bind_error he with he | ⟨x, hx, he⟩
  · exact h e he
  · exact hf x hx e he

theorem StopsWithin.mono {r : Rd α} (h : StopsWithin ws r) (hs : ws ⊆ vs) : StopsWithin vs r := fun e he => hs (h e he)

/-- Only the set of words matters. -/
theorem ReadsExactly.congr {r : Rd α} (h : ReadsExactly m ws r) (hs : ∀ w, w ∈ ws ↔ w ∈ vs) : ReadsExactly m vs r where
  within e he := (hs e).1 (h.within e he)
  stops w hw := h.stops w ((hs w).2 hw)

theorem ReadsExactly.ok (x : α) : ReadsExactly m [] (.ok x : Rd α) where
  within := .ok x
  stops _ hw := nomatch hw

/-- A second part that reads words of its own. -/
theorem ReadsExactly.bind {r : Rd α} {f : α → Rd β} (h : ReadsExactly m ws r)
    (hf : ∀ x, r = .ok x → ReadsExactly m vs (f x)) : ReadsExactly m (ws ++ vs) (r >>= f) where
  within := (h.within.mono (List.subset_append_left _ _)).bind fun x hx =>
    (hf x hx).within.mono (List.subset_append_right _ _)
  stops w hw unwritten := by
    cases hr : r with
    | error e => exact ⟨e, rfl⟩
    | ok x =>
      rcases List.mem_append.1 hw with hw | hw
      · obtain ⟨e, he⟩ := h.stops w hw unwritten
        rw [hr] at he
        cases he
      · exact (hf x hr).stops w hw unwritten

/-- A second part that reads nothing but words that the first has read. -/
theorem ReadsExactly.bind_within {r : Rd α} {f : α → Rd β} (h : ReadsExactly m ws r)
    (hf : ∀ x, r = .ok x → StopsWithin ws (f x)) : ReadsExactly m ws (r >>= f) where
  within := h.within.bind hf
  stops w hw unwritten := by
    obtain ⟨e, he⟩ := h.stops w hw unwritten
    exact ⟨e, by rw [he, Rd.error_bind]⟩

/-- A second part that reads no word. -/
theorem ReadsExactly.bind_ok {r : Rd α} {f : α → β} (h : ReadsExactly m ws r) :
    ReadsExactly m ws (r >>= fun x => .ok (f x)) :=
  h.bind_within fun x _ => .ok (f x)

/-! ## Elements of vectors (R101) -/

theorem rdWord_reads (m : Memory) (a : Nat) : ReadsExactly m [a] (rdWord m a) where
  within e he := by
    obtain ⟨rfl, -⟩ := rdWord_eq_error.1 he
    exact List.mem_singleton_self e
  stops w hw unwritten := by
    obtain rfl := List.mem_singleton.1 hw
    exact ⟨w, rdWord_eq_error.2 ⟨rfl, unwritten⟩⟩

theorem rread_reads (m : Memory) (a k : Nat) : ReadsExactly m [a + k] (rread m a k) := rdWord_reads m (a + k)

theorem bread_reads (m : Memory) (a k : Nat) : ReadsExactly m [a + k] (bread m a k) := by
  have bind : bread m a k = rdWord m (a + k) >>= fun w => .ok (w.getLsbD 0) := by
    rw [bread]
    cases rdWord m (a + k) <;> rfl
  rw [bind]
  exact (rdWord_reads m (a + k)).bind_ok

theorem cread_reads (m : Memory) (a k : Nat) : ReadsExactly m [a + 2 * k, a + 2 * k + 1] (cread m a k) := by
  have bind : cread m a k
      = rdWord m (a + 2 * k) >>= fun re => rdWord m (a + 2 * k + 1) >>= fun im => .ok ⟨re, im⟩ := by
    rw [cread]
    cases rdWord m (a + 2 * k) with
    | error e => rfl
    | ok re => cases rdWord m (a + 2 * k + 1) <;> rfl
  rw [bind]
  exact (rdWord_reads m _).bind fun _ _ => (rdWord_reads m _).bind_ok

/-! ## Loops -/

variable {w : Nat → List Nat}

/-- A table reads the words of all its entries. -/
theorem tabRd_reads {f : Nat → Rd α} {lo n : Nat} (h : ∀ k ∈ List.range' lo n, ReadsExactly m (w k) (f k)) :
    ReadsExactly m ((List.range' lo n).flatMap w) (tabRd f lo n) := by
  induction n generalizing lo with
  | zero => exact .ok []
  | succ n ih =>
    have bind : tabRd f lo (n + 1) = f lo >>= fun x => tabRd f (lo + 1) n >>= fun xs => .ok (x :: xs) := by
      rw [tabRd]
      cases f lo with
      | error e => rfl
      | ok x => cases tabRd f (lo + 1) n <;> rfl
    rw [List.range'_succ] at h ⊢
    rw [bind, List.flatMap_cons]
    exact (h lo List.mem_cons_self).bind fun _ _ => (ih fun k hk => h k (List.mem_cons_of_mem _ hk)).bind_ok

/-- A fold reads the words of all its turns. -/
theorem foldRd_reads {f : Nat → σ → Rd σ} {lo n : Nat} {acc : σ}
    (h : ∀ k ∈ List.range' lo n, ∀ acc, ReadsExactly m (w k) (f k acc)) :
    ReadsExactly m ((List.range' lo n).flatMap w) (foldRd f lo n acc) := by
  induction n generalizing lo acc with
  | zero => exact .ok acc
  | succ n ih =>
    have bind : foldRd f lo (n + 1) acc = f lo acc >>= fun acc' => foldRd f (lo + 1) n acc' := by
      rw [foldRd]
      cases f lo acc <;> rfl
    rw [List.range'_succ] at h ⊢
    rw [bind, List.flatMap_cons]
    exact (h lo List.mem_cons_self acc).bind fun _ _ => ih fun k hk => h k (List.mem_cons_of_mem _ hk)

theorem foldRdList_reads {f : Nat → σ → Rd σ} {ks : List Nat} {acc : σ}
    (h : ∀ k ∈ ks, ∀ acc, ReadsExactly m (w k) (f k acc)) :
    ReadsExactly m (ks.flatMap w) (foldRdList f ks acc) := by
  induction ks generalizing acc with
  | nil => exact .ok acc
  | cons k ks ih =>
    have bind : foldRdList f (k :: ks) acc = f k acc >>= fun acc' => foldRdList f ks acc' := by
      rw [foldRdList]
      cases f k acc <;> rfl
    rw [bind, List.flatMap_cons]
    exact (h k List.mem_cons_self acc).bind fun _ _ => ih fun k hk => h k (List.mem_cons_of_mem _ hk)

/-- What a fold keeps of its accumulator. -/
theorem foldRd_keeps {f : Nat → σ → Rd σ} {P : σ → Prop} {lo n : Nat} {acc acc' : σ} (h0 : P acc)
    (h : ∀ k ∈ List.range' lo n, ∀ a b, P a → f k a = .ok b → P b) (he : foldRd f lo n acc = .ok acc') : P acc' := by
  induction n generalizing lo acc with
  | zero => exact Except.ok.inj he ▸ h0
  | succ n ih =>
    rw [List.range'_succ] at h
    rw [foldRd] at he
    split at he
    next => cases he
    next b hb =>
      exact ih (h lo List.mem_cons_self acc b h0 hb) (fun k hk => h k (List.mem_cons_of_mem _ hk)) he

end

end Sys2Proof.Proofs

/-!
PROOFS. Which words each operation on vectors reads (40_dsp_primitives.md R203, R204, R208; 42_fcch_detector.md R294;
43_channel_dfe.md R335; 44_sch_decoder.md R380), given the words of each element: no command's proof opens the operation again.
-/
namespace Sys2Proof.Proofs

open Sys2Proof.Machine Sys2Proof.Spec

section
variable {m : Memory} {rd : Nat → Rd Cplx} {w : Nat → List Nat}

/-! ## Tables and sums over vectors -/

theorem tabRd_reads_range {α : Type} {f : Nat → Rd α} (h : ∀ k, ReadsExactly m (w k) (f k)) (n : Nat) :
    ReadsExactly m ((List.range n).flatMap w) (tabRd f 0 n) :=
  List.range_eq_range' ▸ tabRd_reads fun k _ => h k

theorem mappedVec_reads {α β : Type} {rd : Nat → Rd α} (h : ∀ k, ReadsExactly m (w k) (rd k)) (f : α → β) (n : Nat) :
    ReadsExactly m ((List.range n).flatMap w) (mappedVec f rd n) :=
  tabRd_reads_range (fun k => (h k).bind_ok) n

theorem energyOver_reads (h : ∀ k, ReadsExactly m (w k) (rd k)) (ks : List Nat) :
    ReadsExactly m (ks.flatMap w) (energyOver rd ks) :=
  foldRdList_reads fun k _ _ => (h k).bind_ok

theorem breadAll_reads (m : Memory) (a n : Nat) : ReadsExactly m (wordAt a (List.range n)) (breadAll m a n) := by
  rw [wordAt, List.map_eq_flatMap]
  exact tabRd_reads_range (bread_reads m a) n

theorem creadAll_reads (m : Memory) (a n : Nat) : ReadsExactly m (cplxAt a (List.range n)) (creadAll m a n) :=
  tabRd_reads_range (cread_reads m a) n

/-! ## Interpolation and peak detection (R203, R204) -/

theorem interpF_reads (h : ∀ k, ReadsExactly m (w k) (rd k)) (windowed : Bool) (n : Nat) (t : F32) :
    ReadsExactly m ((interpRange n t).flatMap w) (interpF windowed rd n t) :=
  foldRd_reads fun k _ _ => (h k).bind_ok

/-- Every interpolation stays inside the vector. -/
theorem interpF_within (h : ∀ k, ReadsExactly m (w k) (rd k)) (windowed : Bool) (n : Nat) (t : F32) :
    StopsWithin ((List.range n).flatMap w) (interpF windowed rd n t) := by
  refine (interpF_reads h windowed n t).within.mono fun a ha => ?_
  obtain ⟨k, hk, ha⟩ := List.mem_flatMap.1 ha
  exact List.mem_flatMap.2 ⟨k, List.mem_range.2 (lt_of_mem_interpRange hk), ha⟩

theorem peakSearch_within (h : ∀ k, ReadsExactly m (w k) (rd k)) (windowed : Bool) (n turns : Nat) (early incr : F32) :
    StopsWithin ((List.range n).flatMap w) (Machine.peakSearch windowed rd n turns early incr) := by
  induction turns generalizing early incr with
  | zero => exact .ok early
  | succ turns ih =>
    rw [Machine.peakSearch]
    split
    case isFalse => exact .ok early
    case isTrue =>
      refine (interpF_within h windowed n _).bind fun e _ => (interpF_within h windowed n _).bind fun l _ => ?_
      dsimp only
      split_ifs
      · exact ih _ _
      · exact ih _ _
      · exact .ok early

/-- The scan reads the whole vector, and the search nothing past it. -/
theorem peakDetectF_reads (h : ∀ k, ReadsExactly m (w k) (rd k)) (windowed : Bool) (n : Nat) :
    ReadsExactly m ((List.range n).flatMap w) (peakDetectF windowed rd n) := by
  have scan : ReadsExactly m ((List.range n).flatMap w) (peakScan rd n) := by
    rw [List.range_eq_range']
    refine foldRd_reads fun k _ acc => (h k).bind_within fun z _ => ?_
    dsimp only
    split <;> exact .ok _
  exact scan.bind_within fun _ _ => (peakSearch_within h windowed n _ _ _).bind fun _ _ =>
    (interpF_within h windowed n _).bind fun _ _ => .ok _

/-! ## Convolution (R208) -/

/-- An output sample reads the taps that meet an element of the vector, and these elements. -/
theorem convAt_reads {rh rx : Nat → Rd Cplx} {wh wx : Nat → List Nat} (hh : ∀ k, ReadsExactly m (wh k) (rh k))
    (hx : ∀ k, ReadsExactly m (wx k) (rx k)) (hn xn n : Nat) :
    ReadsExactly m ((List.range hn).flatMap fun k => if k ≤ n ∧ n - k < xn then wh k ++ wx (n - k) else [])
      (convAt rh rx hn xn n) := by
  rw [List.range_eq_range']
  refine foldRd_reads fun k _ acc => ?_
  split
  · exact (hh k).bind fun _ _ => (hx _).bind_ok
  · exact .ok acc

/-- A table of output samples at the indices `at_` reads the whole vector, when each element meets a tap, and the taps that
meet an element. -/
theorem convTable_reads {rh rx : Nat → Rd Cplx} {wh wx : Nat → List Nat} (hh : ∀ k, ReadsExactly m (wh k) (rh k))
    (hx : ∀ k, ReadsExactly m (wx k) (rx k)) {hn xn out : Nat} {at_ : Nat → Nat} {taps : List Nat}
    (elements : ∀ j < xn, ∃ n < out, ∃ k < hn, k ≤ at_ n ∧ at_ n - k = j)
    (meets : ∀ k, k ∈ taps ↔ k < hn ∧ ∃ n < out, k ≤ at_ n ∧ at_ n - k < xn) :
    ReadsExactly m ((List.range xn).flatMap wx ++ taps.flatMap wh)
      (tabRd (fun n => convAt rh rx hn xn (at_ n)) 0 out) := by
  refine (tabRd_reads_range (fun n => convAt_reads hh hx hn xn (at_ n)) out).congr fun a => ?_
  simp only [List.mem_append, List.mem_flatMap, List.mem_range]
  constructor
  · rintro ⟨n, inOut, k, hk, ha⟩
    split at ha
    next meet =>
      rcases List.mem_append.1 ha with ha | ha
      · exact .inr ⟨k, (meets k).2 ⟨hk, n, inOut, meet⟩, ha⟩
      · obtain ⟨-, inside⟩ := meet
        exact .inl ⟨_, inside, ha⟩
    next => cases ha
  · rintro (⟨j, hj, ha⟩ | ⟨k, hk, ha⟩)
    · obtain ⟨n, inOut, k, hk, le, rfl⟩ := elements j hj
      exact ⟨n, inOut, k, hk, by rw [if_pos ⟨le, hj⟩]; exact List.mem_append_right _ ha⟩
    · obtain ⟨hk, n, inOut, meet⟩ := (meets k).1 hk
      exact ⟨n, inOut, k, hk, by rw [if_pos meet]; exact List.mem_append_left _ ha⟩

theorem revConj_reads (m : Memory) (r rn k : Nat) :
    ReadsExactly m [r + 2 * (rn - 1 - k), r + 2 * (rn - 1 - k) + 1] (Machine.revConj m r rn k) :=
  (cread_reads m r (rn - 1 - k)).bind_ok

/-! ## Frequency detection (R294) -/

/-- A slice that fits the FFT is read whole. -/
theorem freqDetectF_reads (h : ∀ k, ReadsExactly m (w k) (rd k)) {c : Config} {sl : Nat} (hs : sl ≤ c.fftSize)
    (rate : F32) : ReadsExactly m ((List.range sl).flatMap w) (freqDetectF c rate rd 0 sl) := by
  have entry (k : Nat) : ReadsExactly m (if k < sl then w k else []) (if k < sl then rd (0 + k) else .ok Cplx.zero) := by
    split
    · rw [Nat.zero_add]; exact h k
    · exact .ok _
  have buffer : ReadsExactly m ((List.range sl).flatMap w) (fftBuffer rd c.fftSize 0 sl) := by
    refine (tabRd_reads_range entry c.fftSize).congr fun a => ?_
    simp only [List.mem_flatMap, List.mem_range]
    constructor
    · rintro ⟨k, -, ha⟩
      split at ha
      next inside => exact ⟨k, inside, ha⟩
      next => cases ha
    · rintro ⟨k, hk, ha⟩
      exact ⟨k, by omega, by rwa [if_pos hk]⟩
  refine buffer.bind_within fun buf _ => ?_
  dsimp only
  rw [peakDetectF_eq fun _ _ => rfl]
  exact .ok _

/-! ## Equalization (R335) -/

/-- Sample `t` reads the feedback taps below the number of decisions before it. -/
theorem equalizeLoop_reads (h : ∀ k, ReadsExactly m (w k) (rd k)) (fbn : Nat) (ps : List Cplx) (i : Nat)
    (past : List Cplx) :
    ReadsExactly m
      ((List.range ps.length).flatMap fun t => (List.range (min fbn (past.length + t))).flatMap w)
      (equalizeLoop rd fbn ps i past) := by
  induction ps generalizing i past with
  | nil => exact .ok _
  | cons p ps ih =>
    have first : ReadsExactly m ((List.range (min fbn past.length)).flatMap w) (feedback rd fbn past) := by
      rw [List.range_eq_range']
      exact foldRd_reads fun k _ _ => (h k).bind_ok
    rw [List.length_cons, List.range_succ_eq_map, List.flatMap_cons, List.flatMap_map]
    refine first.bind fun fbk _ => ReadsExactly.bind_within ?_ fun _ _ => .ok _
    have rest := ih (i + 1) (dfeDecision (dfeOutput p fbk i) i :: past)
    simp only [List.length_cons, Nat.add_assoc, Nat.add_comm 1] at rest
    exact rest

/-! ## Gathering (R380) -/

theorem gather_reads {β : Type} {rd : Nat → Rd β} {a : Nat} (h : ∀ k, ReadsExactly m [a + k] (rd k)) (x : Bool) :
    ReadsExactly m (wordAt a (gathered x)) (gather rd x) := by
  have table (lo n : Nat) : ReadsExactly m (wordAt a (List.range' lo n)) (tabRd rd lo n) := by
    rw [wordAt, List.map_eq_flatMap]
    exact tabRd_reads fun k _ => h k
  cases x with
  | false =>
    have straight := table 0 78
    rwa [← List.range_eq_range'] at straight
  | true =>
    rw [gathered, if_pos rfl, wordAt, List.map_append]
    exact (table 3 39).bind fun _ _ => (table 106 39).bind_ok

end

end Sys2Proof.Proofs

/-!
PROOFS. Every command reads exactly the words its rule names (30_encoding.md R145; 40_dsp_primitives.md R200), so an unwritten one
of them is the fault (20_memory.md R105; 60_exceptions.md R430).
-/
namespace Sys2Proof.Proofs

open Sys2Proof.Machine Sys2Proof.Spec

/-! ## The convolution commands (R209-R213, R335) -/

section
variable {m : Memory} {rh rx : Nat → Rd Cplx} {wh wx : Nat → List Nat}

/-- The full convolution of two vectors that are not empty reads both whole. -/
theorem fullConv_reads (hh : ∀ k, ReadsExactly m (wh k) (rh k)) (hx : ∀ k, ReadsExactly m (wx k) (rx k)) {hn xn : Nat}
    (taps : 1 ≤ hn) (elements : 1 ≤ xn) :
    ReadsExactly m ((List.range xn).flatMap wx ++ (List.range hn).flatMap wh)
      (tabRd (convAt rh rx hn xn) 0 (xn + hn - 1)) :=
  convTable_reads hh hx (at_ := id)
    (fun j hj => ⟨j, by omega, 0, by omega, Nat.zero_le _, rfl⟩)
    fun k => by
      rw [List.mem_range]
      exact ⟨fun hk => ⟨hk, k, by omega, le_refl k, by rw [id, Nat.sub_self]; exact elements⟩, fun ⟨hk, _⟩ => hk⟩

/-- The centred convolution reads its vector whole and the taps that meet an element of it. -/
theorem centredConv_reads (hh : ∀ k, ReadsExactly m (wh k) (rh k)) (hx : ∀ k, ReadsExactly m (wx k) (rx k)) {hn xn : Nat}
    (taps : 1 ≤ hn) :
    ReadsExactly m ((List.range xn).flatMap wx ++ (centredTaps hn xn).flatMap wh)
      (tabRd (fun n => convAt rh rx hn xn (n + centreShift hn)) 0 xn) := by
  have shift : centreShift hn = (hn - 1) / 2 := rfl
  refine convTable_reads hh hx (at_ := (· + centreShift hn))
    (fun j hj => ⟨j, hj, centreShift hn, by omega, by simp, by simp⟩) fun k => ?_
  simp only [centredTaps, List.mem_filter, List.mem_range, Bool.and_eq_true, decide_eq_true_eq]
  constructor
  · rintro ⟨hk, below, above⟩
    exact ⟨hk, k - (hn - 1) / 2, by omega, by omega, by omega⟩
  · rintro ⟨hk, n, inOut, le, inside⟩
    exact ⟨hk, by omega, by omega⟩

/-- The forward filter of `EQUALIZE` reads its vector whole and the taps that meet an element of it. -/
theorem forwardConv_reads (hh : ∀ k, ReadsExactly m (wh k) (rh k)) (hx : ∀ k, ReadsExactly m (wx k) (rx k)) {hn xn : Nat}
    (taps : 1 ≤ hn) :
    ReadsExactly m
      ((List.range xn).flatMap wx ++ ((List.range hn).filter fun k => decide (hn ≤ k + xn)).flatMap wh)
      (tabRd (fun n => convAt rh rx hn xn (n + hn - 1)) 0 xn) := by
  refine convTable_reads hh hx (at_ := (· + hn - 1))
    (fun j hj => ⟨j, hj, hn - 1, by omega, by omega, by omega⟩) fun k => ?_
  simp only [List.mem_filter, List.mem_range, decide_eq_true_eq]
  constructor
  · rintro ⟨hk, meets⟩
    exact ⟨hk, 0, by omega, by omega, by omega⟩
  · rintro ⟨hk, n, inOut, le, inside⟩
    exact ⟨hk, by omega⟩

/-- A table over taps and elements that are no words of DMEM reads nothing. -/
theorem convTable_values_within (ws : List Nat) (taps elements : Nat → Cplx) (hn xn out : Nat) (at_ : Nat → Nat) :
    StopsWithin ws
      (tabRd (fun n => convAt (fun k => .ok (taps k)) (fun k => .ok (elements k)) hn xn (at_ n)) 0 out) := by
  have sample (n : Nat) : ReadsExactly [] [] (convAt (fun k => .ok (taps k)) (fun k => .ok (elements k)) hn xn n) := by
    refine (convAt_reads (wh := fun _ => []) (wx := fun _ => []) (fun _ => .ok _) (fun _ => .ok _) hn xn n).congr ?_
    simp
  refine (tabRd_reads_range (w := fun _ => []) (fun n => sample (at_ n)) out).within.mono fun a ha => ?_
  simp at ha

/-- The buffer of `DELAY` is made of the whole vector, with the filter and without it: the middle tap of the filter meets every
element. -/
theorem delayBuffer_reads (hx : ∀ k, ReadsExactly m (wx k) (rx k)) (n : Nat) (fds : F32) :
    ReadsExactly m ((List.range n).flatMap wx) (delayBuffer rx n fds) := by
  unfold delayBuffer
  split
  · have filtered := centredConv_reads (rh := fun k => .ok (delayTap fds k)) (wh := fun _ => [])
      (fun _ => .ok _) hx (hn := 21) (xn := n) (by omega)
    refine filtered.congr fun a => ?_
    simp
  · exact tabRd_reads_range hx n

end

/-- The lengths of the two operands of a convolution command whose checks pass. -/
theorem conv_lengths {s : State} {out : Nat} (h : ∀ p ∈ Spec.convChecks s out, p.1 = true) :
    1 ≤ s.argN 1 ∧ 1 ≤ s.argN 3 := by
  have check := h (decide (1 ≤ s.argN 1) && decide (1 ≤ s.argN 3), .length) (by simp [Spec.convChecks])
  simpa using check

/-- The correlation with the whole reference reads it back to front. -/
theorem corrTable_reads (s : State) (hn : 1 ≤ s.argN 3) (xn : 1 ≤ s.argN 1) :
    ReadsExactly s.mem (wordsRead .corr s)
      (tabRd (convAt (Machine.revConj s.mem (s.argN 2) (s.argN 3)) (cread s.mem (s.argN 0)) (s.argN 3) (s.argN 1)) 0
        s.fullLen) := by
  refine (fullConv_reads (revConj_reads s.mem _ _) (cread_reads s.mem _) hn xn).congr fun a => ?_
  rw [wordsRead, List.mem_append, List.mem_append]
  refine or_congr Iff.rfl ?_
  simp only [cplxAt, List.mem_flatMap (b := a), List.mem_range]
  constructor
  · rintro ⟨k, hk, ha⟩
    exact ⟨s.argN 3 - 1 - k, by omega, ha⟩
  · rintro ⟨k, hk, ha⟩
    exact ⟨s.argN 3 - 1 - k, by omega, by rwa [show s.argN 3 - 1 - (s.argN 3 - 1 - k) = k by omega]⟩

/-! ## `CHANRESP` (R331) -/

/-- The window search reads every valid window. -/
theorem bestWindow_reads {m : Memory} {rd : Nat → Rd Cplx} {w : Nat → List Nat} (h : ∀ k, ReadsExactly m (w k) (rd k))
    (c first count : Nat) :
    ReadsExactly m ((List.range' first count).flatMap fun st => ((List.range c).map (st + ·)).flatMap w)
      (Machine.bestWindow rd c first count) := by
  refine foldRd_reads fun st _ acc => (energyOver_reads h _).bind_within fun e _ => ?_
  split <;> exact .ok _

/-- The window found is one of the windows searched. -/
theorem bestWindow_mem {rd : Nat → Rd Cplx} {c first count : Nat} {best : Nat × F32}
    (h : Machine.bestWindow rd c first count = .ok best) (searched : 0 < count) : best.1 ∈ List.range' first count := by
  refine foldRd_keeps (P := fun b : Nat × F32 => b.1 ∈ List.range' first count) ?_ (fun st hst a b ha hb => ?_) h
  · exact List.mem_range'_1.2 ⟨le_refl _, by omega⟩
  · obtain ⟨e, -, hb⟩ := Rd.bind_ok hb
    split at hb <;> obtain rfl := Except.ok.inj hb
    · exact hst
    · exact ha

/-- The windows searched are the valid windows. -/
theorem mem_windows (s : State) (st : Nat) :
    st ∈ List.range' s.chanFirst.toNat (s.chanLast - s.chanFirst + 1).toNat
      ↔ (st : Int) ∈ windowStarts (F32.roundInt (s.argF 3)) (s.argN 2) (s.argN 1) := by
  rw [mem_windowStarts, List.mem_range'_1, State.chanFirst, State.chanLast, State.chanR]
  omega

theorem chanresp_reads {s : State} (hc : Spec.error .chanresp s = none) :
    ReadsExactly s.mem (wordsRead .chanresp s) (chanrespEffect s) := by
  have check := error_eq_none.1 hc (decide (1 ≤ s.argN 2)
    && !(windowStarts (F32.roundInt (s.argF 3)) (s.argN 2) (s.argN 1)).isEmpty, .length) (by simp [checkList])
  obtain ⟨-, window⟩ := Bool.and_eq_true_iff.1 check
  rw [windowStarts_nonempty, decide_eq_true_iff] at window
  have elements := cread_reads s.mem (s.argN 0)
  have effect := (bestWindow_reads elements (s.argN 2) s.chanFirst.toNat
    (s.chanLast - s.chanFirst + 1).toNat).bind_within (f := fun best => do
      let zs ← mappedVec (fun z => z.div (s.argC 4 5)) (fun k => cread s.mem (s.argN 0) (best.1 + k)) (s.argN 2)
      .ok { stores := [(s.argN 6, cplxWords zs)], results := [(0, natWord best.1), (1, best.2)] : Effect })
    fun best hbest => by
      have found := bestWindow_mem hbest (by omega)
      refine ((mappedVec_reads (fun k => elements (best.1 + k)) _ _).within.mono fun a ha => ?_).bind fun _ _ => .ok _
      obtain ⟨k, hk, ha⟩ := List.mem_flatMap.1 ha
      exact List.mem_flatMap.2 ⟨best.1, found, List.mem_flatMap.2 ⟨best.1 + k, List.mem_map_of_mem hk, ha⟩⟩
  refine effect.congr fun a => ?_
  rw [wordsRead, List.mem_flatMap, List.mem_flatMap]
  simp only [mem_windows]
  constructor
  · rintro ⟨st, hst, ha⟩
    exact ⟨st, hst, ha⟩
  · rintro ⟨st, hst, ha⟩
    obtain ⟨first, -⟩ := mem_windowStarts.1 hst
    obtain ⟨n, rfl⟩ := Int.eq_ofNat_of_zero_le ((le_max_right _ _).trans first)
    exact ⟨n, hst, ha⟩

/-! ## `FCCH_SCAN` (R293) -/

/-- The walk of a scan examines samples that the scan has fed. -/
theorem walkF_within {s : State} {a n : Nat} {xs : List Cplx} (read : creadAll s.mem a n = .ok xs) (ws : List Nat) :
    StopsWithin ws (walkF s (s.fcch.flush.feedAll xs) a n) := by
  obtain ⟨count, element⟩ := tabRd_inv read
  have written : CplxOn s.mem a (List.range n) (xs.getD · Cplx.zero) := fun k hk => by
    have hk : k < xs.length := count ▸ List.mem_range.1 hk
    have re_im := cread_inv (Nat.zero_add k ▸ element k hk)
    have value : xs.getD k Cplx.zero = xs[k] := List.getD_eq_getElem _ _ hk
    simpa only [value] using re_im
  have errors := feedAll_ebuf_length_le xs s.fcch.flush
  have empty : s.fcch.flush.ebuf.length = 0 ∧ s.fcch.flush.xbuf.length = 0 := ⟨rfl, rfl⟩
  rw [Fcch.errorsFor] at errors
  rw [walkF_eq written (by omega)]
  exact .ok _

/-! ## `EQUALIZE` (R335) -/

theorem equalize_reads {s : State} (hc : Spec.error .equalize s = none) :
    ReadsExactly s.mem (wordsRead .equalize s) (equalizeEffect s) := by
  have check := error_eq_none.1 hc (decide (1 ≤ s.argN 1 ∧ s.argN 1 ≤ 1024 ∧ 1 ≤ s.argN 3), .length) (by simp [checkList])
  obtain ⟨samples, -, taps⟩ := of_decide_eq_true check
  have elements := cread_reads s.mem
  refine (forwardConv_reads (elements _) (elements _) taps).bind fun ps hps => ?_
  have loop := equalizeLoop_reads (elements (s.argN 4)) (s.argN 5) ps 0 []
  refine ReadsExactly.bind_within (loop.congr fun a => ?_) fun _ _ => .ok _
  rw [tabRd_length hps]
  simp only [cplxAt, List.mem_flatMap (b := a), List.mem_range, List.length_nil]
  constructor
  · rintro ⟨t, ht, k, hk, ha⟩
    exact ⟨k, by omega, ha⟩
  · rintro ⟨k, hk, ha⟩
    exact ⟨s.argN 1 - 1, by omega, k, by omega, ha⟩

/-! ## Every command -/

/-- The effect of a command whose checks pass reads exactly the words of its rule. -/
theorem effectOf_reads {i : Instr} {s : State} (hc : Spec.error i s = none) (hi : i ≠ .fcchWalk) :
    ReadsExactly s.mem (wordsRead i s) (effectOf i s) := by
  have elements := cread_reads s.mem
  cases i with
  | fcchWalk => exact absurd rfl hi
  | nop | sinc | fcchInit | fcchFlush | fcchEdump => exact .ok _
  | interp => exact (interpF_reads (elements _) _ _ _).bind_ok
  | peak => exact (peakDetectF_reads (elements _) _ _).bind_ok
  | p2m =>
    rw [wordsRead, ← valleyIndices_eq_valley]
    exact (energyOver_reads (elements _) _).bind_ok
  | rot | rrot => exact (tabRd_reads_range (fun k => (elements _ k).bind_ok) _).bind_ok
  | conv =>
    obtain ⟨xn, hn⟩ := conv_lengths (error_eq_none.1 hc)
    exact (fullConv_reads (elements _) (elements _) hn xn).bind_ok
  | convNd =>
    obtain ⟨-, hn⟩ := conv_lengths (error_eq_none.1 hc)
    exact (centredConv_reads (elements _) (elements _) hn).bind_ok
  | corr =>
    obtain ⟨xn, hn⟩ := conv_lengths (error_eq_none.1 hc)
    exact (corrTable_reads s hn xn).bind_ok
  | corrNd =>
    obtain ⟨-, hn⟩ := conv_lengths (error_eq_none.1 hc)
    rw [wordsRead, cplxAt, cplxAt, List.flatMap_map]
    exact (centredConv_reads (revConj_reads s.mem _ _) (elements _) hn).bind_ok
  | delay => exact (delayBuffer_reads (elements _) _ _).bind_ok
  | scale | conj | sliceSoft => exact (mappedVec_reads (elements _) _ _).bind_ok
  | slice =>
    rw [wordsRead, wordAt, List.map_eq_flatMap]
    exact (mappedVec_reads (rread_reads s.mem _) _ _).bind_ok
  | norm2 => exact (energyOver_reads (elements _) _).bind_ok
  | resample | designDfe | fcchFeed => exact (creadAll_reads s.mem _ _).bind_ok
  | fcchScan =>
    exact (creadAll_reads s.mem _ _).bind_within fun xs read => (walkF_within read _).bind fun _ _ => .ok _
  | modulate =>
    exact (breadAll_reads s.mem _ _).bind_within fun _ _ => (convTable_values_within _ _ _ _ _ _ _).bind fun _ _ => .ok _
  | freqDetect =>
    have check := error_eq_none.1 hc (decide (s.argN 1 < s.cfg.fftSize), .fftsize) (by simp [checkList])
    have fits : s.argN 1 < s.cfg.fftSize := of_decide_eq_true check
    exact (freqDetectF_reads (elements _) fits.le _).bind_ok
  | chanresp => exact chanresp_reads hc
  | equalize => exact equalize_reads hc
  | parityCheck | parityEncode | convEncode | schFields => exact (breadAll_reads s.mem _ _).bind_ok
  | viterbiHard x => exact (gather_reads (bread_reads s.mem _) x).bind_ok
  | viterbiSoft x => exact (gather_reads (rread_reads s.mem _) x).bind_ok

/-- The DATA check of `VITERBI_SOFT` reads exactly the words it gathers (log entry 27). -/
theorem viterbiSoftChecks_reads {x : Bool} {s : State} (hc : Spec.error (.viterbiSoft x) s = none) :
    ReadsExactly s.mem (wordsRead (.viterbiSoft x) s) (checksOf (.viterbiSoft x) s) := by
  change ReadsExactly _ _ (viterbiSoftChecks x s)
  obtain ⟨-, registers⟩ := viterbiChecks_eq_error x s
  rw [viterbiSoftChecks, registers, hc]
  refine (gather_reads (rread_reads s.mem _) x).bind_within fun r _ => ?_
  split <;> exact .ok _

/-! ## The fault (R105, R430) -/

theorem perform_of_unwritten_check {s : State} {checks : Rd (Option ErrCode)} {effect : State → Rd Effect} {a : Nat}
    (h : checks = .error a) : perform s checks effect = .fault (.unwritten a (some s.cmd)) := by
  simp only [perform, h]

/-- Settles O7: `VITERBI_SOFT` stops in its checks, every other command in its effect. -/
theorem unwrittenSourceWordFaults : Obligations.UnwrittenSourceWordFaults := by
  intro i s w hc hw unwritten
  rw [exec_eq_perform]
  by_cases soft : ∃ x, i = .viterbiSoft x
  · obtain ⟨x, rfl⟩ := soft
    have reads := viterbiSoftChecks_reads hc
    obtain ⟨e, he⟩ := reads.stops w hw unwritten
    exact ⟨e, reads.within e he, checksOf_stops _ s e he, perform_of_unwritten_check he⟩
  · have walk : i ≠ .fcchWalk := by
      rintro rfl
      cases hw
    have reads := effectOf_reads hc walk
    have passed := (checksOf_eq_error (not_exists.1 soft) s).trans (congrArg Except.ok hc)
    obtain ⟨e, he⟩ := reads.stops w hw unwritten
    exact ⟨e, reads.within e he, effectOf_stops i s e he, perform_of_unwritten passed he⟩

end Sys2Proof.Proofs

/-!
PROOFS. Legal command words (30_encoding.md R141, R142, R146): the table of commands assigns exactly the opcodes of R146, so a
word decodes exactly when it is legal, and an illegal word ends with ERR_ILLEGAL (60_exceptions.md R412, R414).
-/
namespace Sys2Proof.Proofs

open Sys2Proof.Machine Sys2Proof.Spec

/-! ## Sample words (R141, R146) -/

/-- Settles O1: a legal word is the word of its command; each illegal one is refused for its own field. -/
theorem sampleCommandWordsDecode : Obligations.SampleCommandWordsDecode :=
  ⟨decodeWord_encode .nop, decodeWord_encode .sinc, decodeWord_encode .sliceSoft, decodeWord_encode .modulate,
    decodeWord_encode .fcchScan, decodeWord_encode .designDfe, decodeWord_encode .schFields,
    decodeWord_encode (.viterbiHard false), decodeWord_encode (.viterbiSoft true),
    by decide, by decide, by decide, by decide⟩

/-! ## Legality (R142) -/

theorem opcodeOf_mem_assignedOpcodes (i : Instr) : opcodeOf i ∈ assignedOpcodes := by
  cases i <;> simp [opcodeOf, assignedOpcodes]

/-- The table gives a command exactly to the opcodes of R146, whatever the flag X. -/
theorem exists_opcodeInstr_iff {x : Bool} {opc : BitVec 8} :
    (∃ i, opcodeInstr x opc = some i) ↔ opc ∈ assignedOpcodes := by
  constructor
  · rintro ⟨i, assigned⟩
    exact eq_opcodeOf_of_opcodeInstr assigned ▸ opcodeOf_mem_assignedOpcodes i
  · intro listed
    have total : ∀ x, ∀ opc ∈ assignedOpcodes, (opcodeInstr x opc).isSome = true := by decide
    exact Option.isSome_iff_exists.1 (total x opc listed)

/-- The flag X is allowed on the two Viterbi decoders only (R141). -/
theorem xAllowed_iff {f : CmdFields} : f.xAllowed = true ↔ (f.x = true → f.opc = 0x63#8 ∨ f.opc = 0x64#8) := by
  cases hx : f.x <;> simp [CmdFields.xAllowed, hx]

/-- A word decodes exactly when its opcode is assigned and each of its other fields is legal. -/
theorem exists_decodeWord_iff {w : Word} :
    (∃ i, decodeWord w = .ok i) ↔
      (fieldsOf w).opc ∈ assignedOpcodes ∧ (fieldsOf w).rsvd = 0#16 ∧ (fieldsOf w).flagsRsvd = 0#7
        ∧ ((fieldsOf w).x = true → (fieldsOf w).opc = 0x63#8 ∨ (fieldsOf w).opc = 0x64#8) := by
  simp only [decodeWord_eq_ok, exists_and_right, exists_opcodeInstr_iff, xAllowed_iff, CmdFields.rsvdZero,
    CmdFields.flagsZero, beq_iff_eq]

/-! ## An illegal word (R142, R414) -/

/-- A word in flight that no command has ends with ERR_ILLEGAL, and that is the whole effect. -/
theorem engineStep_of_not_decodes {s : State} (hb : s.status.busy = true) (hi : ¬ ∃ i, decodeWord s.cmd = .ok i) :
    engineStep s = .next (errored s .illegal) := by
  cases decoded : decodeWord s.cmd with
  | ok i => exact absurd ⟨i, decoded⟩ hi
  | error e => exact engineStep_of_illegal hb decoded

/-- R58: a write to CMD while idle accepts the word. -/
theorem hostWrite_cmd_of_idle {s : State} (hb : s.status.busy = false) (w : Word) :
    hostWrite s .w32 0x010#25 w = (s.accept w).answered .taken := by
  have written : hostWrite s .w32 0x010#25 w = (s.writeCmd w).answered .taken := writesTo_cmd s w
  rw [written, State.writeCmd, hb]
  rfl

/-- Settles O2: legality by the fields of the word; an illegal word that CMD accepts is an illegal word in flight. -/
theorem legalWordsDecodeAndIllegalWordsError : Obligations.LegalWordsDecodeAndIllegalWordsError := by
  refine ⟨fun w => exists_decodeWord_iff, fun s => engineStep_of_not_decodes, fun s w idle illegal => ?_⟩
  have inFlight : ((s.accept w).answered .taken).status.busy = true := rfl
  rw [hostWrite_cmd_of_idle idle, engineStep_of_not_decodes inFlight illegal]
  rfl

end Sys2Proof.Proofs

/-!
PROOFS. The vector operations of the primitive commands, over elements that can be read, are the functions of the Spec
(40_dsp_primitives.md R200, R205-R218): no command's proof opens a loop again. Each asks for the elements it reads only.
-/
namespace Sys2Proof.Proofs

open Sys2Proof.Machine Sys2Proof.Spec

/-! ## Elements and words of vectors (R101) -/

/-- The listed elements of a written complex vector can be read, whichever they are (R101, R105). -/
theorem cread_of_mem {m : Memory} {a k : Nat} {ks : List Nat} {x : Nat → Cplx} (h : CplxOn m a ks x) (hk : k ∈ ks) :
    cread m a k = .ok (x k) :=
  have ⟨hre, him⟩ := h k hk
  cread_ok hre him

theorem rread_of_realOn {m : Memory} {a n : Nat} {y : Nat → F32} (h : RealOn m a (List.range n) y) :
    ∀ k < n, rread m a k = .ok (y k) := fun k hk => rread_ok (h k (List.mem_range.2 hk))

theorem cplxWords_map_range (n : Nat) (f : Nat → Cplx) : cplxWords ((List.range n).map f) = cplxVec n f :=
  List.flatMap_map _ _ _

theorem bitWords_map_range (n : Nat) (b : Nat → Bool) : bitWords ((List.range n).map b) = bitVec n b :=
  List.map_map

/-! ## Element by element (R206, R207, R214-R217) -/

/-- A table from index 0 whose entries all succeed. -/
theorem tabRd_range_ok {α : Type} {f : Nat → Rd α} {g : Nat → α} {n : Nat} (h : ∀ k < n, f k = .ok (g k)) :
    tabRd f 0 n = .ok ((List.range n).map g) := by
  rw [List.range_eq_range']
  exact tabRd_ok fun k _ hk => h k (by omega)

theorem creadAll_eq {m : Memory} {a n : Nat} {x : Nat → Cplx} (h : CplxOn m a (List.range n) x) :
    creadAll m a n = .ok ((List.range n).map x) :=
  tabRd_range_ok (cread_of_cplxOn h)

theorem mappedVec_eq {α β : Type} {rd : Nat → Rd α} {x : Nat → α} {n : Nat} (h : ∀ k < n, rd k = .ok (x k)) (f : α → β) :
    mappedVec f rd n = .ok ((List.range n).map fun k => f (x k)) :=
  tabRd_range_ok fun k hk => by rw [h k hk, Rd.ok_bind]

theorem rotated_eq {rd : Nat → Rd Cplx} {x : Nat → Cplx} {n : Nat} (h : ∀ k < n, rd k = .ok (x k)) (table : Nat → Cplx)
    (offset : Nat) : rotated table rd n offset = .ok ((List.range n).map fun k => (x k).mul (table (offset + k))) :=
  tabRd_range_ok fun k hk => by rw [h k hk, Rd.ok_bind]

/-! ## Sums (R205, R218, R331) -/

theorem energyOver_eq {rd : Nat → Rd Cplx} {x : Nat → Cplx} {ks : List Nat} (h : ∀ k ∈ ks, rd k = .ok (x k)) :
    energyOver rd ks = .ok (energy x ks) := by
  rw [energy, sumR, List.foldl_map]
  exact foldRdList_ok fun k hk acc => by rw [h k hk, Rd.ok_bind]

/-! ## Convolution (R208) -/

section
variable {rh rx : Nat → Rd Cplx} {h x : Nat → Cplx} {hn xn : Nat}

/-- The turns of `ConvF` that reach no element of x leave the sum as it is, so they are the ones the Spec filters out. -/
theorem convAt_eq (taps : ∀ k < hn, rh k = .ok (h k)) (elements : ∀ k < xn, rx k = .ok (x k)) (n : Nat) :
    convAt rh rx hn xn n = .ok (conv h hn x xn n) := by
  have turns := foldRd_ok (f := fun k acc =>
      if k ≤ n ∧ n - k < xn then do
        let t ← rh k
        let z ← rx (n - k)
        .ok (Cplx.add acc (t.mul z))
      else .ok acc)
    (g := fun acc k =>
      if (decide (k ≤ n) && decide (n - k < xn)) = true then acc.add ((h k).mul (x (n - k))) else acc)
    (lo := 0) (n := hn) (a := Cplx.zero)
    fun k acc _ hk => by
      by_cases inside : k ≤ n ∧ n - k < xn
      · rw [if_pos inside, taps k (by omega), Rd.ok_bind, elements _ inside.2, Rd.ok_bind]
        simp [inside]
      · rw [if_neg inside, if_neg (by simpa using inside)]
  rw [conv, sumC, List.foldl_map, List.foldl_filter, List.range_eq_range']
  exact turns

/-- Output samples at the indices `at_`. -/
theorem convTable_eq (taps : ∀ k < hn, rh k = .ok (h k)) (elements : ∀ k < xn, rx k = .ok (x k)) (at_ : Nat → Nat)
    (out : Nat) :
    tabRd (fun n => convAt rh rx hn xn (at_ n)) 0 out = .ok ((List.range out).map fun n => conv h hn x xn (at_ n)) :=
  tabRd_range_ok fun n _ => convAt_eq taps elements (at_ n)

/-- The reversed reference reads inside the reference. -/
theorem revConj_eq {m : Memory} {a rn : Nat} {r : Nat → Cplx} (hr : CplxOn m a (List.range rn) r) :
    ∀ k < rn, Machine.revConj m a rn k = .ok (Spec.revConj r rn k) := fun k hk => by
  rw [Machine.revConj, cread_of_cplxOn hr (rn - 1 - k) (by omega), Rd.ok_bind]
  rfl

end

/-! ## Delay (R213) -/

/-- The buffer before the integer shift: the 21-tap filter centred at tap 10, or the vector itself. -/
theorem delayBuffer_eq {rd : Nat → Rd Cplx} {x : Nat → Cplx} {n : Nat} (h : ∀ k < n, rd k = .ok (x k)) (fds : F32) :
    delayBuffer rd n fds = .ok ((List.range n).map (delayBuf x n fds)) := by
  rw [delayBuffer]
  split
  next filtered =>
    have buf : delayBuf x n fds = fun m => conv (delayTap fds) 21 x n (m + 10) := funext fun _ => if_pos filtered
    rw [buf]
    exact convTable_eq (fun _ _ => rfl) h (· + 10) n
  next copied =>
    have buf : delayBuf x n fds = x := funext fun _ => if_neg copied
    rw [buf]
    exact tabRd_range_ok h

/-- The integer shift of the buffer. -/
theorem shifted_delayBuf (x : Nat → Cplx) (n : Nat) (ids : Int) (fds : F32) :
    shifted ((List.range n).map (delayBuf x n fds)) n ids = (List.range n).map (delayed x n ids fds) := by
  refine List.map_congr_left fun k _ => ?_
  rw [delayed]
  split
  next inside =>
    have lt : ((k : Int) - ids).toNat < n := by omega
    simp [List.getElem?_range lt]
  next => rfl

end Sys2Proof.Proofs

/-!
PROOFS. The commands of 40_dsp_primitives.md, and `FCCH_INIT` and `FCCH_FLUSH`. Each is its checks, by `checksOf_eq_error`, and its
effect on a state whose source elements are written, by the operations above.
-/
namespace Sys2Proof.Proofs

open Sys2Proof.Machine Sys2Proof.Spec

/-! ## Any command but `VITERBI_SOFT`, whose checks read DMEM -/

theorem reportsErrors_of_ne_viterbiSoft {i : Instr} (hi : ∀ x, i ≠ .viterbiSoft x) : ReportsErrors i :=
  reportsErrors_of_checks (checksOf_eq_error hi)

/-- A command whose checks on registers pass, and whose effect is result registers and at most one vector, completes with that
effect. -/
theorem completes_of_error_none {i : Instr} {s : State} {stores : List (Nat × List Word)} {results : List (Fin 8 × Word)}
    (hi : ∀ x, i ≠ .viterbiSoft x) (hc : Spec.error i s = none)
    (he : effectOf i s = .ok { stores := stores, results := results }) (hs : stores.length ≤ 1) :
    Completes i s stores results := by
  refine completes_of_effect ((checksOf_eq_error hi s).trans (congrArg Except.ok hc)) he ?_
  match stores, hs with
  | [], _ => exact .nil
  | [v], _ => exact List.pairwise_singleton _ v

/-! ## Commands without checks (R201, R202, R288, R289) -/

theorem sincF_eq_sinc (x : F32) : sincF x = sinc x := rfl

/-- Settles O26: these commands read no DMEM, so their effects are given in every state. -/
theorem commandsWithoutChecks : Obligations.CommandsWithoutChecks := by
  intro s
  have sincDone : Completes .sinc s [] [(0, sinc (s.argF 0))] := by
    rw [← sincF_eq_sinc]
    exact completes_of_error_none nofun rfl rfl (Nat.zero_le 1)
  have one (small : F32.lt 0x38D1B717#32 (F32.abs (s.argF 0)) = false) : sinc (s.argF 0) = 0x3F800000#32 := by
    rw [sinc, small]
    rfl
  exact ⟨completes_of_error_none nofun rfl rfl (Nat.zero_le 1), sincDone, fun small => one small ▸ sincDone,
    completes_of_effect (i := .fcchInit) rfl rfl .nil, completes_of_effect (i := .fcchFlush) rfl rfl .nil⟩

/-! ## Interpolation, peak detection and energy (R203-R205, R218) -/

theorem interpEffect_eq {s : State} {x : Nat → Cplx}
    (hx : CplxOn s.mem (s.argN 0) (interpRange (s.argN 1) (s.argF 2)) x) :
    interpEffect s = .ok
      { results := [(0, (interp s.cfg.windowed x (s.argN 1) (s.argF 2)).re),
          (1, (interp s.cfg.windowed x (s.argN 1) (s.argF 2)).im)] } := by
  rw [interpEffect, interpF_eq fun k => cread_of_mem hx, Rd.ok_bind]

/-- Settles O27: the elements of `interpRange` are all that is read. -/
theorem interpAtFractionalIndex : Obligations.InterpAtFractionalIndex :=
  ⟨reportsErrors_of_ne_viterbiSoft nofun, fun _ _ hc hx =>
    completes_of_error_none nofun hc (interpEffect_eq hx) (Nat.zero_le 1)⟩

theorem peakEffect_eq {s : State} {x : Nat → Cplx} (hx : CplxOn s.mem (s.argN 0) (List.range (s.argN 1)) x) :
    peakEffect s = .ok
      (let r := peak s.cfg.windowed x (s.argN 1)
       { results := [(0, r.maxI), (1, r.peak.re), (2, r.peak.im), (3, r.avg), (4, natWord r.imax)] }) := by
  rw [peakEffect, peakDetectF_eq (cread_of_cplxOn hx), Rd.ok_bind]

/-- Settles O28: the checks and `peakDetectF_eq`. -/
theorem peakDetection : Obligations.PeakDetection :=
  ⟨reportsErrors_of_ne_viterbiSoft nofun, fun _ _ hc hx =>
    completes_of_error_none nofun hc (peakEffect_eq hx) (Nat.zero_le 1)⟩

theorem p2mEffect_eq {s : State} {x : Nat → Cplx} {ks : List Nat} (hk : ks = valley (s.argN 1) (s.argI 4) (s.argN 5))
    (hx : CplxOn s.mem (s.argN 0) ks x) :
    p2mEffect s = .ok
      { results := [
          (0, F32.div (s.argC 2 3).abs
            (F32.add (F32.sqrt (F32.div (energy x ks) (F32.ofInt ks.length))) 0x3727C5AC#32)),
          (1, natWord ks.length)] } := by
  rw [p2mEffect, valleyIndices_eq_valley, ← hk, energyOver_eq fun k => cread_of_mem hx, Rd.ok_bind]

/-- Settles O29: the elements of `valley` are all that is read. -/
theorem peakToMean : Obligations.PeakToMean :=
  ⟨reportsErrors_of_ne_viterbiSoft nofun, fun _ _ hc hx =>
    completes_of_error_none nofun hc (p2mEffect_eq rfl hx) (Nat.zero_le 1)⟩

theorem norm2Effect_eq {s : State} {x : Nat → Cplx} (hx : CplxOn s.mem (s.argN 0) (List.range (s.argN 1)) x) :
    norm2Effect s = .ok { results := [(0, energy x (List.range (s.argN 1)))] } := by
  rw [norm2Effect, energyOver_eq fun k => cread_of_mem hx, Rd.ok_bind]

/-- Settles O37: the energy of the whole vector, by `energyOver_eq`. -/
theorem vectorEnergy : Obligations.VectorEnergy :=
  ⟨reportsErrors_of_ne_viterbiSoft nofun, fun _ _ hc hx =>
    completes_of_error_none nofun hc (norm2Effect_eq hx) (Nat.zero_le 1)⟩

/-! ## Rotation (R69, R206, R207) -/

/-- An index taken mod 4, as its four cases. -/
theorem mod_four_cases (n : Nat) : n % 4 = 0 ∨ n % 4 = 1 ∨ n % 4 = 2 ∨ n % 4 = 3 := by omega

/-- The tables of the model are the ones of R69. -/
theorem rotEntry_eq_rot (n : Nat) : rotEntry n = rot n := by
  rcases mod_four_cases n with h | h | h | h <;> (rw [rotEntry, rot, h]; rfl)

theorem rrotEntry_eq_rrot (n : Nat) : rrotEntry n = rrot n := by
  rcases mod_four_cases n with h | h | h | h <;> (rw [rrotEntry, rrot, h]; rfl)

section
variable {s : State} {x : Nat → Cplx} (hx : CplxOn s.mem (s.argN 0) (List.range (s.argN 1)) x)
include hx

theorem rotEffect_eq :
    rotEffect s = .ok
      { stores := [(s.argN 0, cplxVec (s.argN 1) fun i => (x i).mul (rot (s.argN 2 + i)))] } := by
  simp only [rotEffect, rotated_eq (cread_of_cplxOn hx), Rd.ok_bind, cplxWords_map_range, rotEntry_eq_rot]

theorem rrotEffect_eq :
    rrotEffect s = .ok
      { stores := [(s.argN 0, cplxVec (s.argN 1) fun i => (x i).mul (rrot (s.argN 2 + i)))] } := by
  simp only [rrotEffect, rotated_eq (cread_of_cplxOn hx), Rd.ok_bind, cplxWords_map_range, rrotEntry_eq_rrot]

end

/-- Settles O30: element by element, by `rotated_eq` for each table. -/
theorem rotationsInPlace : Obligations.RotationsInPlace :=
  ⟨reportsErrors_of_ne_viterbiSoft nofun, reportsErrors_of_ne_viterbiSoft nofun, fun _ _ hx =>
    ⟨fun hc => completes_of_error_none nofun hc (rotEffect_eq hx) (le_refl 1),
      fun hc => completes_of_error_none nofun hc (rrotEffect_eq hx) (le_refl 1)⟩⟩

/-! ## Convolution and correlation (R208-R212) -/

section
variable {s : State} {x h : Nat → Cplx} (hx : CplxOn s.mem (s.argN 0) (List.range (s.argN 1)) x)
  (hh : CplxOn s.mem (s.argN 2) (List.range (s.argN 3)) h)
include hx hh

theorem convEffect_eq :
    convEffect s = .ok
      { stores := [(s.argN 4, cplxVec (s.argN 1 + s.argN 3 - 1) (conv h (s.argN 3) x (s.argN 1)))]
        results := [(0, natWord (s.argN 1 + s.argN 3 - 1))] } := by
  rw [convEffect, convTable_eq (cread_of_cplxOn hh) (cread_of_cplxOn hx) (fun n => n), Rd.ok_bind, cplxWords_map_range]
  rfl

theorem convNdEffect_eq :
    convNdEffect s = .ok
      { stores := [(s.argN 4, cplxVec (s.argN 1) fun n => conv h (s.argN 3) x (s.argN 1) (n + (s.argN 3 - 1) / 2))]
        results := [(0, natWord (s.argN 1))] } := by
  rw [convNdEffect, convTable_eq (cread_of_cplxOn hh) (cread_of_cplxOn hx) (· + centreShift (s.argN 3)), Rd.ok_bind,
    cplxWords_map_range]
  rfl

theorem corrEffect_eq :
    corrEffect s = .ok
      { stores := [(s.argN 4,
          cplxVec (s.argN 1 + s.argN 3 - 1) (conv (Spec.revConj h (s.argN 3)) (s.argN 3) x (s.argN 1)))]
        results := [(0, natWord (s.argN 1 + s.argN 3 - 1))] } := by
  rw [corrEffect, convTable_eq (revConj_eq hh) (cread_of_cplxOn hx) (fun n => n), Rd.ok_bind, cplxWords_map_range]
  rfl

theorem corrNdEffect_eq :
    corrNdEffect s = .ok
      { stores := [(s.argN 4, cplxVec (s.argN 1) fun n =>
          conv (Spec.revConj h (s.argN 3)) (s.argN 3) x (s.argN 1) (n + (s.argN 3 - 1) / 2))]
        results := [(0, natWord (s.argN 1))] } := by
  rw [corrNdEffect, convTable_eq (revConj_eq hh) (cread_of_cplxOn hx) (· + centreShift (s.argN 3)), Rd.ok_bind,
    cplxWords_map_range]
  rfl

end

/-- Settles O32: both are tables of `convAt_eq`, the second at the centred indices. -/
theorem convolutions : Obligations.Convolutions :=
  ⟨reportsErrors_of_ne_viterbiSoft nofun, reportsErrors_of_ne_viterbiSoft nofun, fun _ _ _ hx hh =>
    ⟨fun hc => completes_of_error_none nofun hc (convEffect_eq hx hh) (le_refl 1),
      fun hc => completes_of_error_none nofun hc (convNdEffect_eq hx hh) (le_refl 1)⟩⟩

/-- Settles O33: the convolutions again, with the taps of `revConj_eq`. -/
theorem correlations : Obligations.Correlations :=
  ⟨reportsErrors_of_ne_viterbiSoft nofun, reportsErrors_of_ne_viterbiSoft nofun, fun _ _ _ hx hr =>
    ⟨fun hc => completes_of_error_none nofun hc (corrEffect_eq hx hr) (le_refl 1),
      fun hc => completes_of_error_none nofun hc (corrNdEffect_eq hx hr) (le_refl 1)⟩⟩

/-! ## Delay, scaling, conjugation, slicing and resampling (R213-R217, R231) -/

section
variable {s : State} {x : Nat → Cplx} (hx : CplxOn s.mem (s.argN 0) (List.range (s.argN 1)) x)
include hx

theorem delayEffect_eq :
    delayEffect s = .ok
      (let ids := F32.floor (s.argF 2)
       let fds := F32.sub (s.argF 2) (F32.ofInt ids)
       { stores := [(s.argN 0, cplxVec (s.argN 1) (delayed x (s.argN 1) ids fds))]
         results := [(0, intWord ids), (1, fds)] }) := by
  simp only [delayEffect, delayBuffer_eq (cread_of_cplxOn hx), Rd.ok_bind, shifted_delayBuf, cplxWords_map_range]

theorem scaleEffect_eq :
    scaleEffect s = .ok { stores := [(s.argN 2, cplxVec (s.argN 1) fun i => Cplx.smul (s.argF 3) (x i))] } := by
  rw [scaleEffect, mappedVec_eq (cread_of_cplxOn hx), Rd.ok_bind, cplxWords_map_range]

theorem conjEffect_eq : conjEffect s = .ok { stores := [(s.argN 2, cplxVec (s.argN 1) fun i => (x i).conj)] } := by
  rw [conjEffect, mappedVec_eq (cread_of_cplxOn hx), Rd.ok_bind, cplxWords_map_range]

theorem sliceSoftEffect_eq :
    sliceSoftEffect s = .ok { stores := [(s.argN 2, realVec (s.argN 1) fun i => softF (x i))] } := by
  rw [sliceSoftEffect, mappedVec_eq (cread_of_cplxOn hx), Rd.ok_bind]
  rfl

theorem resampleEffect_eq :
    resampleEffect s = .ok
      { stores := [(s.argN 2, cplxVec s.resampleOut
          (Config.resampleAt ((List.range (s.argN 1)).map x) (s.argN 3) (s.argN 4)))]
        results := [(0, natWord s.resampleOut)] } := by
  simp only [resampleEffect, creadAll_eq hx, Rd.ok_bind, cplxWords_map_range]

end

theorem sliceEffect_eq {s : State} {y : Nat → F32} (hy : RealOn s.mem (s.argN 0) (List.range (s.argN 1)) y) :
    sliceEffect s = .ok { stores := [(s.argN 2, bitVec (s.argN 1) fun i => sliceBit (y i))] } := by
  rw [sliceEffect, mappedVec_eq (rread_of_realOn hy), Rd.ok_bind, bitWords_map_range]

/-- Settles O34: the buffer by `delayBuffer_eq`, its shift by `shifted_delayBuf`. -/
theorem fractionalDelay : Obligations.FractionalDelay :=
  ⟨reportsErrors_of_ne_viterbiSoft nofun, fun _ _ hc hx =>
    completes_of_error_none nofun hc (delayEffect_eq hx) (le_refl 1)⟩

/-- Settles O35: element by element, by `mappedVec_eq`. -/
theorem scaleAndConjugate : Obligations.ScaleAndConjugate :=
  ⟨reportsErrors_of_ne_viterbiSoft nofun, reportsErrors_of_ne_viterbiSoft nofun, fun _ _ hx =>
    ⟨fun hc => completes_of_error_none nofun hc (scaleEffect_eq hx) (le_refl 1),
      fun hc => completes_of_error_none nofun hc (conjEffect_eq hx) (le_refl 1)⟩⟩

/-- Settles O36: element by element, by `mappedVec_eq`. -/
theorem softAndHardSlices : Obligations.SoftAndHardSlices :=
  ⟨reportsErrors_of_ne_viterbiSoft nofun, reportsErrors_of_ne_viterbiSoft nofun, fun _ =>
    ⟨fun _ hx hc => completes_of_error_none nofun hc (sliceSoftEffect_eq hx) (le_refl 1),
      fun _ hy hc => completes_of_error_none nofun hc (sliceEffect_eq hy) (le_refl 1)⟩⟩

/-- The feature bit is the first check of `RESAMPLE`, whatever the others say (R231, R413). -/
theorem error_resample_of_no_feature {s : State} (h : s.cfg.resample = false) : Spec.error .resample s = some .unimpl := by
  rw [error_eq_firstFailing, checkList, h]
  rfl

/-- Settles O38: the feature is the first check, so it decides alone. -/
theorem resampleIsTheOpenFunction : Obligations.ResampleIsTheOpenFunction := by
  have reports : ReportsErrors .resample := reportsErrors_of_ne_viterbiSoft nofun
  exact ⟨reports, fun s lacks => reports s .unimpl (error_resample_of_no_feature lacks), fun _ _ hc hx =>
    completes_of_error_none nofun hc (resampleEffect_eq hx) (le_refl 1)⟩

end Sys2Proof.Proofs

/-!
PROOFS. On finite binary32 values multiplication by ±1 is exact and addition of ±0 is exact but for the sign of a zero
(00_scope.md R14), so the two rotator tables undo each other (10_state.md R69; 40_dsp_primitives.md R207).
-/
namespace Sys2Proof.Proofs

open Sys2Proof.Machine Sys2Proof.Spec

/-! ## Sign and magnitude -/

theorem sign_eq_decide (a : F32) : F32.sign a = decide (2 ^ 31 ≤ a.toNat) := BitVec.msb_eq_decide a

/-- A pattern is its sign and its magnitude. -/
theorem ofMag_sign_mag (a : F32) : F32.ofMag (F32.sign a) (F32.mag a) = a := by
  have bound := a.isLt
  apply BitVec.eq_of_toNat_eq
  rw [F32.ofMag, BitVec.toNat_ofNat, sign_eq_decide, F32.mag]
  split
  next set =>
    have := of_decide_eq_true set
    omega
  next clear =>
    have : ¬ 2 ^ 31 ≤ a.toNat := by simpa using clear
    omega

@[simp] theorem sign_neg (a : F32) : F32.sign (F32.neg a) = !F32.sign a := by
  simp [F32.sign, F32.neg]

@[simp] theorem mag_neg (a : F32) : F32.mag (F32.neg a) = F32.mag a := by
  rw [F32.mag, F32.neg, BitVec.toNat_xor, Nat.xor_mod_two_pow]
  exact Nat.xor_zero _

theorem ofMag_not_sign (a : F32) : F32.ofMag (!F32.sign a) (F32.mag a) = F32.neg a := by
  rw [← sign_neg, ← mag_neg, ofMag_sign_mag]

theorem neg_neg_eq (a : F32) : F32.neg (F32.neg a) = a := by
  rw [← ofMag_not_sign (F32.neg a), sign_neg, mag_neg, Bool.not_not, ofMag_sign_mag]

@[simp] theorem isFinite_neg (a : F32) : F32.isFinite (F32.neg a) = F32.isFinite a := by
  rw [F32.isFinite, mag_neg, F32.isFinite]

@[simp] theorem isZero_neg (a : F32) : F32.isZero (F32.neg a) = F32.isZero a := by
  rw [F32.isZero, mag_neg, F32.isZero]

theorem mag_eq_zero {a : F32} (h : F32.isZero a = true) : F32.mag a = 0 := eq_of_beq h

theorem mag_lt_of_isFinite {a : F32} (h : F32.isFinite a = true) : F32.mag a < F32.infMag := of_decide_eq_true h

theorem isFinite_of_isZero {a : F32} (h : F32.isZero a = true) : F32.isFinite a = true :=
  decide_eq_true (by rw [mag_eq_zero h]; decide)

theorem not_special_of_isFinite {a : F32} (h : F32.isFinite a = true) : F32.isNaN a = false ∧ F32.isInf a = false := by
  have lt := mag_lt_of_isFinite h
  exact ⟨decide_eq_false (by omega), beq_eq_false_iff_ne.2 (by omega)⟩

theorem isZero_zero (s : Bool) : F32.isZero (F32.zero s) = true := by cases s <;> decide

/-! ## Significand and exponent -/

theorem sig_expo_of_subnormal {a : F32} (h : F32.mag a < 2 ^ 23) : F32.sig a = F32.mag a ∧ F32.expo a = -149 :=
  ⟨if_pos h, if_pos h⟩

theorem sig_expo_of_normal {a : F32} (h : ¬ F32.mag a < 2 ^ 23) :
    F32.sig a = F32.mag a % 2 ^ 23 + 2 ^ 23 ∧ F32.expo a = (F32.mag a / 2 ^ 23 : Nat) - 150 :=
  ⟨if_neg h, if_neg h⟩

theorem sig_of_isZero {a : F32} (h : F32.isZero a = true) : F32.sig a = 0 ∧ F32.expo a = -149 := by
  have mag := mag_eq_zero h
  obtain ⟨sig, expo⟩ := sig_expo_of_subnormal (a := a) (by omega)
  exact ⟨sig.trans mag, expo⟩

theorem isZero_of_sig {a : F32} (h : F32.sig a = 0) : F32.isZero a = true := by
  have mag : F32.mag a = 0 := by
    rw [F32.sig] at h
    split at h <;> omega
  exact beq_iff_eq.2 mag

/-- The last place of a value is that of its leading bit, or that of the subnormals. -/
theorem lastPlace_eq_expo {a : F32} (h : F32.sig a ≠ 0) :
    max ((Nat.log2 (F32.sig a) : Int) + F32.expo a - 23) (-149) = F32.expo a := by
  by_cases small : F32.mag a < 2 ^ 23
  · obtain ⟨sig, expo⟩ := sig_expo_of_subnormal small
    have leading : Nat.log2 (F32.sig a) < 23 := (Nat.log2_lt h).2 (by omega)
    omega
  · obtain ⟨sig, expo⟩ := sig_expo_of_normal small
    have leading : Nat.log2 (F32.sig a) = 23 := (Nat.log2_eq_iff h).2 (by omega)
    omega

/-- The count of last places that `F32.round` packs is the magnitude. -/
theorem packed_eq_mag (a : F32) : (F32.expo a + 149).toNat * 2 ^ 23 + F32.sig a = F32.mag a := by
  by_cases small : F32.mag a < 2 ^ 23
  · obtain ⟨sig, expo⟩ := sig_expo_of_subnormal small
    omega
  · obtain ⟨sig, expo⟩ := sig_expo_of_normal small
    omega

/-! ## Rounding a value that is representable -/

theorem log2_mul_two_pow {m : Nat} (hm : m ≠ 0) (k : Nat) : Nat.log2 (m * 2 ^ k) = Nat.log2 m + k := by
  induction k with
  | zero => rw [pow_zero, mul_one, Nat.add_zero]
  | succ k ih =>
    rw [pow_succ', mul_left_comm, Nat.log2_two_mul (by positivity), ih, Nat.add_assoc]

theorem divPow2Even_mul_two_pow (m k : Nat) : F32.divPow2Even (m * 2 ^ k) k = m := by
  have pos : 0 < 2 ^ k := Nat.two_pow_pos k
  rw [F32.divPow2Even, Nat.mul_div_cancel m pos, Nat.mul_mod_left]
  exact if_neg (by omega)

/-- A finite value, written with its significand scaled up, rounds to itself. -/
theorem round_scaled {a : F32} (h : F32.isFinite a = true) (s : Bool) (k : Nat) :
    F32.round s (F32.sig a * 2 ^ k) (F32.expo a - k) = F32.ofMag s (F32.mag a) := by
  by_cases zero : F32.sig a = 0
  · rw [zero, Nat.zero_mul, mag_eq_zero (isZero_of_sig zero)]
    rfl
  · have lastPlace : max ((Nat.log2 (F32.sig a * 2 ^ k) : Int) + (F32.expo a - k) - 23) (-149) = F32.expo a := by
      have unscaled := lastPlace_eq_expo zero
      rw [log2_mul_two_pow zero]
      omega
    have count : (if F32.expo a ≤ F32.expo a - k
          then F32.sig a * 2 ^ k * 2 ^ (F32.expo a - k - F32.expo a).toNat
          else F32.divPow2Even (F32.sig a * 2 ^ k) (F32.expo a - (F32.expo a - k)).toNat) = F32.sig a := by
      split
      next unscaled =>
        obtain rfl : k = 0 := by omega
        simp
      next =>
        have places : (F32.expo a - (F32.expo a - k)).toNat = k := by omega
        rw [places, divPow2Even_mul_two_pow]
    have fits : min (F32.mag a) F32.infMag = F32.mag a := Nat.min_eq_left (mag_lt_of_isFinite h).le
    have nonzero : F32.sig a * 2 ^ k ≠ 0 := by positivity
    simp only [F32.round, if_neg nonzero, lastPlace, count, packed_eq_mag, fits]

/-! ## Multiplication by ±1 and by 0 -/

theorem mul_of_isFinite {a b : F32} (ha : F32.isFinite a = true) (hb : F32.isFinite b = true) :
    F32.mul a b = F32.round (F32.sign a != F32.sign b) (F32.sig a * F32.sig b) (F32.expo a + F32.expo b) := by
  obtain ⟨aNaN, aInf⟩ := not_special_of_isFinite ha
  obtain ⟨bNaN, bInf⟩ := not_special_of_isFinite hb
  simp [F32.mul, aNaN, aInf, bNaN, bInf]

/-- 1.0 or −1.0 -/
def signedOne (s : Bool) : F32 := if s then F32.minusOne else F32.one

/-- `a` or −`a` -/
def signed (s : Bool) (a : F32) : F32 := if s then F32.neg a else a

theorem signedOne_fields (s : Bool) :
    F32.isFinite (signedOne s) = true ∧ F32.sign (signedOne s) = s ∧ F32.sig (signedOne s) = 2 ^ 23
      ∧ F32.expo (signedOne s) = -23 := by
  cases s <;> decide

theorem mul_signedOne {a : F32} (h : F32.isFinite a = true) (s : Bool) : F32.mul a (signedOne s) = signed s a := by
  obtain ⟨finite, sign, sig, expo⟩ := signedOne_fields s
  rw [mul_of_isFinite h finite, sign, sig, expo]
  have rounded := round_scaled h (F32.sign a != s) 23
  cases s with
  | false => exact rounded.trans (by rw [Bool.bne_false, ofMag_sign_mag]; rfl)
  | true => exact rounded.trans (by rw [Bool.bne_true, ofMag_not_sign]; rfl)

theorem isZero_mul_zero {a : F32} (h : F32.isFinite a = true) : F32.isZero (F32.mul a 0#32) = true := by
  have zero : F32.sig 0#32 = 0 := by decide
  rw [mul_of_isFinite h (by decide), zero, Nat.mul_zero]
  exact isZero_zero _

theorem signed_signed (s : Bool) (a : F32) : signed s (signed s a) = a := by
  cases s with
  | false => rfl
  | true => exact neg_neg_eq a

theorem neg_signed (s : Bool) (a : F32) : F32.neg (signed s a) = signed (!s) a := by
  cases s with
  | false => rfl
  | true => exact neg_neg_eq a

@[simp] theorem isFinite_signed (s : Bool) (a : F32) : F32.isFinite (signed s a) = F32.isFinite a := by
  cases s <;> simp [signed]

@[simp] theorem isZero_signed (s : Bool) (a : F32) : F32.isZero (signed s a) = F32.isZero a := by
  cases s <;> simp [signed]

/-! ## Equality up to the sign of a zero -/

/-- The same value; the two zeros are not told apart. -/
def SameValue (a b : F32) : Prop := a = b ∨ (F32.isZero a = true ∧ F32.isZero b = true)

theorem SameValue.trans {a b c : F32} (h : SameValue a b) (h' : SameValue b c) : SameValue a c := by
  rcases h with rfl | ⟨za, zb⟩
  · exact h'
  · rcases h' with rfl | ⟨-, zc⟩
    · exact .inr ⟨za, zb⟩
    · exact .inr ⟨za, zc⟩

theorem SameValue.isFinite {a b : F32} (h : SameValue a b) (hb : F32.isFinite b = true) : F32.isFinite a = true := by
  rcases h with rfl | ⟨za, -⟩
  · exact hb
  · exact isFinite_of_isZero za

theorem SameValue.signed {a b : F32} (h : SameValue a b) (s : Bool) : SameValue (signed s a) (signed s b) := by
  rcases h with rfl | ⟨za, zb⟩
  · exact .inl rfl
  · exact .inr (by simp [za, zb])

/-! ## Addition and subtraction of ±0 -/

theorem addFinite_comm (a b : F32) : F32.addFinite a b = F32.addFinite b a := by
  simp only [F32.addFinite, min_comm, add_comm, Bool.and_comm]

theorem scaled_of_isZero {a : F32} (h : F32.isZero a = true) (e : Int) : F32.scaled a e = 0 := by
  obtain ⟨sig, -⟩ := sig_of_isZero h
  simp [F32.scaled, sig]

theorem neg149_le_expo (a : F32) : -149 ≤ F32.expo a := by
  unfold F32.expo
  split <;> omega

/-- A value in units below its last place. -/
theorem scaled_sub (a : F32) (k : Nat) :
    F32.scaled a (F32.expo a - k)
      = if F32.sign a then -((F32.sig a * 2 ^ k : Nat) : Int) else ((F32.sig a * 2 ^ k : Nat) : Int) := by
  have places : (F32.expo a - (F32.expo a - k)).toNat = k := by omega
  rw [F32.scaled, places]

theorem natAbs_scaled_sub (a : F32) (k : Nat) : (F32.scaled a (F32.expo a - k)).natAbs = F32.sig a * 2 ^ k := by
  rw [scaled_sub]
  split <;> omega

/-- A nonzero finite value in units below its last place rounds back to the value. -/
theorem round_scaled_sub {a : F32} (h : F32.isFinite a = true) (nonzero : F32.sig a ≠ 0) (k : Nat) :
    F32.round (decide (F32.scaled a (F32.expo a - k) < 0)) (F32.scaled a (F32.expo a - k)).natAbs (F32.expo a - k) = a := by
  have pos : 0 < F32.sig a * 2 ^ k := by positivity
  have sign : decide (F32.scaled a (F32.expo a - k) < 0) = F32.sign a := by
    rw [scaled_sub]
    cases F32.sign a with
    | false => exact decide_eq_false (by rw [if_neg Bool.false_ne_true]; omega)
    | true => exact decide_eq_true (by rw [if_pos rfl]; omega)
  rw [sign, natAbs_scaled_sub, round_scaled h, ofMag_sign_mag]

theorem addFinite_zero {a b : F32} (ha : F32.isFinite a = true) (hb : F32.isZero b = true) :
    SameValue (F32.addFinite a b) a := by
  obtain ⟨-, expo⟩ := sig_of_isZero hb
  obtain ⟨k, units⟩ : ∃ k : Nat, min (F32.expo a) (F32.expo b) = F32.expo a - k :=
    ⟨(F32.expo a + 149).toNat, by have := neg149_le_expo a; omega⟩
  simp only [F32.addFinite, units, scaled_of_isZero hb, add_zero]
  by_cases zero : F32.sig a = 0
  · rw [if_pos (scaled_of_isZero (isZero_of_sig zero) _)]
    exact .inr ⟨isZero_zero _, isZero_of_sig zero⟩
  · have nonzero : F32.scaled a (F32.expo a - k) ≠ 0 :=
      Int.natAbs_ne_zero.1 (by rw [natAbs_scaled_sub]; positivity)
    rw [if_neg nonzero]
    exact .inl (round_scaled_sub ha zero k)

section
variable {a b : F32} (ha : F32.isFinite a = true) (hb : F32.isFinite b = true)
include ha hb

theorem add_of_isFinite : F32.add a b = F32.addFinite a b := by
  obtain ⟨aNaN, aInf⟩ := not_special_of_isFinite ha
  obtain ⟨bNaN, bInf⟩ := not_special_of_isFinite hb
  simp [F32.add, aNaN, aInf, bNaN, bInf]

theorem sub_of_isFinite : F32.sub a b = F32.addFinite a (F32.neg b) := by
  obtain ⟨aNaN, aInf⟩ := not_special_of_isFinite ha
  obtain ⟨bNaN, bInf⟩ := not_special_of_isFinite hb
  simp [F32.sub, aNaN, aInf, bNaN, bInf]

end

section
variable {a z : F32} (ha : F32.isFinite a = true) (hz : F32.isZero z = true)
include ha hz

theorem add_zero_same : SameValue (F32.add a z) a := by
  rw [add_of_isFinite ha (isFinite_of_isZero hz)]
  exact addFinite_zero ha hz

theorem zero_add_same : SameValue (F32.add z a) a := by
  rw [add_of_isFinite (isFinite_of_isZero hz) ha, addFinite_comm]
  exact addFinite_zero ha hz

theorem sub_zero_same : SameValue (F32.sub a z) a := by
  rw [sub_of_isFinite ha (isFinite_of_isZero hz)]
  exact addFinite_zero ha (by rwa [isZero_neg])

theorem zero_sub_same : SameValue (F32.sub z a) (F32.neg a) := by
  rw [sub_of_isFinite (isFinite_of_isZero hz) ha, addFinite_comm]
  exact addFinite_zero (by rwa [isFinite_neg]) hz

end

/-! ## Rotation by a multiple of π/2 (R69) -/

/-- Both components have the same value. -/
def SameCplx (z w : Cplx) : Prop := SameValue z.re w.re ∧ SameValue z.im w.im

/-- Both components are finite. -/
def FiniteCplx (z : Cplx) : Prop := F32.isFinite z.re = true ∧ F32.isFinite z.im = true

theorem SameCplx.finite {z w : Cplx} (h : SameCplx z w) (hw : FiniteCplx w) : FiniteCplx z :=
  have ⟨re, im⟩ := h
  have ⟨finiteRe, finiteIm⟩ := hw
  ⟨re.isFinite finiteRe, im.isFinite finiteIm⟩

section
variable {z : Cplx} (h : FiniteCplx z) (s : Bool)
include h

/-- ±1 times z -/
theorem mul_real_signedOne : SameCplx (z.mul ⟨signedOne s, 0#32⟩) ⟨signed s z.re, signed s z.im⟩ := by
  obtain ⟨re, im⟩ := h
  simp only [SameCplx, Cplx.mul, mul_signedOne re, mul_signedOne im]
  exact ⟨sub_zero_same (by rwa [isFinite_signed]) (isZero_mul_zero im),
    zero_add_same (by rwa [isFinite_signed]) (isZero_mul_zero re)⟩

/-- ±j times z -/
theorem mul_imag_signedOne : SameCplx (z.mul ⟨0#32, signedOne s⟩) ⟨signed (!s) z.im, signed s z.re⟩ := by
  obtain ⟨re, im⟩ := h
  simp only [SameCplx, Cplx.mul, mul_signedOne re, mul_signedOne im, ← neg_signed]
  exact ⟨zero_sub_same (by rwa [isFinite_signed]) (isZero_mul_zero re),
    add_zero_same (by rwa [isFinite_signed]) (isZero_mul_zero im)⟩

/-- A sign taken twice is none. -/
theorem mul_real_signedOne_twice : SameCplx ((z.mul ⟨signedOne s, 0#32⟩).mul ⟨signedOne s, 0#32⟩) z := by
  have first := mul_real_signedOne h s
  have ⟨finiteRe, finiteIm⟩ := h
  have ⟨re, im⟩ := mul_real_signedOne (first.finite ⟨by rwa [isFinite_signed], by rwa [isFinite_signed]⟩) s
  have ⟨re', im'⟩ := first
  exact ⟨signed_signed s z.re ▸ re.trans (re'.signed s), signed_signed s z.im ▸ im.trans (im'.signed s)⟩

/-- A quarter turn and the opposite one are none. -/
theorem mul_imag_signedOne_opposite : SameCplx ((z.mul ⟨0#32, signedOne s⟩).mul ⟨0#32, signedOne !s⟩) z := by
  have first := mul_imag_signedOne h s
  have ⟨finiteRe, finiteIm⟩ := h
  have ⟨re, im⟩ := mul_imag_signedOne (first.finite ⟨by rwa [isFinite_signed], by rwa [isFinite_signed]⟩) (!s)
  have ⟨re', im'⟩ := first
  rw [Bool.not_not] at re
  exact ⟨signed_signed s z.re ▸ re.trans (im'.signed s), signed_signed (!s) z.im ▸ im.trans (re'.signed !s)⟩

end

/-- Settles O31: entry `n` of the two tables is the same sign, or opposite quarter turns. -/
theorem rrotUndoesRot : Obligations.RrotUndoesRot := by
  intro z n re im
  have finite : FiniteCplx z := ⟨re, im⟩
  rcases mod_four_cases n with h | h | h | h <;> simp only [rotEntry, rrotEntry, h]
  · exact mul_real_signedOne_twice finite false
  · exact mul_imag_signedOne_opposite finite false
  · exact mul_real_signedOne_twice finite true
  · exact mul_imag_signedOne_opposite finite true

end Sys2Proof.Proofs

/-!
PROOFS. `MODULATE` (41_gmsk_modulator.md R261-R263): the pulse of GaussPulseF, the rotated impulse train as a function of its
index, and the centred convolution of the two.
-/
namespace Sys2Proof.Proofs

open Sys2Proof.Machine Sys2Proof.Spec

/-! ## The pulse (R261, R262) -/

theorem pulseLen_eq_pulseCount (sps : F32) : pulseLen sps = pulseCount sps := rfl

/-- The model's normalized pulse is the vector of `gauss`: it sums the energy over the samples, the Spec over their
indices. -/
theorem gaussPulse_eq (sps : F32) : gaussPulse sps = realVec (pulseCount sps) (gauss sps) := by
  have raw : pulseRaw sps (F32.mul (F32.ofInt ((pulseCount sps : Int) - 1)) F32.half) = pulseShape sps := rfl
  have energySum : ((List.range (pulseCount sps)).map (pulseShape sps)).foldl (fun acc g => F32.add acc (F32.mul g g)) 0#32
      = sumR ((List.range (pulseCount sps)).map fun k => F32.mul (pulseShape sps k) (pulseShape sps k)) := by
    rw [sumR, List.foldl_map, List.foldl_map]
  simp only [gaussPulse, pulseLen_eq_pulseCount, raw, energySum, List.map_map]
  rfl

/-- The pulse cache after a `MODULATE`: the one that is there, or the pulse of this command's sps (R262). -/
theorem built_eq (p : Pulse) (sps : F32) :
    p.built sps = if p.valid then p else ⟨true, sps, realVec (pulseCount sps) (gauss sps)⟩ := by
  rw [Pulse.built, gaussPulse_eq]

/-! ## The impulse train (R263) -/

/-- Placing symbols keeps the length of the signal, also where an index lies past its end. -/
@[simp] theorem placeSymbols_length (step : Nat) (sig : List Cplx) (at_ : Nat) (bits : List Bool) :
    (placeSymbols step sig at_ bits).length = sig.length := by
  induction bits generalizing sig at_ with
  | nil => rfl
  | cons b bits ih => rw [placeSymbols, ih, List.length_set]

/-- Index `i` of the signal holds the symbol last placed there, or what it held before. -/
theorem placeSymbols_getD {step i : Nat} {sig : List Cplx} (inside : i < sig.length) (b : Nat → Bool) (lo n : Nat) :
    (placeSymbols step sig (step * lo) ((List.range' lo n).map b)).getD i Cplx.zero
      = (((List.range' lo n).reverse.find? fun k => step * k == i).map fun k => symbolOf (b k)).getD
          (sig.getD i Cplx.zero) := by
  induction n generalizing lo sig with
  | zero => rfl
  | succ n ih =>
    have first : (sig.set (step * lo) (symbolOf (b lo))).getD i Cplx.zero
        = if step * lo = i then symbolOf (b lo) else sig.getD i Cplx.zero := by
      simp only [List.getD_eq_getElem?_getD, List.getElem?_set]
      split
      next here => simp [here, inside]
      next => rfl
    rw [List.range'_succ, List.map_cons, placeSymbols, ← Nat.mul_succ, ih (by rwa [List.length_set]), first,
      List.reverse_cons, List.find?_append]
    cases later : (List.range' (lo + 1) n).reverse.find? fun k => step * k == i with
    | some k => rfl
    | none => by_cases here : step * lo = i <;> simp [here]

/-- The signal of the Spec, its symbol written as the model writes it. -/
theorem impulses_eq (step n : Nat) (b : Nat → Bool) (i : Nat) :
    impulses step n b i
      = ((((List.range n).reverse.find? fun k => step * k == i).map fun k => symbolOf (b k)).getD Cplx.zero).mul
          (rot i) := by
  rw [impulses]
  cases (List.range n).reverse.find? fun k => step * k == i <;> rfl

/-- Inside the signal the rotated impulse train of the model is the Spec's. -/
theorem impulseTrain_getD {len i : Nat} (inside : i < len) (step n : Nat) (b : Nat → Bool) :
    (impulseTrain len step ((List.range n).map b)).getD i Cplx.zero = impulses step n b i := by
  have placed := placeSymbols_getD (step := step) (sig := List.replicate len Cplx.zero) (by simpa using inside) b 0 n
  have empty : (List.replicate len Cplx.zero).getD i Cplx.zero = Cplx.zero := by simp [inside]
  rw [empty, Nat.mul_zero, ← List.range_eq_range', List.getD_eq_getElem _ _ (by simpa using inside)] at placed
  rw [impulses_eq, ← placed, impulseTrain, List.getD_eq_getElem _ _ (by simpa using inside), List.getElem_mapIdx,
    rotEntry_eq_rot]

/-! ## `MODULATE` -/

/-- The listed bits of a written bit vector can be read (R101, R105). -/
theorem breadAll_eq {m : Memory} {a n : Nat} {b : Nat → Bool} (h : BitOn m a (List.range n) b) :
    breadAll m a n = .ok ((List.range n).map b) :=
  tabRd_range_ok fun k hk => bread_ok (h k (List.mem_range.2 hk))

theorem modLen_eq_signalLen (s : State) : s.modLen = signalLen s := rfl

/-- The effect on written bits: the table of `convTable_eq` with the pulse as real taps over the impulse train. -/
theorem modulateEffect_eq {s : State} {b : Nat → Bool} (hb : BitOn s.mem (s.argN 0) (List.range (s.argN 1)) b) :
    modulateEffect s = .ok
      (let gp := s.pulse.built (s.argF 3)
       { stores := [(s.argN 4, cplxVec (signalLen s) fun n =>
          conv (fun k => ⟨gp.samples.getD k 0#32, 0#32⟩) gp.samples.length
            (impulses (F32.floor (s.argF 3)).toNat (s.argN 1) b) (signalLen s) (n + (gp.samples.length - 1) / 2))]
         results := [(0, natWord (signalLen s))]
         pulse := some gp }) := by
  have signal : ∀ k < signalLen s,
      (.ok ((impulseTrain (signalLen s) (F32.floor (s.argF 3)).toNat ((List.range (s.argN 1)).map b)).getD k Cplx.zero)
        : Rd Cplx) = .ok (impulses (F32.floor (s.argF 3)).toNat (s.argN 1) b k) :=
    fun k inside => congrArg Except.ok (impulseTrain_getD inside _ _ b)
  rw [modulateEffect, breadAll_eq hb, Rd.ok_bind, modLen_eq_signalLen]
  simp only
  rw [convTable_eq (fun _ _ => rfl) signal (· + centreShift _), Rd.ok_bind, cplxWords_map_range]
  rfl

/-- Settles O39: the model reports what the Spec's list reports, the infinite product included, so the first clause needs no
premise; the completion is `modulateEffect_eq` with the pulse of `built_eq`. -/
theorem modulateUsesThePulseCache : Obligations.ModulateUsesThePulseCache := by
  have checks : ∀ s, checksOf .modulate s = .ok (Spec.error .modulate s) := checksOf_eq_error nofun
  refine ⟨fun s c _ hc => reportsErrors_of_checks checks s c hc, fun s b hc hb => ?_⟩
  rw [← built_eq]
  exact completes_of_effect ((checks s).trans (congrArg Except.ok hc)) (modulateEffect_eq hb) (List.pairwise_singleton _ _)

end Sys2Proof.Proofs

/-!
PROOFS. Feeding the predictor, frequency detection and the error dump (42_fcch_detector.md R281, R282, R290, R292, R294). The errors
made and those that more samples will make are one number, whatever FCCH_D is (`feedAll_errors`): it counts the errors of a feed,
and makes the capacity checks of a feed in two parts those of the feed in one.
-/
namespace Sys2Proof.Proofs

open Sys2Proof.Machine Sys2Proof.Spec

/-! ## The predictor (R281, R282) -/

/-- The step of the model is the one the Spec writes out: the same sums, over indices there and over terms here. -/
theorem predictStep_eq_spec (f : Fcch) : f.predictStep = Spec.predictStep f := by
  simp only [Spec.predictStep, sumR, sumC, List.foldl_map, List.drop_one]
  rfl

theorem feedSample_eq_spec (f : Fcch) (z : Cplx) : f.feedSample z = Spec.feedSample f z := by
  rw [Fcch.feedSample, Spec.feedSample, predictStep_eq_spec]

theorem feedAll_eq_foldl (f : Fcch) (zs : List Cplx) : f.feedAll zs = zs.foldl Spec.feedSample f := by
  rw [Fcch.feedAll, funext₂ feedSample_eq_spec]

/-! ## What feeding leaves in the buffers (R282) -/

/-- R290: feeding two vectors one after the other is feeding their concatenation. -/
theorem feedAll_append (f : Fcch) (xs ys : List Cplx) : f.feedAll (xs ++ ys) = (f.feedAll xs).feedAll ys :=
  List.foldl_append

@[simp] theorem feedAll_d (f : Fcch) (xs : List Cplx) : (f.feedAll xs).d = f.d := by
  induction xs generalizing f with
  | nil => rfl
  | cons x xs ih => rw [feedAll_cons, ih, feedSample_d]

/-- One sample fed moves one error from those to come to those made, whatever FCCH_D is: the errors made and those that `m` more
samples will make stay the number of R290. -/
theorem feedSample_errors (f : Fcch) (x : Cplx) (m : Nat) :
    (f.feedSample x).ebuf.length + (f.feedSample x).errorsFor m = f.ebuf.length + f.errorsFor (m + 1) := by
  rw [Fcch.errorsFor, Fcch.errorsFor, feedSample_d]
  rcases Nat.lt_or_ge f.xbuf.length (16 + f.d.toNat) with short | full
  · obtain ⟨hx, he⟩ := feedSample_lengths_of_short x short
    omega
  · obtain ⟨hx, he⟩ := feedSample_lengths_of_full x full
    omega

/-- The errors that feeding `xs` has made and those that `m` more samples will make are those of feeding all in one. -/
theorem feedAll_errors (f : Fcch) (xs : List Cplx) (m : Nat) :
    (f.feedAll xs).ebuf.length + (f.feedAll xs).errorsFor m = f.ebuf.length + f.errorsFor (xs.length + m) := by
  induction xs generalizing f with
  | nil => rw [List.length_nil, Nat.zero_add]; rfl
  | cons x xs ih => rw [feedAll_cons, ih, feedSample_errors, List.length_cons, Nat.add_right_comm]

/-- XBUF fills up to 16 + D samples and then keeps its length. -/
theorem feedAll_xbuf_length {f : Fcch} (xs : List Cplx) (h : f.xbuf.length ≤ 16 + f.d.toNat) :
    (f.feedAll xs).xbuf.length = min (f.xbuf.length + xs.length) (16 + f.d.toNat) := by
  induction xs generalizing f with
  | nil => exact (Nat.min_eq_left h).symm
  | cons x xs ih =>
    have rest := ih (f := f.feedSample x)
    rw [feedSample_d] at rest
    rw [feedAll_cons, List.length_cons]
    rcases Nat.lt_or_ge f.xbuf.length (16 + f.d.toNat) with short | full
    · obtain ⟨hx, -⟩ := feedSample_lengths_of_short x short
      omega
    · obtain ⟨hx, -⟩ := feedSample_lengths_of_full x full
      omega

/-- A sample fed appends to EBUF or leaves it. -/
theorem ebuf_isPrefix_feedSample (f : Fcch) (x : Cplx) : f.ebuf <+: (f.feedSample x).ebuf := by
  rw [Fcch.feedSample]
  split
  · exact ⟨_, rfl⟩
  · exact ⟨[], List.append_nil _⟩

theorem ebuf_isPrefix_feedAll (f : Fcch) (xs : List Cplx) : f.ebuf <+: (f.feedAll xs).ebuf := by
  induction xs generalizing f with
  | nil => exact ⟨[], List.append_nil _⟩
  | cons x xs ih => exact (ebuf_isPrefix_feedSample f x).trans (ih _)

/-- Settles O41: no more errors are to come from the 16 + D samples left, so `feedAll_errors` counts those made. -/
theorem feedCountsErrors : Obligations.FeedCountsErrors := by
  intro f xs short
  have left := feedAll_xbuf_length (f := f) xs (by omega)
  have made := feedAll_errors f xs 0
  have noneLeft : (f.feedAll xs).errorsFor 0 = 0 := by
    rw [Fcch.errorsFor, feedAll_d]
    omega
  rw [noneLeft, Fcch.errorsFor] at made
  exact ⟨made, left, ebuf_isPrefix_feedAll f xs⟩

/-! ## Frequency detection and the error dump (R292, R294) -/

theorem freqDetectEffect_eq {s : State} {x : Nat → Cplx} (hx : CplxOn s.mem (s.argN 0) (List.range (s.argN 1)) x) :
    freqDetectEffect s = .ok
      (let r := freqDetect s.cfg s.sampleRate x 0 (s.argN 1)
       { results := [(0, r.freq), (1, r.pm), (2, r.maxI)] }) := by
  have slice : ∀ k < 0 + s.argN 1, cread s.mem (s.argN 0) k = .ok (x k) := by
    rw [Nat.zero_add]
    exact cread_of_cplxOn hx
  rw [freqDetectEffect, freqDetectF_eq slice, Rd.ok_bind]

/-- Settles O46: the whole vector is the slice of `freqDetectF_eq`. -/
theorem frequencyDetection : Obligations.FrequencyDetection :=
  ⟨reportsErrors_of_ne_viterbiSoft nofun, fun _ _ hc hx =>
    completes_of_error_none nofun hc (freqDetectEffect_eq hx) (Nat.zero_le 1)⟩

/-- Settles O44: the command reads no DMEM, and its effect stores EBUF itself. -/
theorem errorDump : Obligations.ErrorDump :=
  ⟨reportsErrors_of_ne_viterbiSoft nofun, fun _ hc => completes_of_error_none nofun hc rfl (le_refl 1)⟩

/-! ## `FCCH_FEED` (R290) -/

/-- The whole effect of feeding the samples `xs`. -/
def feedEffect (s : State) (xs : List Cplx) : Effect :=
  { results := [(0, natWord (s.fcch.errorsFor (s.argN 1)))], fcch := some (s.fcch.feedAll xs) }

theorem fcchFeedEffect_of_read {s : State} {xs : List Cplx} (h : creadAll s.mem (s.argN 0) (s.argN 1) = .ok xs) :
    effectOf .fcchFeed s = .ok (feedEffect s xs) := by
  change fcchFeedEffect s = _
  rw [fcchFeedEffect, h]
  rfl

/-- The conditions of R290, as one conjunction. -/
theorem error_fcchFeed_eq_none {s : State} :
    Spec.error .fcchFeed s = none ↔ 2 ∣ s.argN 0 ∧ s.argN 0 + 2 * s.argN 1 ≤ s.cfg.dmemWords
      ∧ 17 + s.fcch.d.toNat ≤ s.cfg.xCap ∧ s.fcch.ebuf.length + s.fcch.errorsFor (s.argN 1) ≤ s.cfg.eCap := by
  simp [error_eq_none, checkList, even, fitsC, fits, Fcch.errorsFor]

theorem checksOf_fcchFeed (s : State) : checksOf .fcchFeed s = .ok (Spec.error .fcchFeed s) :=
  checksOf_eq_error (i := .fcchFeed) nofun s

/-- Settles O40: the samples are read in order, and feeding them is the fold of the Spec. -/
theorem feedDrivesThePredictor : Obligations.FeedDrivesThePredictor := by
  refine ⟨reportsErrors_of_ne_viterbiSoft nofun, fun s x hc hx => ?_⟩
  rw [← feedAll_eq_foldl]
  have passed : checksOf .fcchFeed s = .ok none := (checksOf_fcchFeed s).trans (congrArg Except.ok hc)
  exact completes_of_effect passed (fcchFeedEffect_of_read (creadAll_eq hx)) .nil

/-! ## Feeding in two parts (R290) -/

/-- A feed that ends without an error has passed its checks. -/
theorem error_eq_none_of_fcchFeed {s t : State} (h : exec .fcchFeed s = .next t) (ok : t.status.err = false) :
    Spec.error .fcchFeed s = none := by
  rcases exec_next h with ⟨c, -, rfl⟩ | ⟨e, passed, -, -⟩
  · cases ok
  · exact Except.ok.inj ((checksOf_fcchFeed s).symm.trans passed)

/-- A feed whose checks pass and that answers a next state has fed the samples it read. -/
theorem fcchFeed_next {s t : State} (h : exec .fcchFeed s = .next t) (hc : Spec.error .fcchFeed s = none) :
    ∃ xs, creadAll s.mem (s.argN 0) (s.argN 1) = .ok xs ∧ t = s.apply (feedEffect s xs) := by
  rcases exec_next h with ⟨c, failed, -⟩ | ⟨e, -, he, rfl⟩
  · rw [checksOf_fcchFeed, hc] at failed
    cases failed
  · obtain ⟨xs, read, he⟩ := Rd.bind_ok he
    exact ⟨xs, read, congrArg s.apply (Except.ok.inj he).symm⟩

theorem cread_shift (m : Memory) (a n k : Nat) : cread m (a + 2 * n) k = cread m a (n + k) := by
  rw [cread, cread, Nat.mul_add, ← Nat.add_assoc]

/-- A vector read whole is its first part followed by the rest (R101). -/
theorem creadAll_append {m : Memory} {a n k : Nat} {xs ys zs : List Cplx} (first : creadAll m a n = .ok xs)
    (rest : creadAll m (a + 2 * n) k = .ok ys) (whole : creadAll m a (n + k) = .ok zs) : zs = xs ++ ys := by
  obtain ⟨hx, atX⟩ := tabRd_inv first
  obtain ⟨hy, atY⟩ := tabRd_inv rest
  obtain ⟨hz, atZ⟩ := tabRd_inv whole
  refine List.ext_getElem (by rw [List.length_append, hx, hy, hz]) fun i inZ inXY => Except.ok.inj (ε := Nat) ?_
  rw [← atZ i inZ, Nat.zero_add]
  rcases Nat.lt_or_ge i xs.length with inX | inY
  · rw [List.getElem_append_left inX, ← atX i inX, Nat.zero_add]
  · rw [List.getElem_append_right inY, ← atY, Nat.zero_add, cread_shift, ← hx, Nat.add_sub_cancel' inY]

/-- The state with the operands of a detector command: address and length of the vector (R144). -/
def withVector (s : State) (addr len : Nat) : State :=
  { s with args := (s.args.set 0 (BitVec.ofNat 32 addr)).set 1 (BitVec.ofNat 32 len) }

theorem withVector_argN {addr len : Nat} (ha : addr < 2 ^ 32) (hl : len < 2 ^ 32) (s : State) :
    (withVector s addr len).argN 0 = addr ∧ (withVector s addr len).argN 1 = len := by
  simpa [withVector, State.argN, State.arg] using And.intro ha hl

/-- The checks of a feed of the vector of `len` samples at `addr`. -/
theorem error_fcchFeed_withVector {s : State} {addr len : Nat} (ha : addr < 2 ^ 32) (hl : len < 2 ^ 32) :
    Spec.error .fcchFeed (withVector s addr len) = none ↔ 2 ∣ addr ∧ addr + 2 * len ≤ s.cfg.dmemWords
      ∧ 17 + s.fcch.d.toNat ≤ s.cfg.xCap ∧ s.fcch.ebuf.length + s.fcch.errorsFor len ≤ s.cfg.eCap := by
  obtain ⟨addrIs, lenIs⟩ := withVector_argN ha hl s
  rw [error_fcchFeed_eq_none, addrIs, lenIs]
  rfl

/-- What a feed of the vector of `len` samples at `addr` leaves, when its checks pass. -/
theorem fcchFeed_withVector_next {s t : State} {addr len : Nat} (ha : addr < 2 ^ 32) (hl : len < 2 ^ 32)
    (h : exec .fcchFeed (withVector s addr len) = .next t) (hc : Spec.error .fcchFeed (withVector s addr len) = none) :
    ∃ xs, creadAll s.mem addr len = .ok xs ∧ t.fcch = s.fcch.feedAll xs ∧ t.mem = s.mem ∧ t.cfg = s.cfg
      ∧ t.status.err = false := by
  obtain ⟨addrIs, lenIs⟩ := withVector_argN ha hl s
  obtain ⟨xs, read, rfl⟩ := fcchFeed_next h hc
  rw [addrIs, lenIs] at read
  exact ⟨xs, read, rfl, rfl, rfl, rfl⟩

/-- More samples make at least as many errors. -/
theorem errorsFor_mono (f : Fcch) {n k : Nat} (h : n ≤ k) : f.errorsFor n ≤ f.errorsFor k :=
  Nat.sub_le_sub_right (Nat.add_le_add_left h _) _

/-- Settles O42: by `feedAll_errors` the capacity check of the second part is the check of the whole, and by `creadAll_append`
the samples fed are the same. -/
theorem feedInTwoParts : Obligations.FeedInTwoParts := by
  intro s t u v a n m inside small _ at_ whole ok first second
  change exec .fcchFeed (withVector s a (n + m)) = .next t at whole
  change exec .fcchFeed (withVector s a n) = .next u at first
  change exec .fcchFeed (withVector u (a + 2 * n) m) = .next v at second
  have wholePassed := error_eq_none_of_fcchFeed whole ok
  obtain ⟨zs, readWhole, tFcch, -⟩ := fcchFeed_withVector_next (by omega) (by omega) whole wholePassed
  obtain ⟨aligned, range, window, room⟩ := (error_fcchFeed_withVector (by omega) (by omega)).1 wholePassed
  have fewer := errorsFor_mono s.fcch (Nat.le_add_right n m)
  have firstPassed : Spec.error .fcchFeed (withVector s a n) = none :=
    (error_fcchFeed_withVector (by omega) (by omega)).2 ⟨aligned, by omega, window, by omega⟩
  obtain ⟨xs, readFirst, uFcch, uMem, uCfg, -⟩ :=
    fcchFeed_withVector_next (by omega) (by omega) first firstPassed
  have errors := feedAll_errors s.fcch xs m
  rw [tabRd_length readFirst] at errors
  have secondPassed : Spec.error .fcchFeed (withVector u (a + 2 * n) m) = none := by
    rw [error_fcchFeed_withVector (by omega) (by omega), uFcch, uCfg, feedAll_d, errors]
    exact ⟨by omega, by omega, window, room⟩
  obtain ⟨ys, readSecond, vFcch, -, -, done⟩ :=
    fcchFeed_withVector_next (by omega) (by omega) second secondPassed
  rw [uMem] at readSecond
  have samples : zs = xs ++ ys := creadAll_append readFirst readSecond readWhole
  exact ⟨by rw [vFcch, uFcch, tFcch, samples, feedAll_append], done⟩

end Sys2Proof.Proofs

/-!
PROOFS. `FCCH_SCAN` is `FCCH_FLUSH`, `FCCH_FEED`, `FCCH_WALK`, `FCCH_FLUSH` (42_fcch_detector.md R286, R293): each of the four passes
its checks in the state it finds, and together they write what the scan writes in one update.
-/
namespace Sys2Proof.Proofs

open Sys2Proof.Machine Sys2Proof.Spec

/-! ## What the walk and the scan write (R284, R291, R293) -/

/-- The whole effect of a walk over the errors of `f`, of the samples `x`. -/
def walkEffect (s : State) (f : Fcch) (x : Nat → Cplx) : Effect :=
  { results := walkResults f (s.argN 1) (walkOf s f x).2
    td := some (walkTd f (walkOf s f x).1)
    detect := (walkOf s f x).2.isSome }

theorem fcchWalkEffect_eq {s : State} {x : Nat → Cplx} (hx : CplxOn s.mem (s.argN 0) (List.range (s.argN 1)) x)
    (samples : s.fcch.ebuf.length ≤ s.argN 1) : effectOf .fcchWalk s = .ok (walkEffect s s.fcch x) := by
  change fcchWalkEffect s = _
  rw [fcchWalkEffect, walkF_eq hx samples]
  rfl

/-- A scan is its walk over the errors it has fed, with both buffers emptied. -/
theorem fcchScanEffect_eq {s : State} {x : Nat → Cplx} (hx : CplxOn s.mem (s.argN 0) (List.range (s.argN 1)) x)
    {fed : Fcch} (feeds : fed = s.fcch.flush.feedAll ((List.range (s.argN 1)).map x)) (samples : fed.ebuf.length ≤ s.argN 1) :
    effectOf .fcchScan s = .ok { walkEffect s fed x with fcch := some fed.flush } := by
  change fcchScanEffect s = _
  simp only [fcchScanEffect, creadAll_eq hx, Rd.ok_bind, ← feeds, walkF_eq hx samples]
  rfl

/-! ## The four commands, each as the state it leaves -/

/-- The state after `FCCH_FLUSH` (R289). -/
def afterFlush (s : State) : State := s.apply { fcch := some s.fcch.flush }

/-- The state after an `FCCH_FEED` of the samples `xs` (R290). -/
def afterFeed (s : State) (xs : List Cplx) : State := s.apply (feedEffect s xs)

/-- The state after an `FCCH_WALK` over the samples `x` (R291). -/
def afterWalk (s : State) (x : Nat → Cplx) : State := s.apply (walkEffect s s.fcch x)

theorem exec_fcchFlush (s : State) : exec .fcchFlush s = .next (afterFlush s) := rfl

/-- A command that passes its checks answers its whole effect. -/
theorem exec_of_effect {i : Instr} {s : State} {e : Effect} (checks : checksOf i s = .ok (Spec.error i s))
    (hc : Spec.error i s = none) (he : effectOf i s = .ok e) : exec i s = .next (s.apply e) := by
  rw [exec_eq_perform, perform_of_ok (checks.trans (congrArg Except.ok hc)) he]

theorem exec_fcchFeed {s : State} {x : Nat → Cplx} (hc : Spec.error .fcchFeed s = none)
    (hx : CplxOn s.mem (s.argN 0) (List.range (s.argN 1)) x) :
    exec .fcchFeed s = .next (afterFeed s ((List.range (s.argN 1)).map x)) :=
  exec_of_effect (checksOf_fcchFeed s) hc (fcchFeedEffect_of_read (creadAll_eq hx))

theorem exec_fcchWalk {s : State} {x : Nat → Cplx} (hc : Spec.error .fcchWalk s = none)
    (hx : CplxOn s.mem (s.argN 0) (List.range (s.argN 1)) x) : exec .fcchWalk s = .next (afterWalk s x) :=
  exec_of_effect (checksOf_fcchWalk s) hc (fcchWalkEffect_eq hx (ebuf_length_le_of_fcchWalk hc))

/-! ## The checks of the scan (R293) -/

/-- The errors that a scan feeds are at most its samples: it starts with both buffers empty. -/
theorem ebuf_length_le_of_flush (f : Fcch) (xs : List Cplx) : (f.flush.feedAll xs).ebuf.length ≤ xs.length := by
  have made := feedAll_ebuf_length_le xs f.flush
  have empty : f.flush.ebuf.length = 0 ∧ f.flush.xbuf.length = 0 := ⟨rfl, rfl⟩
  rw [Fcch.errorsFor] at made
  omega

/-- The conditions of R293, as one conjunction. -/
theorem error_fcchScan_eq_none {s : State} :
    Spec.error .fcchScan s = none ↔ Spec.rateOk s = true ∧ 2 ∣ s.argN 0 ∧ s.argN 0 + 2 * s.argN 1 ≤ s.cfg.dmemWords
      ∧ (17 + s.fcch.d.toNat ≤ s.cfg.xCap ∧ s.argN 1 - (16 + s.fcch.d.toNat) ≤ s.cfg.eCap) ∧ burst s < s.cfg.fftSize := by
  simp [error_eq_none, checkList, even, fitsC, fits]

/-- The conditions of R291, as one conjunction. -/
theorem error_fcchWalk_eq_none {s : State} :
    Spec.error .fcchWalk s = none ↔ Spec.rateOk s = true ∧ s.fcch.ebuf.length ≤ s.argN 1 ∧ 2 ∣ s.argN 0
      ∧ s.argN 0 + 2 * s.argN 1 ≤ s.cfg.dmemWords ∧ burst s < s.cfg.fftSize := by
  simp [error_eq_none, checkList, even, fitsC, fits]

/-- The checks of a scan are those of its feed, made before the flush. -/
theorem error_fcchFeed_of_scan {s : State} (h : Spec.error .fcchScan s = none) :
    Spec.error .fcchFeed (afterFlush s) = none := by
  obtain ⟨-, aligned, range, ⟨window, room⟩, -⟩ := error_fcchScan_eq_none.1 h
  have errors : (afterFlush s).fcch.ebuf.length + (afterFlush s).fcch.errorsFor (s.argN 1)
      = s.argN 1 - (16 + s.fcch.d.toNat) := by
    change 0 + (0 + s.argN 1 - (16 + s.fcch.d.toNat)) = _
    omega
  exact error_fcchFeed_eq_none.2 ⟨aligned, range, window, errors.trans_le room⟩

/-- The checks of a scan, and the errors it feeds, are those of its walk. -/
theorem error_fcchWalk_of_scan {s : State} {xs : List Cplx} (h : Spec.error .fcchScan s = none)
    (count : xs.length = s.argN 1) : Spec.error .fcchWalk (afterFeed (afterFlush s) xs) = none := by
  obtain ⟨rate, aligned, range, -, slice⟩ := error_fcchScan_eq_none.1 h
  exact error_fcchWalk_eq_none.2 ⟨rate, count ▸ ebuf_length_le_of_flush s.fcch xs, aligned, range, slice⟩

/-! ## The four updates are one -/

/-- An effect that stores no vector changes the result registers, the detectors, the pulse cache and STATUS only. -/
theorem apply_of_no_stores (s : State) {e : Effect} (h : e.stores = []) :
    s.apply e = { s with
      res := e.results.foldl (fun r v => r.set v.1 v.2) s.res
      fcch := e.fcch.getD s.fcch
      td := e.td.getD s.td
      pulse := e.pulse.getD s.pulse
      status := s.status.completeOk e.detect } := by
  have results (rs : List (Fin 8 × Word)) (t : State) :
      t.setResults rs = { t with res := rs.foldl (fun r v => r.set v.1 v.2) t.res } := by
    induction rs generalizing t with
    | nil => rfl
    | cons v rs ih => exact ih _
  rw [State.apply, h, results]
  rfl

/-- A walk writes RES0, so what a feed left there is gone. -/
theorem walkResults_overwrite (f : Fcch) (n : Nat) (d : Option Detection) (r : Vector Word 8) (w : Word) :
    (walkResults f n d).foldl (fun r v => r.set v.1 v.2) (r.set 0 w)
      = (walkResults f n d).foldl (fun r v => r.set v.1 v.2) r := by
  cases d <;> simp [walkResults, Vector.set_set]

/-- The state after a scan is the state after flush, feed, walk and flush, with the STATUS of the walk: between them they write
RES0 twice and the detector three times, and the last write stays. -/
theorem scan_apply_eq (s : State) (xs : List Cplx) (x : Nat → Cplx) {fed : Fcch} (feeds : fed = s.fcch.flush.feedAll xs) :
    s.apply { walkEffect s fed x with fcch := some fed.flush }
      = { afterFlush (afterWalk (afterFeed (afterFlush s) xs) x) with
          status := (afterWalk (afterFeed (afterFlush s) xs) x).status } := by
  subst feeds
  have walk : walkEffect (afterFeed (afterFlush s) xs) (afterFeed (afterFlush s) xs).fcch x
      = walkEffect s (s.fcch.flush.feedAll xs) x := rfl
  rw [afterWalk, walk, apply_of_no_stores s rfl, apply_of_no_stores (afterFeed (afterFlush s) xs) rfl]
  simp only [walkEffect]
  rw [← walkResults_overwrite _ _ _ s.res (natWord ((afterFlush s).fcch.errorsFor (s.argN 1)))]
  rfl

/-- Settles O45: the scan's checks are those of the feed and of the walk in the states they find, and its effect is theirs. -/
theorem scanIsFlushFeedWalkFlush : Obligations.ScanIsFlushFeedWalkFlush := by
  refine ⟨reportsErrors_of_ne_viterbiSoft nofun, fun s x hc hx => ?_⟩
  have count : ((List.range (s.argN 1)).map x).length = s.argN 1 := by simp
  have feed : exec .fcchFeed (afterFlush s) = .next (afterFeed (afterFlush s) ((List.range (s.argN 1)).map x)) :=
    exec_fcchFeed (error_fcchFeed_of_scan hc) hx
  have walk := exec_fcchWalk (error_fcchWalk_of_scan hc count) hx
  have scan := exec_of_effect (checksOf_eq_error (i := .fcchScan) nofun s) hc
    (fcchScanEffect_eq hx rfl ((ebuf_length_le_of_flush s.fcch _).trans_eq count))
  rw [scan_apply_eq s _ x rfl] at scan
  exact ⟨_, _, _, _, exec_fcchFlush s, feed, rfl, walk, rfl, exec_fcchFlush _, scan, rfl, rfl, rfl⟩

end Sys2Proof.Proofs

/-!
PROOFS. `CHANRESP` (43_channel_dfe.md R331): the windows the model counts through are the valid window starts of the Spec, and both
searches over them take the same windows.
-/
namespace Sys2Proof.Proofs

open Sys2Proof.Machine Sys2Proof.Spec

/-! ## The valid windows -/

/-- The starts the model searches, in order. -/
abbrev windowsOf (s : State) : List Nat := List.range' s.chanFirst.toNat (s.chanLast - s.chanFirst + 1).toNat

/-- The windows searched, in the order they are searched, are the valid window starts: both lists rise, and they have the same
members (R331). -/
theorem windowStarts_eq_windowsOf (s : State) :
    windowStarts (F32.roundInt (s.argF 3)) (s.argN 2) (s.argN 1) = (windowsOf s).map Nat.cast := by
  have rising : (windowStarts (F32.roundInt (s.argF 3)) (s.argN 2) (s.argN 1)).Pairwise (· < ·) :=
    (List.pairwise_map.2 (List.pairwise_lt_range.imp fun lt => by omega)).filter _
  have counted : ((windowsOf s).map (Nat.cast : Nat → Int)).Pairwise (· < ·) :=
    List.pairwise_map.2 (List.Pairwise.imp Int.ofNat_lt.2 List.pairwise_lt_range')
  refine rising.eq_of_mem_iff counted fun st => ⟨fun valid => ?_, fun searched => ?_⟩
  · obtain ⟨first, -⟩ := mem_windowStarts.1 valid
    obtain ⟨n, rfl⟩ := Int.eq_ofNat_of_zero_le ((le_max_right _ _).trans first)
    exact List.mem_map_of_mem ((mem_windows s n).2 valid)
  · obtain ⟨n, hn, rfl⟩ := List.mem_map.1 searched
    exact (mem_windows s n).1 hn

/-- Where the checks pass a window is searched. -/
theorem chanFirst_le_chanLast {s : State} (hc : Spec.error .chanresp s = none) : s.chanFirst ≤ s.chanLast := by
  have check := error_eq_none.1 hc (decide (1 ≤ s.argN 2)
    && !(windowStarts (F32.roundInt (s.argF 3)) (s.argN 2) (s.argN 1)).isEmpty, .length) (by simp [checkList])
  obtain ⟨-, window⟩ := Bool.and_eq_true_iff.1 check
  rwa [windowStarts_nonempty, decide_eq_true_iff] at window

/-- A window that is searched ends inside the vector (R331). -/
theorem window_inside {s : State} {st : Nat} (h : st ∈ windowsOf s) : st + s.argN 2 ≤ s.argN 1 := by
  obtain ⟨-, last⟩ := mem_windowStarts.1 ((mem_windows s st).1 h)
  omega

/-! ## The search -/

/-- One turn of the search: the window at `st` is taken when its energy exceeds 0.95 × the energy last taken (R331). -/
def takeWindow (x : Nat → Cplx) (c : Nat) (best : Nat × F32) (st : Nat) : Nat × F32 :=
  let e := energy x ((List.range c).map (st + ·))
  if F32.lt (F32.mul 0x3F733333#32 best.2) e then (st, e) else best

/-- The model's search reads its windows only. -/
theorem bestWindow_eq_foldl {rd : Nat → Rd Cplx} {x : Nat → Cplx} {c first count : Nat}
    (h : ∀ st ∈ List.range' first count, ∀ k < c, rd (st + k) = .ok (x (st + k))) :
    Machine.bestWindow rd c first count
      = .ok ((List.range' first count).foldl (takeWindow x c) (first, F32.minusOne)) := by
  refine foldRd_ok fun st acc lo hi => ?_
  have elements : ∀ k ∈ (List.range c).map (st + ·), rd k = .ok (x k) := by
    intro k hk
    obtain ⟨j, hj, rfl⟩ := List.mem_map.1 hk
    exact h st (List.mem_range'_1.2 ⟨lo, hi⟩) j (List.mem_range.1 hj)
  rw [energyOver_eq elements, Rd.ok_bind, takeWindow]
  exact (apply_ite Except.ok _ _ _).symm

/-- The search of the Spec over natural starts takes the same windows. -/
theorem bestWindow_map_cast (x : Nat → Cplx) (c first : Nat) (starts : List Nat) :
    Spec.bestWindow x c (starts.map Nat.cast) first
      = (starts.foldl (takeWindow x c) (first, F32.minusOne)).map Nat.cast id := by
  rw [Spec.bestWindow, List.foldl_map]
  refine List.foldl_hom (init := (first, F32.minusOne)) (Prod.map Nat.cast id) fun best st => ?_
  simp only [takeWindow, Prod.map_snd, id_eq, Int.toNat_natCast]
  split <;> rfl

/-! ## `CHANRESP` -/

theorem chanrespEffect_eq {s : State} {x : Nat → Cplx} (hc : Spec.error .chanresp s = none)
    (hx : CplxOn s.mem (s.argN 0) (List.range (s.argN 1)) x) :
    chanrespEffect s = .ok
      (let r := F32.roundInt (s.argF 3)
       let c := s.argN 2
       let best := Spec.bestWindow x c (windowStarts r c (s.argN 1)) (max (r - c + 1) 0)
       { stores := [(s.argN 6, cplxVec c fun k => (x (best.1.toNat + k)).div ⟨s.argF 4, s.argF 5⟩)]
         results := [(0, BitVec.ofInt 32 best.1), (1, best.2)] }) := by
  have elements := cread_of_cplxOn hx
  have window := chanFirst_le_chanLast hc
  have first : max (F32.roundInt (s.argF 3) - s.argN 2 + 1) 0 = (s.chanFirst.toNat : Int) :=
    (Int.toNat_of_nonneg (le_max_right _ _)).symm
  have search := bestWindow_eq_foldl (c := s.argN 2) fun st (hst : st ∈ windowsOf s) k hk =>
    elements (st + k) (by have := window_inside hst; omega)
  have inside := window_inside (bestWindow_mem search (by omega))
  simp only
  rw [windowStarts_eq_windowsOf, first, bestWindow_map_cast, chanrespEffect, search, Rd.ok_bind]
  generalize (windowsOf s).foldl _ _ = best at inside ⊢
  simp only
  rw [mappedVec_eq fun k hk => elements (best.1 + k) (by omega), Rd.ok_bind, cplxWords_map_range]
  rfl

/-- Settles O47: the windows by `windowStarts_eq_windowsOf`, the search by `bestWindow_eq_foldl`. -/
theorem channelResponse : Obligations.ChannelResponse :=
  ⟨reportsErrors_of_ne_viterbiSoft nofun, fun _ _ hc hx =>
    completes_of_error_none nofun hc (chanrespEffect_eq hc hx) (le_refl 1)⟩

end Sys2Proof.Proofs

/-!
PROOFS. `DESIGN_DFE` (43_channel_dfe.md R332, R333): before turn `i` of the factorization the row vectors of the model hold elements
0 to nu of the Spec's `designRows`, and the columns written are those of `designL`; back-substitution then builds `designV` from
its end.
-/
namespace Sys2Proof.Proofs

open Sys2Proof.Machine Sys2Proof.Spec

/-! ## Elements and words of lists -/

@[simp] theorem cplxVec_length (n : Nat) (x : Nat → Cplx) : (cplxVec n x).length = 2 * n := by
  rw [← cplxWords_map_range, cplxWords_length, List.length_map, List.length_range]

/-- An element of a list given by its indices. -/
theorem el_map_range {n j : Nat} (f : Nat → Cplx) (h : j < n) : el ((List.range n).map f) j = f j := by
  simp [el, h]

/-- Dividing by a real, element by element. -/
theorem el_map_divReal {v : List Cplx} {j : Nat} (h : j < v.length) (c : F32) :
    el (v.map fun z => z.divReal c) j = (el v j).divReal c := by
  simp [el, h]

/-- The left shift that fills the last element with zero (R332 step 3). -/
theorem el_shift {n j : Nat} (f : Nat → Cplx) (h : j < n + 1) :
    el (((List.range (n + 1)).map f).tail ++ [Cplx.zero]) j = if j < n then f (j + 1) else Cplx.zero := by
  have tail : ((List.range (n + 1)).map f).tail = (List.range n).map fun k => f (k + 1) := by
    rw [List.range_succ_eq_map, List.map_cons, List.tail_cons, List.map_map]
    rfl
  rw [tail, el, List.getD_eq_getElem?_getD, List.getElem?_append]
  simp only [List.length_map, List.length_range]
  split
  next inside => simp [inside]
  next last =>
    obtain rfl : j = n := by omega
    simp

/-! ## The factorization (R332) -/

section
variable (h : Nat → Cplx) (nu : Nat) (snr : F32)

/-- The entries of column `i` of L that the loop writes: its rows i to i + nu. -/
def designColumn (i : Nat) : List Cplx := (List.range (nu + 1)).map fun j => designL h nu snr i (i + j)

/-- The variables of the loop before turn `i`. -/
structure BeforeTurn (i : Nat) (t : DesignState) : Prop where
  gl : ∀ j ≤ nu, el t.gl j = (designRows h nu snr i).1 j
  gr : ∀ j ≤ nu, el t.gr j = (designRows h nu snr i).2 j
  cols : t.cols = (List.range i).map (designColumn h nu snr)

variable {h nu snr} {i : Nat} {t : DesignState}

theorem beforeTurn_start : BeforeTurn h nu snr 0 (DesignState.start ((List.range (nu + 1)).map h) snr) where
  gl j hj := by
    cases j with
    | zero => rfl
    | succ j =>
      have inside : j < nu := hj
      simp [DesignState.start, designRows, el, inside, Cplx.zero]
  gr j hj := by
    rw [DesignState.start, List.map_map, el_map_range _ (by omega)]
    rfl
  cols := rfl

/-- Step 1: d. -/
theorem BeforeTurn.pivot_eq (ht : BeforeTurn h nu snr i t) : t.pivot = designPivot h nu snr i := by
  rw [DesignState.pivot, ht.gl 0 (Nat.zero_le _), ht.gr 0 (Nat.zero_le _)]
  rfl

/-- Step 2: the column of L. -/
theorem BeforeTurn.column_eq (ht : BeforeTurn h nu snr i t) : t.column nu = designColumn h nu snr i := by
  refine List.map_congr_left fun j hj => ?_
  have inside : j ≤ nu := Nat.lt_succ_iff.1 (List.mem_range.1 hj)
  rw [ht.pivot_eq, ht.gl j inside, ht.gr j inside, ht.gl 0 (Nat.zero_le _), ht.gr 0 (Nat.zero_le _), designL,
    if_pos (by omega), Nat.add_sub_cancel_left]

/-- Step 3: the rows after the rotation, the shift and the division. -/
theorem BeforeTurn.rotatedRows_eq (ht : BeforeTurn h nu snr i t) {j : Nat} (hj : j ≤ nu) :
    el (t.rotatedRows nu).1 j = (designRows h nu snr (i + 1)).1 j
      ∧ el (t.rotatedRows nu).2 j = (designRows h nu snr (i + 1)).2 j := by
  constructor
  · rw [DesignState.rotatedRows, el_map_divReal (by simp; omega), el_map_range _ (by omega)]
    simp only [ht.gl _ hj, ht.gr _ hj, ht.gl 0 (Nat.zero_le _), ht.gr 0 (Nat.zero_le _)]
    rfl
  · rw [DesignState.rotatedRows, el_map_divReal (by simp; omega), el_shift _ (by omega), designRows]
    simp only [ht.gl 0 (Nat.zero_le _), ht.gr 0 (Nat.zero_le _)]
    split
    next inside =>
      rw [ht.gl _ inside, ht.gr _ inside]
      rfl
    next => rfl

/-- A turn that is not the last. -/
theorem BeforeTurn.turn (ht : BeforeTurn h nu snr i t) : BeforeTurn h nu snr (i + 1) (t.turn nu false) where
  gl j hj := (ht.rotatedRows_eq hj).1
  gr j hj := (ht.rotatedRows_eq hj).2
  cols := by
    rw [List.range_succ, List.map_append, ← ht.cols, List.map_singleton, ← ht.column_eq]
    rfl

/-- What the loop leaves after turn `i` and `n` more: d of the last turn and every column. -/
theorem BeforeTurn.turns_eq (ht : BeforeTurn h nu snr i t) (n : Nat) :
    (DesignState.turns nu (n + 1) t).d = designPivot h nu snr (i + n)
      ∧ (DesignState.turns nu (n + 1) t).cols = (List.range (i + n + 1)).map (designColumn h nu snr) := by
  induction n generalizing i t with
  | zero =>
    refine ⟨ht.pivot_eq, ?_⟩
    rw [List.range_succ, List.map_append, Nat.add_zero, ← ht.cols, List.map_singleton, ← ht.column_eq]
    rfl
  | succ n ih =>
    have rest := ih ht.turn
    rwa [Nat.add_right_comm] at rest

/-- L as the model reads it, in the columns written. -/
theorem lEntry_designColumn {n col : Nat} (hcol : col < n) (row : Nat) :
    lEntry ((List.range n).map (designColumn h nu snr)) col row = designL h nu snr col row := by
  have column : ((List.range n).map (designColumn h nu snr)).getD col [] = designColumn h nu snr col := by simp [hcol]
  rw [lEntry, column]
  by_cases below : col ≤ row
  · obtain ⟨j, rfl⟩ := Nat.exists_eq_add_of_le below
    rw [if_pos below, Nat.add_sub_cancel_left]
    by_cases band : j < nu + 1
    · exact el_map_range _ band
    · rw [designL, if_neg (by omega), el, designColumn, List.getD_eq_default _ _ (by simpa using band)]
      rfl
  · rw [if_neg below, designL, if_neg fun inside => below inside.1]
    rfl

/-! ## Back-substitution (R332) -/

@[simp] theorem designV_length (nf m : Nat) : (designV h nu snr nf m).length = m + 1 := by
  induction m with
  | zero => rfl
  | succ m ih => rw [designV, List.length_cons, ih]

/-- A map over a list with its indices is a map over its indices. -/
theorem mapIdx_eq_map_range (v : List Cplx) (f : Nat → Cplx → Cplx) :
    v.mapIdx f = (List.range v.length).map fun q => f q (v.getD q ⟨0#32, 0#32⟩) := by
  refine List.ext_getElem (by simp) fun q hq _ => ?_
  rw [List.length_mapIdx] at hq
  rw [List.getElem_mapIdx, List.getElem_map, List.getElem_range, List.getD_eq_getElem _ _ hq]

/-- From the last `m + 1` elements of v, `k` turns find the `k` before them. -/
theorem backSubst_eq {cols : List (List Cplx)} {nf : Nat}
    (hL : ∀ col < nf, ∀ row, lEntry cols col row = designL h nu snr col row) (k m : Nat) (hk : k + m + 1 = nf) :
    backSubst cols k (designV h nu snr nf m) = designV h nu snr nf (k + m) := by
  induction k generalizing m with
  | zero => rw [backSubst, Nat.zero_add]
  | succ k ih =>
    have place : nf - 2 - m = k := by omega
    have sum : ((designV h nu snr nf m).mapIdx fun q vj => (lEntry cols k (k + 1 + q)).mul vj).foldl Cplx.add Cplx.zero
        = sumC ((List.range (m + 1)).map fun q =>
            (designL h nu snr k (k + 1 + q)).mul ((designV h nu snr nf m).getD q ⟨0#32, 0#32⟩)) := by
      simp only [mapIdx_eq_map_range, designV_length, hL k (by omega)]
      rfl
    have earlier : (sumC ((List.range (m + 1)).map fun q =>
          (designL h nu snr k (k + 1 + q)).mul ((designV h nu snr nf m).getD q ⟨0#32, 0#32⟩))).neg
            :: designV h nu snr nf m = designV h nu snr nf (m + 1) := by
      rw [designV, place]
    rw [backSubst, sum, earlier, ih (m + 1) (by omega), Nat.add_right_comm, Nat.add_assoc]

/-! ## Both filters and d (R332) -/

/-- `DesignF` of a channel response of nu + 1 elements, with `nf` taps. -/
theorem designF_eq {nf : Nat} (hnf : 1 ≤ nf) :
    designF ((List.range (nu + 1)).map h) snr nf
      = { ff := (List.range nf).map (designFf h nu snr nf)
          fb := (List.range nu).map (designFb h nu snr nf)
          d := designPivot h nu snr (nf - 1) } := by
  obtain ⟨n, rfl⟩ := Nat.exists_eq_add_of_le' hnf
  obtain ⟨pivot, columns⟩ := (beforeTurn_start (h := h) (nu := nu) (snr := snr)).turns_eq n
  rw [Nat.zero_add] at pivot columns
  have entries : ∀ col < n + 1, ∀ row,
      lEntry ((List.range (n + 1)).map (designColumn h nu snr)) col row = designL h nu snr col row :=
    fun col hcol row => lEntry_designColumn hcol row
  have solved : backSubst ((List.range (n + 1)).map (designColumn h nu snr)) n [Cplx.ofReal F32.one]
      = designV h nu snr (n + 1) n := backSubst_eq entries n 0 rfl
  rw [designF]
  simp only [List.length_map, List.length_range, Nat.add_sub_cancel, pivot, columns, solved, DesignResult.mk.injEq, and_true]
  constructor
  · refine List.map_congr_left fun i _ => ?_
    rw [designFf, sumC, List.foldl_map, Nat.add_sub_cancel]
    refine congrArg (Cplx.divReal · _) (List.foldl_ext _ _ _ fun acc k hk => ?_)
    have inside : k < nu + 1 := (List.mem_range.1 hk).trans_le (by omega)
    rw [el_map_range h inside]
    rfl
  · exact List.map_congr_left fun j _ => by rw [entries n (by omega)]; rfl

end

/-! ## `DESIGN_DFE` -/

section
variable {s : State}

/-- The bounds and the separation of the destinations that the checks of `DESIGN_DFE` give (R333). -/
theorem checks_of_designDfe (hc : Spec.error .designDfe s = none) :
    2 ≤ s.argN 3 ∧ 1 ≤ s.argN 1 ∧ apart (s.argN 4) (2 * s.argN 3) (s.argN 5) (2 * (s.argN 1 - 1)) = true := by
  have checks := error_eq_none.1 hc
  simp only [checkList, List.forall_mem_cons, Bool.and_eq_true, decide_eq_true_eq] at checks
  obtain ⟨-, ⟨taps, -, elements, -⟩, -, -, ⟨-, apart⟩, -⟩ := checks
  exact ⟨taps, elements, apart⟩

theorem designDfeEffect_eq {h : Nat → Cplx} (hc : Spec.error .designDfe s = none)
    (hh : CplxOn s.mem (s.argN 0) (List.range (s.argN 1)) h) :
    designDfeEffect s = .ok
      (let nu := s.argN 1 - 1
       let snr := s.argF 2
       let nf := s.argN 3
       { stores := [(s.argN 4, cplxVec nf (designFf h nu snr nf)), (s.argN 5, cplxVec nu (designFb h nu snr nf))]
         results := [(0, designPivot h nu snr (nf - 1))] }) := by
  obtain ⟨taps, elements, -⟩ := checks_of_designDfe hc
  have count : s.argN 1 = s.argN 1 - 1 + 1 := by omega
  have design := designF_eq (h := h) (nu := s.argN 1 - 1) (snr := s.argF 2) (one_le_two.trans taps)
  rw [← count] at design
  rw [designDfeEffect, creadAll_eq hh, Rd.ok_bind, design]
  simp only [cplxWords_map_range]

end

/-- Settles O48: the loop by `BeforeTurn.turns_eq`, v by `backSubst_eq`. -/
theorem dfeDesign : Obligations.DfeDesign := by
  refine ⟨reportsErrors_of_ne_viterbiSoft nofun, fun s h hc hh => ?_⟩
  obtain ⟨-, -, apart⟩ := checks_of_designDfe hc
  refine completes_of_effect ((checksOf_eq_error (i := .designDfe) nofun s).trans (congrArg Except.ok hc))
    (designDfeEffect_eq hc hh) (List.pairwise_pair.2 ?_)
  rwa [disjoint_eq_apart, cplxVec_length, cplxVec_length]

end Sys2Proof.Proofs

/-!
PROOFS. `EQUALIZE` (43_channel_dfe.md R335): the loop over the post-forward samples carries the decisions made so far, the latest
first, which are `dfePast` of the Spec.
-/
namespace Sys2Proof.Proofs

open Sys2Proof.Machine Sys2Proof.Spec

/-! ## One sample -/

@[simp] theorem dfePast_length (post fb : Nat → Cplx) (fbn i : Nat) : (dfePast post fb fbn i).length = i := by
  induction i with
  | zero => rfl
  | succ i ih => rw [dfePast, List.length_cons, ih]

theorem softF_eq_soft (z : Cplx) : softF z = soft z := rfl

/-- The feedback after the decisions `past` is the sum over the taps that meet one of them. -/
theorem feedback_eq {rfb : Nat → Rd Cplx} {fb : Nat → Cplx} {fbn : Nat} (taps : ∀ k < fbn, rfb k = .ok (fb k))
    (past : List Cplx) :
    feedback rfb fbn past
      = .ok (sumC ((List.range (min fbn past.length)).map fun j => (fb j).mul (past.getD j ⟨0#32, 0#32⟩))) := by
  rw [sumC, List.foldl_map, List.range_eq_range']
  exact foldRd_ok fun j acc _ hj => by
    rw [taps j (by omega), Rd.ok_bind]
    rfl

/-- The output of sample `i` on that feedback. -/
theorem dfeOutput_eq_dfeOut (post fb : Nat → Cplx) (fbn i : Nat) (past : List Cplx) :
    dfeOutput (post i) (sumC ((List.range (min fbn i)).map fun j => (fb j).mul (past.getD j ⟨0#32, 0#32⟩))) i
      = dfeOut post fb fbn i past := by
  rw [dfeOutput, dfeOut, rrotEntry_eq_rrot]

/-- The decision on sample `i` is the next one of the Spec. -/
theorem dfePast_succ (post fb : Nat → Cplx) (fbn i : Nat) :
    dfePast post fb fbn (i + 1)
      = dfeDecision (dfeOut post fb fbn i (dfePast post fb fbn i)) i :: dfePast post fb fbn i := by
  rw [dfePast, dfeDecision, rotEntry_eq_rot]
  rfl

/-! ## The loop -/

/-- From sample `i` on, after the first `i` decisions, `n` turns give the soft values of their outputs and end with all the
decisions, oldest first. -/
theorem equalizeLoop_eq {rfb : Nat → Rd Cplx} {fb : Nat → Cplx} {fbn : Nat} (taps : ∀ k < fbn, rfb k = .ok (fb k))
    (post : Nat → Cplx) (i n : Nat) :
    equalizeLoop rfb fbn ((List.range' i n).map post) i (dfePast post fb fbn i)
      = .ok ((List.range' i n).map fun t => soft (dfeOut post fb fbn t (dfePast post fb fbn t)),
          (dfePast post fb fbn (i + n)).reverse) := by
  induction n generalizing i with
  | zero => rfl
  | succ n ih =>
    rw [List.range'_succ, List.map_cons, equalizeLoop, feedback_eq taps, Rd.ok_bind]
    simp only [dfePast_length, dfeOutput_eq_dfeOut]
    rw [← dfePast_succ, ih, Rd.ok_bind, List.map_cons, softF_eq_soft, Nat.add_right_comm, Nat.add_assoc]

/-- The decisions in order, as a vector. -/
theorem cplxWords_eq_cplxVec {n : Nat} {zs : List Cplx} (h : zs.length = n) :
    cplxWords zs = cplxVec n fun i => zs.getD i ⟨0#32, 0#32⟩ := by
  have elements : zs = (List.range n).map fun i => zs.getD i ⟨0#32, 0#32⟩ := by
    refine List.ext_getElem (by simpa using h) fun i hi _ => ?_
    rw [List.getElem_map, List.getElem_range, List.getD_eq_getElem _ _ hi]
  rw [← cplxWords_map_range, ← elements]

/-! ## `EQUALIZE` -/

theorem equalizeEffect_eq {s : State} {v ff fb : Nat → Cplx} (hv : CplxOn s.mem (s.argN 0) (List.range (s.argN 1)) v)
    (hff : CplxOn s.mem (s.argN 2) (List.range (s.argN 3)) ff)
    (hfb : CplxOn s.mem (s.argN 4) (List.range (s.argN 5)) fb) :
    equalizeEffect s = .ok
      (let vn := s.argN 1
       let post := fun n => conv ff (s.argN 3) v vn (n + s.argN 3 - 1)
       let past := dfePast post fb (s.argN 5)
       { stores := [
          (s.argN 6, realVec vn fun i => soft (dfeOut post fb (s.argN 5) i (past i))),
          (s.argN 0, cplxVec vn fun i => (past vn).reverse.getD i ⟨0#32, 0#32⟩)] }) := by
  have loop := equalizeLoop_eq (cread_of_cplxOn hfb) (fun n => conv ff (s.argN 3) v (s.argN 1) (n + s.argN 3 - 1)) 0
    (s.argN 1)
  rw [← List.range_eq_range', Nat.zero_add, dfePast] at loop
  rw [equalizeEffect, convTable_eq (cread_of_cplxOn hff) (cread_of_cplxOn hv) (· + s.argN 3 - 1), Rd.ok_bind, loop,
    Rd.ok_bind]
  simp only
  rw [cplxWords_eq_cplxVec (by rw [List.length_reverse, dfePast_length])]
  rfl

/-- The soft values and the decisions are stored apart, by the checks (R335). -/
theorem apart_of_equalize {s : State} (hc : Spec.error .equalize s = none) :
    apart (s.argN 6) (s.argN 1) (s.argN 0) (2 * s.argN 1) = true := by
  have checks := error_eq_none.1 hc
  simp only [checkList, List.forall_mem_cons, Bool.and_eq_true] at checks
  obtain ⟨-, -, -, ⟨⟨⟨⟨-, -⟩, apart⟩, -⟩, -⟩, -⟩ := checks
  exact apart

@[simp] theorem realVec_length (n : Nat) (x : Nat → F32) : (realVec n x).length = n := by
  rw [realVec, List.length_map, List.length_range]

/-- Settles O49: the feedforward convolution by `convTable_eq`, the loop by `equalizeLoop_eq`. -/
theorem equalizer : Obligations.Equalizer := by
  refine ⟨reportsErrors_of_ne_viterbiSoft nofun, fun s v ff fb hc hv hff hfb => ?_⟩
  refine completes_of_effect ((checksOf_eq_error (i := .equalize) nofun s).trans (congrArg Except.ok hc))
    (equalizeEffect_eq hv hff hfb) (List.pairwise_pair.2 ?_)
  rw [disjoint_eq_apart, realVec_length, cplxVec_length]
  exact apart_of_equalize hc

end Sys2Proof.Proofs

/-!
PROOFS. Tables of bits: a list is the table of its entries, and the bits of a written vector, gathered or not, are a table
(20_memory.md R101; 44_sch_decoder.md R380).
-/
namespace Sys2Proof.Proofs

open Sys2Proof.Machine Sys2Proof.Spec

/-- A list is the table of its entries. -/
theorem eq_map_range_getD {α : Type} (l : List α) (d : α) {n : Nat} (h : l.length = n) :
    l = (List.range n).map fun k => l.getD k d := by
  refine List.ext_getElem (by simpa using h) fun k hk _ => ?_
  rw [List.getElem_map, List.getElem_range, List.getD_eq_getElem _ _ hk]

/-- An entry of a table. -/
theorem getD_map_range {α : Type} (f : Nat → α) (d : α) {n k : Nat} (h : k < n) : ((List.range n).map f).getD k d = f k := by
  rw [List.getD_eq_getElem _ _ (by simpa using h), List.getElem_map, List.getElem_range]

/-- A table over a list of places is a table over their order. -/
theorem map_eq_map_range {α : Type} (ks : List Nat) (f : Nat → α) :
    ks.map f = (List.range ks.length).map fun n => f (ks.getD n 0) := by
  conv_lhs => rw [eq_map_range_getD ks 0 rfl]
  exact List.map_map

theorem gathered_length (x : Bool) : (gathered x).length = 78 := by
  cases x <;> rfl

/-- The values that `Gather` takes, in order (R380). -/
theorem gather_eq {β : Type} {rd : Nat → Rd β} {r : Nat → β} {x : Bool} (h : ∀ k ∈ gathered x, rd k = .ok (r k)) :
    gather rd x = .ok ((gathered x).map r) := by
  cases x with
  | false => exact tabRd_range_ok fun k hk => h k (List.mem_range.2 hk)
  | true =>
    have part {lo n : Nat} (hs : ∀ k ∈ List.range' lo n, k ∈ gathered true) :
        tabRd rd lo n = .ok ((List.range' lo n).map r) :=
      tabRd_ok fun k hlo hhi => h k (hs k (List.mem_range'_1.2 ⟨hlo, hhi⟩))
    have first := part (lo := 3) (n := 39) fun k hk => List.mem_append_left _ hk
    have second := part (lo := 106) (n := 39) fun k hk => List.mem_append_right _ hk
    rw [gather, if_pos rfl, first, Rd.ok_bind, second, Rd.ok_bind, gathered, if_pos rfl, List.map_append]

end Sys2Proof.Proofs

/-!
PROOFS. The residue of R371 is the remainder over GF(2): a list of bits is a polynomial, a division step adds a multiple of the
generator, and what is left is below the generator's degree.
-/
namespace Sys2Proof.Proofs

open Sys2Proof.Machine Sys2Proof.Spec Polynomial

/-! ## Lists of bits as polynomials -/

/-- A bit as an element of GF(2). -/
def gfBit (b : Bool) : ZMod 2 := if b then 1 else 0

/-- The polynomial of a list of bits, the first listed the leading coefficient (R371). -/
noncomputable def bitPoly : List Bool → (ZMod 2)[X]
  | [] => 0
  | b :: bs => monomial bs.length (gfBit b) + bitPoly bs

theorem gfBit_xor (a b : Bool) : gfBit (xor a b) = gfBit a + gfBit b := by
  cases a <;> cases b <;> decide

theorem gfBit_injective : Function.Injective gfBit := by decide

/-- The polynomial as the sum over the places of the list. -/
theorem bitPoly_eq_sum (l : List Bool) :
    bitPoly l = ∑ i ∈ Finset.range l.length, monomial (l.length - 1 - i) (gfBit (l.getD i false)) := by
  induction l with
  | nil => rfl
  | cons b bs ih =>
    rw [bitPoly, ih, List.length_cons, Finset.sum_range_succ', add_comm]
    refine congrArg₂ _ (Finset.sum_congr rfl fun i _ => ?_) rfl
    rw [List.getD_cons_succ, Nat.add_sub_cancel, Nat.sub_add_eq, Nat.sub_right_comm]

theorem bitPoly_append (a c : List Bool) : bitPoly (a ++ c) = X ^ c.length * bitPoly a + bitPoly c := by
  induction a with
  | nil => simp [bitPoly]
  | cons b bs ih =>
    rw [List.cons_append, bitPoly, ih, bitPoly, mul_add, X_pow_mul_monomial, List.length_append, add_assoc]

theorem bitPoly_zipWith_xor {a c : List Bool} (h : a.length = c.length) :
    bitPoly (List.zipWith xor a c) = bitPoly a + bitPoly c := by
  induction a generalizing c with
  | nil =>
    obtain rfl := List.length_eq_zero_iff.1 h.symm
    simp [bitPoly]
  | cons b bs ih =>
    match c, h with
    | b' :: cs, h =>
      have lengths : bs.length = cs.length := Nat.succ.inj h
      rw [List.zipWith_cons_cons, bitPoly, ih lengths, bitPoly, bitPoly, gfBit_xor, List.length_zipWith, lengths,
        Nat.min_self, map_add]
      ring

theorem bitPoly_replicate_false (n : Nat) : bitPoly (List.replicate n false) = 0 := by
  induction n with
  | zero => rfl
  | succ n ih => rw [List.replicate_succ, bitPoly, ih, gfBit]; simp

/-- Complementing every bit adds the all-ones polynomial. -/
theorem bitPoly_map_not (l : List Bool) : bitPoly (l.map not) = bitPoly l + bitPoly (List.replicate l.length true) := by
  rw [← bitPoly_zipWith_xor (by simp)]
  refine congrArg bitPoly (List.ext_getElem (by simp) fun i _ _ => ?_)
  simp

/-- Flipping one bit adds its monomial. -/
theorem bitPoly_set_not {l : List Bool} {i : Nat} (h : i < l.length) :
    bitPoly (l.set i (!l.getD i false)) = bitPoly l + X ^ (l.length - 1 - i) := by
  induction l generalizing i with
  | nil => cases h
  | cons b bs ih =>
    have flip : gfBit (!b) = gfBit b + 1 := by cases b <;> decide
    cases i with
    | zero =>
      rw [List.getD_cons_zero, List.set_cons_zero, bitPoly, bitPoly, flip, map_add, List.length_cons,
        ← monomial_one_right_eq_X_pow]
      exact add_right_comm _ _ _
    | succ i =>
      rw [List.getD_cons_succ, List.set_cons_succ, bitPoly, ih (Nat.lt_of_succ_lt_succ h), bitPoly, List.length_set,
        List.length_cons, Nat.add_sub_cancel, Nat.sub_add_eq, Nat.sub_right_comm, add_assoc]

theorem degree_bitPoly_lt (l : List Bool) : (bitPoly l).degree < l.length := by
  induction l with
  | nil => simp [bitPoly]
  | cons b bs ih =>
    rw [bitPoly, List.length_cons]
    have lead : (monomial bs.length (gfBit b)).degree < ((bs.length + 1 : ℕ) : WithBot ℕ) :=
      (degree_monomial_le _ _).trans_lt (by exact_mod_cast Nat.lt_succ_self _)
    exact (degree_add_le _ _).trans_lt (max_lt lead (ih.trans (by exact_mod_cast Nat.lt_succ_self _)))

/-- Lists of one length with the same polynomial are the same. -/
theorem bitPoly_injective {a c : List Bool} (hl : a.length = c.length) (h : bitPoly a = bitPoly c) : a = c := by
  induction a generalizing c with
  | nil => exact (List.length_eq_zero_iff.1 hl.symm).symm
  | cons b bs ih =>
    match c, hl with
    | b' :: cs, hl =>
      have lengths : bs.length = cs.length := Nat.succ.inj hl
      have lead := congrArg (coeff · bs.length) h
      simp only [bitPoly, coeff_add, lengths, coeff_monomial_same] at lead
      rw [coeff_eq_zero_of_degree_lt (lengths ▸ degree_bitPoly_lt bs), coeff_eq_zero_of_degree_lt (degree_bitPoly_lt cs),
        add_zero, add_zero] at lead
      obtain rfl := gfBit_injective lead
      rw [bitPoly, bitPoly, lengths] at h
      rw [ih lengths (add_left_cancel h)]

/-! ## The generator -/

/-- g(x) of R371. -/
noncomputable def genPoly : (ZMod 2)[X] := X ^ 10 + X ^ 8 + X ^ 6 + X ^ 5 + X ^ 4 + X ^ 2 + 1

/-- The generator is the polynomial of its list of coefficients: the leading one and the ten below it. -/
theorem genPoly_eq_bitPoly : genPoly = X ^ 10 + bitPoly parityGen.tail := by
  simp only [parityGen, List.tail_cons, bitPoly, gfBit, genPoly, List.length_cons, List.length_nil,
    monomial_one_right_eq_X_pow, if_true, Bool.false_eq_true, if_false, map_zero]
  ring

theorem genPoly_monic : genPoly.Monic := by
  rw [genPoly_eq_bitPoly]
  exact monic_X_pow_add (degree_bitPoly_lt parityGen.tail)

theorem genPoly_degree : genPoly.degree = 10 := by
  rw [genPoly_eq_bitPoly, degree_add_eq_left_of_degree_lt] <;> rw [degree_X_pow]
  · rfl
  · exact degree_bitPoly_lt parityGen.tail

theorem two_eq_zero_gfPoly : (2 : (ZMod 2)[X]) = 0 := CharTwo.two_eq_zero

/-! ## The long division -/

/-- A division step adds a multiple of the generator (R371). -/
theorem genPoly_dvd_divisionStep {l : List Bool} (h : 11 ≤ l.length) : genPoly ∣ bitPoly l + bitPoly (divisionStep l) := by
  match l, h with
  | false :: rest, _ =>
    refine ⟨0, ?_⟩
    simp only [divisionStep, bitPoly, gfBit, Bool.false_eq_true, if_false, map_zero]
    linear_combination bitPoly rest * two_eq_zero_gfPoly
  | true :: rest, h =>
    have le : 10 ≤ rest.length := Nat.le_of_succ_le_succ h
    have split : bitPoly rest = X ^ (rest.length - 10) * bitPoly (rest.take 10) + bitPoly (rest.drop 10) := by
      rw [← List.length_drop, ← bitPoly_append, List.take_append_drop]
    have pow : (X : (ZMod 2)[X]) ^ rest.length = X ^ (rest.length - 10) * X ^ 10 := by
      rw [← pow_add, Nat.sub_add_cancel le]
    have ten : (rest.take 10).length = parityGen.tail.length := by
      rw [List.length_take, Nat.min_eq_left le]; rfl
    refine ⟨X ^ (rest.length - 10), ?_⟩
    simp only [divisionStep, if_true, bitPoly, gfBit, monomial_one_right_eq_X_pow]
    rw [bitPoly_append, bitPoly_zipWith_xor ten, List.length_drop, genPoly_eq_bitPoly, split, pow]
    linear_combination (X ^ (rest.length - 10) * bitPoly (rest.take 10) + bitPoly (rest.drop 10)) * two_eq_zero_gfPoly

theorem divisionStep_length {l : List Bool} (h : 11 ≤ l.length) : (divisionStep l).length = l.length - 1 :=
  divisionSteps_length 1 l h

theorem genPoly_dvd_divisionSteps (n : Nat) {l : List Bool} (h : n + 10 ≤ l.length) :
    genPoly ∣ bitPoly l + bitPoly (divisionSteps n l) := by
  induction n generalizing l with
  | zero => exact ⟨0, by rw [divisionSteps]; linear_combination bitPoly l * two_eq_zero_gfPoly⟩
  | succ n ih =>
    have step := genPoly_dvd_divisionStep (l := l) (by omega)
    have rest := ih (l := divisionStep l) (by rw [divisionStep_length (by omega)]; omega)
    have sum := dvd_add step rest
    rw [divisionSteps]
    convert sum using 1
    linear_combination -bitPoly (divisionStep l) * two_eq_zero_gfPoly

/-- The residue of a block is the only list of ten bits whose polynomial is congruent to the block's (R371). -/
theorem residueF_eq_iff {l r : List Bool} (hl : l.length = 35) (hr : r.length = 10) :
    residueF l = r ↔ genPoly ∣ bitPoly l + bitPoly r := by
  have congruent : genPoly ∣ bitPoly l + bitPoly (residueF l) := genPoly_dvd_divisionSteps 25 (by omega)
  refine ⟨fun h => h ▸ congruent, fun h => ?_⟩
  have ten := residueF_length l hl
  have sum : genPoly ∣ bitPoly (residueF l) + bitPoly r := by
    convert dvd_add congruent h using 1
    linear_combination -bitPoly l * two_eq_zero_gfPoly
  have zero : bitPoly (residueF l) + bitPoly r = 0 := by
    refine eq_zero_of_dvd_of_degree_lt sum ((degree_add_le _ _).trans_lt ?_)
    have a := degree_bitPoly_lt (residueF l)
    have c := degree_bitPoly_lt r
    rw [ten] at a
    rw [hr] at c
    rw [genPoly_degree]
    exact max_lt a c
  exact bitPoly_injective (ten.trans hr.symm) (CharTwo.add_eq_zero.1 zero)

/-- The remainder of a block's polynomial by the generator is the polynomial of its residue. -/
theorem bitPoly_modByMonic_genPoly {l : List Bool} (hl : l.length = 35) :
    bitPoly l %ₘ genPoly = bitPoly (residueF l) := by
  have ten := residueF_length l hl
  obtain ⟨q, hq⟩ := (residueF_eq_iff hl ten).1 rfl
  have below : (bitPoly (residueF l)).degree < genPoly.degree := by
    have lt := degree_bitPoly_lt (residueF l)
    rw [ten] at lt
    rwa [genPoly_degree]
  have division : bitPoly (residueF l) + genPoly * q = bitPoly l := by
    linear_combination -hq + bitPoly (residueF l) * two_eq_zero_gfPoly
  obtain ⟨-, remainder⟩ := div_modByMonic_unique q _ genPoly_monic ⟨division, below⟩
  exact remainder

/-- Settles O52: the two sums are the polynomials of the block and of its residue. -/
theorem residueIsThePolynomialRemainder : Obligations.ResidueIsThePolynomialRemainder := by
  intro b
  have length : ((List.range 35).map b).length = 35 := by simp
  have block := bitPoly_eq_sum ((List.range 35).map b)
  have residue := bitPoly_eq_sum (residueF ((List.range 35).map b))
  rw [residueF_length _ length] at residue
  have remainder := bitPoly_modByMonic_genPoly length
  rw [block, residue, length] at remainder
  refine Eq.trans (congrArg (· %ₘ genPoly) (Finset.sum_congr rfl fun i hi => ?_)) remainder
  rw [getD_map_range _ _ (Finset.mem_range.1 hi)]
  rfl

/-! ## Codewords (R373, R374) -/

/-- The check of R373 asks for ten ones. -/
theorem all_id_eq_true_iff {r : List Bool} (h : r.length = 10) : r.all id = true ↔ r = List.replicate 10 true := by
  rw [List.eq_replicate_iff, List.all_eq_true]
  exact ⟨fun ones => ⟨h, ones⟩, fun ⟨_, ones⟩ => ones⟩

theorem map_not_map_not (l : List Bool) : (l.map not).map not = l := by
  rw [List.map_map, Bool.involutive_not.comp_self, List.map_id]

/-- A block passes exactly when its last ten bits are the complement of the residue of its information bits. -/
theorem residueF_append_eq_ones_iff {info c : List Bool} (hi : info.length = 25) (hc : c.length = 10) :
    residueF (info ++ c) = List.replicate 10 true ↔ residueF (info ++ List.replicate 10 false) = c.map not := by
  rw [residueF_eq_iff (by simp [hi, hc]) (by simp), residueF_eq_iff (by simp [hi]) (by simp [hc]), bitPoly_append,
    bitPoly_append, bitPoly_replicate_false, bitPoly_map_not, hc, List.length_replicate, add_zero, add_assoc]

/-- The generator divides no power of x: x is prime, and the constant coefficient of the generator is 1. -/
theorem not_genPoly_dvd_X_pow (n : Nat) : ¬ genPoly ∣ X ^ n := by
  intro h
  obtain ⟨i, -, assoc⟩ := (dvd_prime_pow prime_X n).1 h
  have equal : genPoly = X ^ i := eq_of_monic_of_associated genPoly_monic (monic_X_pow i) assoc
  have ten : i = 10 := by
    have degrees := congrArg degree equal
    rw [genPoly_degree, degree_X_pow] at degrees
    exact_mod_cast degrees.symm
  have constant := congrArg (eval 0) equal
  simp [genPoly, ten] at constant

/-- Settles O53: by `residueF_append_eq_ones_iff`; and two passing blocks one bit apart would make the generator divide a power of
x. -/
theorem parityAcceptsCodewordsOnly : Obligations.ParityAcceptsCodewordsOnly := by
  refine ⟨fun info hi => ?_, fun block hb pass => ?_, fun block i hb pass hlt => ?_⟩
  · have length := parityEncodeF_length info hi
    have ten := residueF_length (info ++ List.replicate 10 false) (by simp [hi])
    rw [all_id_eq_true_iff (residueF_length _ length), parityEncodeF, residueF_append_eq_ones_iff hi (by simpa using ten)]
    exact ⟨(map_not_map_not _).symm, length⟩
  · rw [all_id_eq_true_iff (residueF_length _ hb), ← List.take_append_drop 25 block,
      residueF_append_eq_ones_iff (by simp [hb]) (by simp [hb])] at pass
    rw [parityEncodeF, pass, map_not_map_not, List.take_append_drop]
  · have length : (block.set i (!block.getD i false)).length = 35 := by rw [List.length_set, hb]
    rw [all_id_eq_true_iff (residueF_length _ hb), residueF_eq_iff hb (by simp)] at pass
    rw [Bool.eq_false_iff, Ne, all_id_eq_true_iff (residueF_length _ length), residueF_eq_iff length (by simp),
      bitPoly_set_not (hb.symm ▸ hlt)]
    intro both
    refine not_genPoly_dvd_X_pow (block.length - 1 - i) ?_
    convert dvd_add pass both using 1
    linear_combination -(bitPoly block + bitPoly (List.replicate 10 true)) * two_eq_zero_gfPoly

end Sys2Proof.Proofs

/-!
PROOFS. `PARITY_CHECK` and `PARITY_ENCODE` (44_sch_decoder.md R371, R373, R374): the list that shrinks by its leading bit is what
is left of the Spec's buffer.
-/
namespace Sys2Proof.Proofs

open Sys2Proof.Machine Sys2Proof.Spec

/-! ## The residue -/

/-- A turn whose leading bit is 0 changes nothing. -/
theorem divisionBuf_succ_of_not_lead {b : Nat → Bool} {q : Nat} (h : divisionBuf b q q = false) :
    divisionBuf b (q + 1) = divisionBuf b q := by
  funext i
  rw [divisionBuf, h]
  rfl

/-- A turn whose leading bit is 1 adds the generator to the ten places after it. -/
theorem divisionBuf_succ_of_lead {b : Nat → Bool} {q : Nat} (h : divisionBuf b q q = true) (i : Nat) :
    divisionBuf b (q + 1) (q + 1 + i)
      = if i < 10 then xor (divisionBuf b q (q + 1 + i)) (parityPoly.getD (i + 1) false) else divisionBuf b q (q + 1 + i) := by
  have place : q + 1 + i - q = i + 1 := by omega
  have under : (divisionBuf b q q && decide (q ≤ q + 1 + i) && decide (q + 1 + i < q + 11)) = decide (i < 10) := by
    rw [h, Bool.eq_iff_iff]
    simp
    omega
  simp only [divisionBuf, place, under, decide_eq_true_eq]

/-- A division step on the buffer after `q` turns, from place `q` on, is the buffer after the next turn, from the next place
on. -/
theorem divisionStep_divisionBuf (b : Nat → Bool) (q : Nat) {n : Nat} (h : 10 ≤ n) :
    divisionStep ((List.range' q (n + 1)).map (divisionBuf b q))
      = (List.range' (q + 1) n).map (divisionBuf b (q + 1)) := by
  rw [List.range'_succ, List.map_cons, divisionStep]
  cases lead : divisionBuf b q q with
  | false => rw [if_neg Bool.false_ne_true, divisionBuf_succ_of_not_lead lead]
  | true =>
    have ten : parityGen.tail.length = 10 := rfl
    rw [if_pos rfl]
    refine List.ext_getElem (by simp [ten]; omega) fun i _ _ => ?_
    rw [List.getElem_map, List.getElem_range'_1, divisionBuf_succ_of_lead lead]
    by_cases under : i < 10
    · have tail : parityGen.tail[i]'(ten.symm ▸ under) = parityPoly.getD (i + 1) false := by
        rw [← List.getD_eq_getElem _ false]
        rfl
      rw [List.getElem_append_left (by simp [ten]; omega), List.getElem_zipWith, tail, if_pos under]
      simp
    · have past : 10 + (i - 10) = i := by omega
      rw [List.getElem_append_right (by simp [ten]; omega), if_neg under]
      simp [ten, Nat.min_eq_left h, past]

theorem divisionSteps_divisionBuf (b : Nat → Bool) (q n : Nat) :
    divisionSteps n ((List.range' q (n + 10)).map (divisionBuf b q))
      = (List.range' (q + n) 10).map (divisionBuf b (q + n)) := by
  induction n generalizing q with
  | zero => rw [divisionSteps, Nat.zero_add]; rfl
  | succ n ih =>
    rw [divisionSteps, Nat.add_right_comm, divisionStep_divisionBuf b q (Nat.le_add_left 10 n), ih, Nat.add_right_comm,
      Nat.add_assoc]

/-- `ResidueF` is the residue of the Spec (R371). -/
theorem residueF_eq_residue (b : Nat → Bool) : residueF ((List.range 35).map b) = (List.range 10).map (residue b) := by
  have steps := divisionSteps_divisionBuf b 0 25
  rw [← List.range_eq_range', Nat.zero_add, List.range'_eq_map_range, List.map_map] at steps
  exact steps

theorem bitsMsb_eq_number (bs : List Bool) : bitsMsb bs = number bs := rfl

/-! ## The commands -/

theorem parityCheckEffect_eq {s : State} {b : Nat → Bool} (hb : BitOn s.mem (s.argN 0) (List.range 35) b) :
    parityCheckEffect s = .ok
      (let r := (List.range 10).map (residue b)
       let pass := r == List.replicate 10 true
       { results := [(0, if pass then 0#32 else 1#32), (1, BitVec.ofNat 32 (number r))], detect := pass }) := by
  have pass : ((List.range 10).map (residue b)).all id = ((List.range 10).map (residue b) == List.replicate 10 true) := by
    rw [Bool.eq_iff_iff, all_id_eq_true_iff (by simp), beq_iff_eq]
  have word (p : Bool) : Word.ofBit (!p) = if p then 0#32 else 1#32 := by cases p <;> rfl
  rw [parityCheckEffect, breadAll_eq hb, Rd.ok_bind]
  simp only [residueF_eq_residue, pass, word, bitsMsb_eq_number]
  rfl

/-- Settles O50: the checks and `residueF_eq_residue`. -/
theorem parityCheck : Obligations.ParityCheck :=
  ⟨reportsErrors_of_ne_viterbiSoft nofun, fun s _ hc hb =>
    completes_of_effect ((checksOf_eq_error (i := .parityCheck) nofun s).trans (congrArg Except.ok hc))
      (parityCheckEffect_eq hb) .nil⟩

/-- The systematic block is the Spec's (R374). -/
theorem parityEncodeF_eq_parityBlock (info : Nat → Bool) :
    parityEncodeF ((List.range 25).map info) = (List.range 35).map (parityBlock info) := by
  have halves (f : Nat → Bool) :
      (List.range 35).map f = (List.range 25).map f ++ (List.range 10).map fun k => f (25 + k) := by
    rw [show 35 = 25 + 10 from rfl, List.range_add, List.map_append, List.map_map]
    rfl
  have padded : (List.range 25).map info ++ List.replicate 10 false
      = (List.range 35).map fun i => if i < 25 then info i else false := by
    rw [halves]
    exact congrArg₂ _ (List.map_congr_left fun k hk => (if_pos (List.mem_range.1 hk)).symm) rfl
  rw [parityEncodeF, padded, residueF_eq_residue, List.map_map, halves]
  exact congrArg₂ _ (List.map_congr_left fun k hk => (if_pos (List.mem_range.1 hk)).symm) rfl

theorem parityEncodeEffect_eq {s : State} {b : Nat → Bool} (hb : BitOn s.mem (s.argN 0) (List.range 25) b) :
    parityEncodeEffect s = .ok { stores := [(s.argN 1, bitVec 35 (parityBlock b))] } := by
  rw [parityEncodeEffect, breadAll_eq hb, Rd.ok_bind, parityEncodeF_eq_parityBlock, bitWords_map_range]

/-- Settles O51: the checks and `parityEncodeF_eq_parityBlock`. -/
theorem parityEncode : Obligations.ParityEncode :=
  ⟨reportsErrors_of_ne_viterbiSoft nofun, fun _ _ hc hb =>
    completes_of_error_none nofun hc (parityEncodeEffect_eq hb) (le_refl 1)⟩

end Sys2Proof.Proofs

/-!
PROOFS. `SCH_FIELDS` (44_sch_decoder.md R384-R386): the loop that raises tt stops at the least congruent value not below T2, so
the rest of the division is that of T3 − T2.
-/
namespace Sys2Proof.Proofs

open Sys2Proof.Machine Sys2Proof.Spec

/-! ## The loop of R385 -/

/-- Enough turns raise tt by a multiple of 26 to at least T2. -/
theorem raiseTo_spec {t2 fuel tt : Nat} (h : t2 ≤ tt + 26 * fuel) :
    ∃ k, raiseTo t2 fuel tt = tt + 26 * k ∧ t2 ≤ raiseTo t2 fuel tt := by
  induction fuel generalizing tt with
  | zero => exact ⟨0, rfl, h⟩
  | succ fuel ih =>
    rw [raiseTo]
    split
    next =>
      obtain ⟨k, raised, reached⟩ := ih (tt := tt + 26) (by omega)
      exact ⟨k + 1, by omega, reached⟩
    next reached => exact ⟨0, rfl, Nat.le_of_not_lt reached⟩

/-- tt is (T3 − T2) mod 26 by the Euclidean remainder. -/
theorem raiseTo_sub_mod {t2 t3 : Nat} (h : t2 ≤ 31) :
    (raiseTo t2 32 t3 - t2) % 26 = (((t3 : Int) - t2) % 26).toNat := by
  obtain ⟨k, raised, reached⟩ := raiseTo_spec (t2 := t2) (fuel := 32) (tt := t3) (by omega)
  omega

/-! ## Numbers of bits -/

/-- A number of `n` bits is below 2 ^ n. -/
theorem number_lt (bs : List Bool) : number bs < 2 ^ bs.length := by
  induction bs using List.reverseRecOn with
  | nil => exact Nat.one_pos
  | append_singleton bs b ih =>
    have bit := Bool.toNat_lt b
    rw [number, List.foldl_append, List.length_append, List.length_singleton, Nat.pow_succ]
    change 2 * number bs + b.toNat < _
    omega

/-- A number read from the listed places is below that power of two. -/
theorem bitsMsb_map_lt (bit : Nat → Bool) (ks : List Nat) : bitsMsb (ks.map bit) < 2 ^ ks.length := by
  have lt := number_lt (ks.map bit)
  rwa [List.length_map] at lt

/-! ## `SCH_FIELDS` -/

theorem schFieldsEffect_eq {s : State} {b : Nat → Bool} (hb : BitOn s.mem (s.argN 0) (List.range 25) b) :
    schFieldsEffect s = .ok
      (let bsic := number ([7, 6, 5, 4, 3, 2].map b)
       let t1 := number ([1, 0, 15, 14, 13, 12, 11, 10, 9, 8, 23].map b)
       let t2 := number ([22, 21, 20, 19, 18].map b)
       let t3p := number ([17, 16, 24].map b)
       let t3 := 10 * t3p + 1
       let tt := (((t3 : Int) - t2) % 26).toNat
       { results := [(0, BitVec.ofNat 32 bsic), (1, BitVec.ofNat 32 t1), (2, BitVec.ofNat 32 t2),
          (3, BitVec.ofNat 32 t3p), (4, BitVec.ofNat 32 t3), (5, BitVec.ofNat 32 (51 * 26 * t1 + 51 * tt + t3))] }) := by
  have t2 : number ([22, 21, 20, 19, 18].map b) ≤ 31 := Nat.le_of_lt_succ (bitsMsb_map_lt b [22, 21, 20, 19, 18])
  rw [schFieldsEffect, breadAll_eq hb, Rd.ok_bind]
  simp only [← raiseTo_sub_mod t2]
  rfl

/-- Settles O59: the checks, and tt by `raiseTo_sub_mod`. -/
theorem schFieldExtraction : Obligations.SchFieldExtraction :=
  ⟨reportsErrors_of_ne_viterbiSoft nofun, fun _ _ hc hb =>
    completes_of_error_none nofun hc (schFieldsEffect_eq hb) (Nat.zero_le 1)⟩

/-- The ranges of the four fields read from the bits (R386). -/
theorem schFieldsF_lt (d : List Bool) :
    (schFieldsF d).bsic < 64 ∧ (schFieldsF d).t1 < 2048 ∧ (schFieldsF d).t2 < 32 ∧ (schFieldsF d).t3p < 8 :=
  ⟨bitsMsb_map_lt (d.getD · false) [7, 6, 5, 4, 3, 2],
    bitsMsb_map_lt (d.getD · false) [1, 0, 15, 14, 13, 12, 11, 10, 9, 8, 23],
    bitsMsb_map_lt (d.getD · false) [22, 21, 20, 19, 18], bitsMsb_map_lt (d.getD · false) [17, 16, 24]⟩

/-- Settles O60: the fields by `schFieldsF_lt`, the frame number from them and a remainder by 26. -/
theorem schFieldRanges : Obligations.SchFieldRanges := by
  intro d f
  obtain ⟨bsic, t1, t2, t3p⟩ : f.bsic < 64 ∧ f.t1 < 2048 ∧ f.t2 < 32 ∧ f.t3p < 8 := schFieldsF_lt d
  have t3 : f.t3 = 10 * f.t3p + 1 := rfl
  have fn : f.fn = 51 * 26 * f.t1 + 51 * ((raiseTo f.t2 32 f.t3 - f.t2) % 26) + f.t3 := rfl
  have tt : (raiseTo f.t2 32 f.t3 - f.t2) % 26 < 26 := Nat.mod_lt _ (by decide)
  refine ⟨by omega, by omega, by omega, by omega, ?_, by omega, by omega, _, Nat.le_of_lt_succ tt, fn⟩
  simp only [List.mem_cons, List.not_mem_nil, or_false]
  omega

end Sys2Proof.Proofs

/-!
PROOFS. The convolutional code (44_sch_decoder.md R370, R372, R376): the encoder's state holds the last four input bits, so its
output is the sums of the generators.
-/
namespace Sys2Proof.Proofs

open Sys2Proof.Machine Sys2Proof.Spec

/-! ## States of the encoder -/

/-- The state of the encoder after the first `t` bits of `u`, from state 0 (R372). -/
def pathState (u : Nat → Bool) : (t : Nat) → Nat
  | 0 => 0
  | t + 1 => nextState (pathState u t) (u t)

theorem nextState_lt (s : Nat) (b : Bool) : nextState s b < 16 := Nat.mod_lt _ (by decide)

theorem pathState_lt (u : Nat → Bool) (t : Nat) : pathState u t < 16 := by
  cases t with
  | zero => exact Nat.zero_lt_succ 15
  | succ t => exact nextState_lt _ _

theorem nextState_eq_bit (s : Nat) (b : Bool) : nextState s b = Nat.bit b s % 2 ^ 4 := by
  rw [Nat.bit_val]
  rfl

/-- The newest bit of a state is the input. -/
theorem nextState_testBit_zero (s : Nat) (b : Bool) : (nextState s b).testBit 0 = b := by
  rw [nextState_eq_bit, Nat.testBit_mod_two_pow, Nat.testBit_bit_zero]
  rfl

/-- The older bits are those of the state before, one place younger. -/
theorem nextState_testBit_succ (s : Nat) (b : Bool) {d : Nat} (h : d < 3) :
    (nextState s b).testBit (d + 1) = s.testBit d := by
  rw [nextState_eq_bit, Nat.testBit_mod_two_pow, Nat.testBit_bit_succ, decide_eq_true (Nat.succ_lt_succ h), Bool.true_and]

/-- Bit `d` of the state is the input `d + 1` bits ago, 0 before the first one (R372). -/
theorem pathState_testBit (u : Nat → Bool) (t : Nat) {d : Nat} (h : d < 4) :
    (pathState u t).testBit d = (decide (d < t) && u (t - 1 - d)) := by
  induction t generalizing d with
  | zero => exact Nat.zero_testBit d
  | succ t ih =>
    cases d with
    | zero => rw [pathState, nextState_testBit_zero, decide_eq_true (Nat.zero_lt_succ t)]; rfl
    | succ d =>
      have older : t + 1 - 1 - (d + 1) = t - 1 - d := by omega
      rw [pathState, nextState_testBit_succ _ _ (by omega), ih (by omega), older, decide_eq_decide.2 Nat.succ_lt_succ_iff]

/-- After four more bits the state is these four, the oldest first. -/
theorem pathState_add_four (u : Nat → Bool) (t : Nat) :
    pathState u (t + 4) = 8 * (u t).toNat + 4 * (u (t + 1)).toNat + 2 * (u (t + 2)).toNat + (u (t + 3)).toNat := by
  have h0 := Bool.toNat_lt (u t)
  have h1 := Bool.toNat_lt (u (t + 1))
  have h2 := Bool.toNat_lt (u (t + 2))
  have h3 := Bool.toNat_lt (u (t + 3))
  simp only [pathState, nextState]
  omega

/-! ## Code bits -/

/-- An input bit at most `t` bits ago, as the generators read it. -/
theorem pathState_testBit_eq_past (u : Nat → Bool) (t : Nat) {d : Nat} (h : d < 4) :
    (pathState u t).testBit d = (decide (d + 1 ≤ t) && u (t - (d + 1))) := by
  rw [pathState_testBit u t h, Nat.sub_sub, Nat.add_comm 1 d]
  rfl

theorem codeG0_pathState (u : Nat → Bool) (t : Nat) : codeG0 (pathState u t) (u t) = codeBit u (2 * t) := by
  have half : 2 * t / 2 = t := by omega
  have even : 2 * t % 2 = 0 := by omega
  rw [codeBit, if_pos even, half, codeG0, pathState_testBit_eq_past u t (by decide),
    pathState_testBit_eq_past u t (by decide)]
  dsimp only
  rw [decide_eq_true (Nat.zero_le t)]
  rfl

theorem codeG1_pathState (u : Nat → Bool) (t : Nat) : codeG1 (pathState u t) (u t) = codeBit u (2 * t + 1) := by
  have half : (2 * t + 1) / 2 = t := by omega
  have odd : (2 * t + 1) % 2 ≠ 0 := by omega
  rw [codeBit, if_neg odd, half, codeG1, pathState_testBit_eq_past u t (by decide),
    pathState_testBit_eq_past u t (by decide), pathState_testBit_eq_past u t (by decide)]
  dsimp only
  rw [decide_eq_true (Nat.zero_le t)]
  rfl

/-- The encoder from the state after `t` bits gives the code bits from place `2 * t` on. -/
theorem convEncodeFrom_pathState (u : Nat → Bool) (t n : Nat) :
    convEncodeFrom (pathState u t) ((List.range' t n).map u) = (List.range' (2 * t) (2 * n)).map (codeBit u) := by
  induction n generalizing t with
  | zero => rfl
  | succ n ih =>
    rw [List.range'_succ, List.map_cons, convEncodeFrom, ← pathState, ih, codeG0_pathState, codeG1_pathState, Nat.mul_succ,
      Nat.mul_succ, List.range'_succ, List.range'_succ]
    rfl

/-- A block with its tail, given as the bits `u`, is encoded as the code bits of `u`. -/
theorem convEncodeF_eq {block : List Bool} {u : Nat → Bool}
    (h : block ++ List.replicate 4 false = (List.range 39).map u) :
    convEncodeF block = (List.range 78).map (codeBit u) := by
  rw [convEncodeF, h, List.range_eq_range', List.range_eq_range']
  exact convEncodeFrom_pathState u 0 39

/-! ## `CONV_ENCODE` -/

/-- A table of 35 bits with four zeros is the table of the tailed bits. -/
theorem append_tail_eq_tailed (b : Nat → Bool) :
    (List.range 35).map b ++ List.replicate 4 false = (List.range 39).map (tailed b) := by
  rw [show 39 = 35 + 4 from rfl, List.range_add, List.map_append, List.map_map]
  refine congrArg₂ _ (List.map_congr_left fun k hk => ?_) rfl
  rw [tailed, decide_eq_true (List.mem_range.1 hk), Bool.true_and]

theorem convEncodeEffect_eq {s : State} {b : Nat → Bool} (hb : BitOn s.mem (s.argN 0) (List.range 35) b) :
    convEncodeEffect s = .ok { stores := [(s.argN 1, bitVec 78 (codeBit (tailed b)))] } := by
  rw [convEncodeEffect, breadAll_eq hb, Rd.ok_bind, convEncodeF_eq (append_tail_eq_tailed b), bitWords_map_range]

/-- Settles O54: the checks, and the code bits by `convEncodeF_eq`. -/
theorem convolutionalEncode : Obligations.ConvolutionalEncode :=
  ⟨reportsErrors_of_ne_viterbiSoft nofun, fun _ _ hc hb =>
    completes_of_error_none nofun hc (convEncodeEffect_eq hb) (le_refl 1)⟩

end Sys2Proof.Proofs

/-!
PROOFS. The Viterbi decoder (44_sch_decoder.md R378), for any metric: the stage that extends every state in turn leaves at each
state the best of its two predecessors, so the errors, the final state and the traceback are those of a trellis given state by
state.
-/
namespace Sys2Proof.Proofs

open Sys2Proof.Machine Sys2Proof.Spec

section
variable {β ε : Type} (m : Metric β ε)

/-! ## The trellis -/

/-- The edge of bit `b` out of state `p` against the best found so far, given the errors before the stage: it replaces it when
its error is less (R378). -/
def relax (errs : Nat → ε) (r1 r2 : β) (b : Bool) (best : ε × Nat) (p : Nat) : ε × Nat :=
  let acc := m.add (errs p) (m.branch (encOutput p b) r1 r2)
  if m.lt (errs p) m.maxError && m.lt acc best.1 then (acc, p) else best

/-- The accumulated error of state `n` after `t` stages and its predecessor, from the two states with an edge into `n`. -/
def trellis (r : Nat → β) : (t n : Nat) → ε × Nat
  | 0, n => (if n = 0 then m.zero else m.maxError, 0)
  | t + 1, n =>
    [n / 2, n / 2 + 8].foldl (relax m (fun p => (trellis r t p).1) (r (2 * t)) (r (2 * t + 1)) (decide (n % 2 = 1)))
      (m.maxError, 0)

/-- The lowest state of least error after the 39 stages. -/
def finalState (r : Nat → β) : Nat :=
  (List.range' 1 15).foldl (fun fs n => if m.lt (trellis m r 39 n).1 (trellis m r 39 fs).1 then n else fs) 0

/-- The state `k` stages before the end of the path traced back. -/
def traceState (r : Nat → β) : (k : Nat) → Nat
  | 0 => finalState m r
  | k + 1 => (trellis m r (39 - k) (traceState r k)).2

/-- A best edge is the one it is compared with, or a new one that is less. -/
theorem relax_cases (errs : Nat → ε) (r1 r2 : β) (b : Bool) (best : ε × Nat) (p : Nat) :
    relax m errs r1 r2 b best p = best
    ∨ (relax m errs r1 r2 b best p = (m.add (errs p) (m.branch (encOutput p b) r1 r2), p)
      ∧ m.lt (errs p) m.maxError = true ∧ m.lt (m.add (errs p) (m.branch (encOutput p b) r1 r2)) best.1 = true) := by
  rw [relax]
  split
  next less => exact .inr ⟨rfl, Bool.and_eq_true_iff.1 less⟩
  next => exact .inl rfl

/-! ## One stage -/

/-- What a stage in work holds of state `n`. -/
def cell (t : Stage ε) (n : Nat) : ε × Nat := (t.errs.getD n m.maxError, t.preds.getD n 0)

/-- A stage lists all 16 states. -/
structure Full (t : Stage ε) : Prop where
  errs : t.errs.length = 16
  preds : t.preds.length = 16

variable {m} {r1 r2 : β} {t : Stage ε}

theorem extend_full (ht : Full t) (err : ε) (s : Nat) (b : Bool) : Full (t.extend m r1 r2 err s b) := by
  rw [Stage.extend]
  split
  · exact ⟨by rw [List.length_set, ht.errs], by rw [List.length_set, ht.preds]⟩
  · exact ht

theorem extendState_full (ht : Full t) (errs : List ε) (s : Nat) : Full (Stage.extendState m r1 r2 errs t s) := by
  rw [Stage.extendState]
  split
  · exact extend_full (extend_full ht _ _ _) _ _ _
  · exact ht

theorem getD_set_same {α : Type} {l : List α} {n : Nat} (h : n < l.length) (x d : α) : (l.set n x).getD n d = x := by
  rw [List.getD_eq_getElem _ _ (by rwa [List.length_set]), List.getElem_set_self]

theorem getD_set_other {α : Type} (l : List α) {k n : Nat} (h : k ≠ n) (x d : α) : (l.set k x).getD n d = l.getD n d := by
  rw [List.getD_eq_getElem?_getD, List.getElem?_set_ne h, ← List.getD_eq_getElem?_getD]

/-- An extension changes no state but the one it leads to. -/
theorem cell_extend_other (err : ε) {s n : Nat} {b : Bool} (h : nextState s b ≠ n) :
    cell m (t.extend m r1 r2 err s b) n = cell m t n := by
  rw [Stage.extend]
  split
  · exact congrArg₂ Prod.mk (getD_set_other _ h _ _) (getD_set_other _ h _ _)
  · rfl

/-- An extension replaces a worse path into the state it leads to (R378). -/
theorem cell_extend_same (ht : Full t) (err : ε) (s : Nat) (b : Bool) :
    cell m (t.extend m r1 r2 err s b) (nextState s b)
      = if m.lt (m.add err (m.branch (encOutput s b) r1 r2)) (cell m t (nextState s b)).1
        then (m.add err (m.branch (encOutput s b) r1 r2), s) else cell m t (nextState s b) := by
  have lt := nextState_lt s b
  by_cases less : m.lt (m.add err (m.branch (encOutput s b) r1 r2)) (cell m t (nextState s b)).1 = true
  · have replaced : t.extend m r1 r2 err s b = ⟨_, _⟩ := if_pos less
    rw [if_pos less, replaced]
    exact congrArg₂ _ (getD_set_same (ht.errs.symm ▸ lt) _ _) (getD_set_same (ht.preds.symm ▸ lt) _ _)
  · have kept : t.extend m r1 r2 err s b = t := if_neg less
    rw [if_neg less, kept]

/-- The edges into state `n`: from the states with its upper bits, by its lowest bit. -/
theorem nextState_eq_iff {s n : Nat} {b : Bool} (hn : n < 16) :
    nextState s b = n ↔ s % 8 = n / 2 ∧ b = decide (n % 2 = 1) := by
  cases b <;> simp [nextState] <;> omega

/-- Of the two extensions of a state with an edge into `n`, the one by the lowest bit of `n` reaches it. -/
theorem cell_extend_both (ht : Full t) (err : ε) {s n : Nat} (hn : n < 16) (edge : s % 8 = n / 2) :
    cell m ((t.extend m r1 r2 err s false).extend m r1 r2 err s true) n
      = if m.lt (m.add err (m.branch (encOutput s (decide (n % 2 = 1))) r1 r2)) (cell m t n).1
        then (m.add err (m.branch (encOutput s (decide (n % 2 = 1))) r1 r2), s) else cell m t n := by
  cases bit : decide (n % 2 = 1) with
  | false =>
    obtain rfl : nextState s false = n := (nextState_eq_iff hn).2 ⟨edge, bit.symm⟩
    have away : nextState s true ≠ nextState s false := fun e => by
      obtain ⟨-, one⟩ := (nextState_eq_iff hn).1 e
      rw [bit] at one
      cases one
    rw [cell_extend_other _ away, cell_extend_same ht]
  | true =>
    obtain rfl : nextState s true = n := (nextState_eq_iff hn).2 ⟨edge, bit.symm⟩
    have away : nextState s false ≠ nextState s true := fun e => by
      obtain ⟨-, zero⟩ := (nextState_eq_iff hn).1 e
      rw [bit] at zero
      cases zero
    rw [cell_extend_same (extend_full ht _ _ _), cell_extend_other _ away]

/-- A full stage is given by its cells. -/
theorem Full.eq_of_cells (ht : Full t) {g : Nat → ε × Nat} (h : ∀ n < 16, cell m t n = g n) :
    t = ⟨(List.range 16).map fun n => (g n).1, (List.range 16).map fun n => (g n).2⟩ := by
  obtain ⟨errs, preds⟩ := t
  have errsTable := eq_map_range_getD errs m.maxError ht.errs
  have predsTable := eq_map_range_getD preds 0 ht.preds
  rw [Stage.mk.injEq]
  exact ⟨errsTable.trans (List.map_congr_left fun n hn => congrArg Prod.fst (h n (List.mem_range.1 hn))),
    predsTable.trans (List.map_congr_left fun n hn => congrArg Prod.snd (h n (List.mem_range.1 hn)))⟩

/-- Extending state `s` relaxes its edge into `n`, if it has one. -/
theorem cell_extendState (ht : Full t) (errs : List ε) (s : Nat) {n : Nat} (hn : n < 16) :
    cell m (Stage.extendState m r1 r2 errs t s) n
      = if s % 8 = n / 2 then relax m (errs.getD · m.maxError) r1 r2 (decide (n % 2 = 1)) (cell m t n) s
        else cell m t n := by
  rw [Stage.extendState]
  split
  next reached =>
    by_cases edge : s % 8 = n / 2
    · rw [if_pos edge, cell_extend_both ht _ hn edge, relax, reached, Bool.true_and]
    · have away (b : Bool) : nextState s b ≠ n := fun e => by
        obtain ⟨upper, -⟩ := (nextState_eq_iff hn).1 e
        exact edge upper
      rw [if_neg edge, cell_extend_other _ (away true), cell_extend_other _ (away false)]
  next unreached =>
    have kept : relax m (errs.getD · m.maxError) r1 r2 (decide (n % 2 = 1)) (cell m t n) s = cell m t n :=
      if_neg fun both =>
        have ⟨reached, _⟩ := Bool.and_eq_true_iff.1 both
        unreached reached
    rw [kept, ite_self]

/-- The states with an edge into `n`, in the order in which the stage extends them. -/
theorem filter_edges {n : Nat} (hn : n < 16) : (List.range 16).filter (fun s => s % 8 = n / 2) = [n / 2, n / 2 + 8] := by
  revert n
  decide

/-- A stage leaves at state `n` the best of its two edges. -/
theorem cell_viterbiStage (errs : List ε) (r1 r2 : β) {n : Nat} (hn : n < 16) :
    cell m (viterbiStage m errs r1 r2) n
      = [n / 2, n / 2 + 8].foldl (relax m (errs.getD · m.maxError) r1 r2 (decide (n % 2 = 1))) (m.maxError, 0)
    ∧ Full (viterbiStage m errs r1 r2) := by
  rw [← filter_edges hn, List.foldl_filter, viterbiStage]
  refine List.foldl_rel (r := fun t best => cell m t n = best ∧ Full t) ⟨?_, List.length_replicate, List.length_replicate⟩ ?_
  · have entry {α : Type} (x : α) : (List.replicate 16 x).getD n x = x := List.getD_replicate _ hn
    exact congrArg₂ Prod.mk (entry _) (entry _)
  · rintro s - t best ⟨rfl, full⟩
    exact ⟨by simpa only [decide_eq_true_eq] using cell_extendState full errs s hn, extendState_full full errs s⟩

/-! ## All stages -/

variable (m) (r : Nat → β)

/-- The errors of the 16 states after `t` stages, as the list the decoder keeps. -/
def errsAt (t : Nat) : List ε := (List.range 16).map fun n => (trellis m r t n).1

/-- The predecessors stored by stage `t - 1`. -/
def predsAt (t : Nat) : List Nat := (List.range 16).map fun n => (trellis m r t n).2

theorem errsAt_getD (t : Nat) {n : Nat} (hn : n < 16) : (errsAt m r t).getD n m.maxError = (trellis m r t n).1 :=
  getD_map_range _ _ hn

theorem predsAt_getD (t : Nat) {n : Nat} (hn : n < 16) : (predsAt m r t).getD n 0 = (trellis m r t n).2 :=
  getD_map_range _ _ hn

/-- One stage of the decoder is one stage of the trellis. -/
theorem viterbiStage_errsAt (t : Nat) :
    viterbiStage m (errsAt m r t) (r (2 * t)) (r (2 * t + 1)) = ⟨errsAt m r (t + 1), predsAt m r (t + 1)⟩ := by
  obtain ⟨-, full⟩ := cell_viterbiStage (m := m) (errsAt m r t) (r (2 * t)) (r (2 * t + 1)) (Nat.zero_lt_succ 15)
  refine full.eq_of_cells (m := m) fun n hn => ?_
  obtain ⟨best, -⟩ := cell_viterbiStage (m := m) (errsAt m r t) (r (2 * t)) (r (2 * t + 1)) hn
  have lower := errsAt_getD m r t (n := n / 2) (by omega)
  have upper := errsAt_getD m r t (n := n / 2 + 8) (by omega)
  rw [best, trellis]
  simp only [List.foldl_cons, List.foldl_nil, relax, lower, upper]

/-- `n` pairs from stage `t` on: the errors after them, and their predecessors, the last stage first. -/
theorem viterbiStages_errsAt (t n : Nat) (hist : List (List Nat)) :
    viterbiStages m ((List.range' t n).map fun k => (r (2 * k), r (2 * k + 1))) (errsAt m r t) hist
      = (errsAt m r (t + n), ((List.range' (t + 1) n).map (predsAt m r)).reverse ++ hist) := by
  induction n generalizing t hist with
  | zero => rfl
  | succ n ih =>
    rw [List.range'_succ, List.map_cons, viterbiStages, viterbiStage_errsAt]
    dsimp only
    rw [ih, List.range'_succ, List.map_cons, List.reverse_cons, List.append_assoc, Nat.add_right_comm, Nat.add_assoc]
    rfl

/-- The received values in pairs. -/
theorem inPairs_map_range' (t n : Nat) :
    inPairs ((List.range' (2 * t) (2 * n)).map r) = (List.range' t n).map fun k => (r (2 * k), r (2 * k + 1)) := by
  induction n generalizing t with
  | zero => rfl
  | succ n ih =>
    rw [Nat.mul_succ, List.range'_succ, List.range'_succ, List.range'_succ, List.map_cons, List.map_cons,
      List.map_cons, inPairs, ← ih]
    rfl

/-! ## The final state and the traceback -/

/-- The final state of the decoder is the trellis's, and it is a state. -/
theorem bestState_errsAt : bestState m (errsAt m r 39) = finalState m r ∧ bestState m (errsAt m r 39) < 16 := by
  refine List.foldl_rel (r := fun a c => a = c ∧ a < 16) ⟨rfl, Nat.zero_lt_succ 15⟩ ?_
  rintro n hn a _ ⟨rfl, lt⟩
  obtain ⟨-, hi⟩ := List.mem_range'_1.1 hn
  rw [errsAt_getD m r 39 hi, errsAt_getD m r 39 lt]
  refine ⟨rfl, ?_⟩
  split
  · exact hi
  · exact lt

theorem finalState_lt : finalState m r < 16 := by
  obtain ⟨same, lt⟩ := bestState_errsAt m r
  exact same ▸ lt

/-- The predecessor stored for a state is a state. -/
theorem trellis_pred_lt (t : Nat) {n : Nat} (hn : n < 16) : (trellis m r t n).2 < 16 := by
  cases t with
  | zero => exact Nat.zero_lt_succ 15
  | succ t =>
    refine List.foldlRecOn (motive := fun best : ε × Nat => best.2 < 16) _ _ (Nat.zero_lt_succ 15) fun best lt p hp => ?_
    have pred : p < 16 := by
      rcases List.mem_pair.1 hp with rfl | rfl <;> omega
    rcases relax_cases m (fun p => (trellis m r t p).1) (r (2 * t)) (r (2 * t + 1)) (decide (n % 2 = 1)) best p with
      kept | ⟨replaced, -⟩
    · rwa [kept]
    · rwa [replaced]

theorem traceState_zero : traceState m r 0 = finalState m r := rfl

theorem traceState_lt (k : Nat) : traceState m r k < 16 := by
  cases k with
  | zero => exact finalState_lt m r
  | succ k => exact trellis_pred_lt m r _ (traceState_lt k)

/-- The traceback of `n` stages from the state `k` stages before the end gives the bits between the states traced. -/
theorem traceback_predsAt (k n : Nat) (out : List Nat) :
    traceback ((List.range' k n).map fun i => predsAt m r (39 - i)) (traceState m r k) out
      = ((List.range' k n).map fun i => prevNext (traceState m r (i + 1)) (traceState m r i)).reverse ++ out := by
  induction n generalizing k out with
  | zero => rfl
  | succ n ih =>
    rw [List.range'_succ, List.map_cons, traceback, predsAt_getD m r _ (traceState_lt m r k)]
    change traceback _ (traceState m r (k + 1)) _ = _
    rw [ih, List.map_cons, List.reverse_cons, List.append_assoc]
    rfl

theorem viterbiF_of_stages {rs : List β} {errs : List ε} {hist : List (List Nat)}
    (h : viterbiStages m (inPairs rs) (m.zero :: List.replicate 15 m.maxError) [] = (errs, hist)) :
    viterbiF m rs = ⟨traceback hist (bestState m errs) [], errs.getD (bestState m errs) m.maxError, bestState m errs⟩ := by
  rw [viterbiF, h]

/-- A table read from its end. -/
theorem reverse_map_range' {α : Type} (f : Nat → α) (a n : Nat) :
    ((List.range' a n).map f).reverse = (List.range n).map fun i => f (a + n - 1 - i) := by
  rw [← List.map_reverse, List.reverse_range', List.map_map]
  rfl

/-- All 39 stages, from the errors of the start. -/
theorem viterbiStages_all :
    viterbiStages m (inPairs ((List.range 78).map r)) (m.zero :: List.replicate 15 m.maxError) []
      = (errsAt m r 39, (List.range 39).map fun i => predsAt m r (39 - i)) := by
  have pairs := inPairs_map_range' r 0 39
  have stages := viterbiStages_errsAt m r 0 39 []
  rw [← pairs, reverse_map_range', List.append_nil, Nat.mul_zero, ← List.range_eq_range'] at stages
  exact stages

/-- `ViterbiF` over 78 received values, by the trellis (R378). -/
theorem viterbiF_eq :
    viterbiF m ((List.range 78).map r)
      = { out := (List.range 39).map fun k => prevNext (traceState m r (39 - k)) (traceState m r (38 - k))
          metric := (trellis m r 39 (finalState m r)).1
          state := finalState m r } := by
  obtain ⟨final, -⟩ := bestState_errsAt m r
  have bits := traceback_predsAt m r 0 39 []
  rw [traceState_zero, reverse_map_range', List.append_nil, ← List.range_eq_range'] at bits
  rw [viterbiF_of_stages m (viterbiStages_all m r), final, errsAt_getD m r 39 (finalState_lt m r)]
  rw [bits, ViterbiResult.mk.injEq]
  refine ⟨List.map_congr_left fun k hk => ?_, rfl, rfl⟩
  have lt := List.mem_range.1 hk
  have older : 0 + 39 - 1 - k + 1 = 39 - k := by omega
  have younger : 0 + 39 - 1 - k = 38 - k := by omega
  rw [older, younger]

theorem viterbiResult_eq_iff {v : ViterbiResult ε} {out : List Nat} {metric : ε} {state : Nat} :
    v = ⟨out, metric, state⟩ ↔ v.out = out ∧ v.metric = metric ∧ v.state = state := by
  cases v
  exact ViterbiResult.mk.injEq .. ▸ Iff.rfl

/-! ## Decoded bits -/

/-- Bit 0 of a decoded value says whether the edge is that of input 1 (log entry 22). -/
theorem prevNext_testBit_zero (p n : Nat) : (prevNext p n).testBit 0 = decide ((2 * p + 1) % 16 = n) := by
  rw [prevNext]
  split
  next zero =>
    have even : ¬ (2 * p + 1) % 16 = n := by
      simp only [nextState, Bool.toNat_false] at zero
      omega
    exact (decide_eq_false even).symm
  next =>
    split
    next one => exact (decide_eq_true one).symm
    next other => exact (decide_eq_false other).symm

/-- The words the decoders store: the bits of the path traced back. -/
theorem decodedWords_viterbiF :
    decodedWords (viterbiF m ((List.range 78).map r)).out
      = bitVec 39 fun k => decide ((2 * traceState m r (39 - k) + 1) % 16 = traceState m r (38 - k)) := by
  obtain ⟨out, -, -⟩ := viterbiResult_eq_iff.1 (viterbiF_eq m r)
  rw [out, decodedWords, bitVec, List.map_map]
  exact List.map_congr_left fun k _ => by
    rw [Function.comp_apply, prevNext_testBit_zero]
    rfl

end

end Sys2Proof.Proofs

/-!
PROOFS. `VITERBI_HARD` and `VITERBI_SOFT` (44_sch_decoder.md R372, R378-R382): both trellises of the Spec are the one of the
decoder, with the metric written out on the sums of the generators.
-/
namespace Sys2Proof.Proofs

open Sys2Proof.Machine Sys2Proof.Spec

/-! ## Edge outputs as sums (R372) -/

theorem decide_odd_add (a c : Nat) : decide ((a + c) % 2 = 1) = xor (decide (a % 2 = 1)) (decide (c % 2 = 1)) := by
  rcases Nat.mod_two_eq_zero_or_one a with ha | ha <;> rcases Nat.mod_two_eq_zero_or_one c with hc | hc <;>
    simp [Nat.add_mod, ha, hc]

theorem codeG0_eq_odd (p b : Nat) :
    codeG0 p (decide (b % 2 = 1)) = decide ((b + p / 2 ^ 2 + p / 2 ^ 3) % 2 = 1) := by
  rw [codeG0, decide_odd_add, decide_odd_add, Nat.testBit_eq_decide_div_mod_eq, Nat.testBit_eq_decide_div_mod_eq,
    Bool.xor_assoc]

theorem codeG1_eq_odd (p b : Nat) :
    codeG1 p (decide (b % 2 = 1)) = decide ((b + p / 2 ^ 0 + p / 2 ^ 2 + p / 2 ^ 3) % 2 = 1) := by
  rw [codeG1, decide_odd_add, decide_odd_add, decide_odd_add, Nat.testBit_eq_decide_div_mod_eq,
    Nat.testBit_eq_decide_div_mod_eq, Nat.testBit_eq_decide_div_mod_eq, Bool.xor_assoc, Bool.xor_assoc]

theorem encOutput_testBit (p : Nat) (b : Bool) :
    (encOutput p b).testBit 1 = codeG0 p b ∧ (encOutput p b).testBit 0 = codeG1 p b := by
  rw [encOutput]
  cases codeG0 p b <;> cases codeG1 p b <;> exact ⟨rfl, rfl⟩

/-- The two code bits of the edge into state `n` out of state `p`, as sums of the generators. -/
theorem encOutput_testBit_odd (p n : Nat) :
    (encOutput p (decide (n % 2 = 1))).testBit 1 = decide ((n % 2 + p / 2 ^ 2 + p / 2 ^ 3) % 2 = 1)
    ∧ (encOutput p (decide (n % 2 = 1))).testBit 0 = decide ((n % 2 + p / 2 ^ 0 + p / 2 ^ 2 + p / 2 ^ 3) % 2 = 1) := by
  obtain ⟨high, low⟩ := encOutput_testBit p (decide (n % 2 = 1))
  rw [← codeG0_eq_odd, ← codeG1_eq_odd, Nat.mod_mod]
  exact ⟨high, low⟩

/-- A bit against an odd sum, as a number. -/
theorem add_toNat_mod_two (k : Nat) (b : Bool) : (k + b.toNat) % 2 = (xor (decide (k % 2 = 1)) b).toNat := by
  rcases Nat.mod_two_eq_zero_or_one k with hk | hk <;> cases b <;> simp [Nat.add_mod, hk]

/-! ## The hard trellis -/

theorem hardMetric_branch (o : Nat) (r1 r2 : Bool) :
    hardMetric.branch o r1 r2 = (xor (o.testBit 1) r1).toNat + (xor (o.testBit 0) r2).toNat := rfl

theorem hardMetric_lt (a b : Nat) : (hardMetric.lt a b = true) = (a < b) := decide_eq_true_eq

theorem hardMetric_add (a b : Nat) : hardMetric.add a b = a + b := rfl

theorem hardMetric_maxError : hardMetric.maxError = 79 := rfl

/-- The hard metric of an edge (R379). -/
theorem hardBranch_eq (p n : Nat) (r1 r2 : Bool) :
    hardBranch p (n % 2) r1 r2 = hardMetric.branch (encOutput p (decide (n % 2 = 1))) r1 r2 := by
  obtain ⟨high, low⟩ := encOutput_testBit_odd p n
  rw [hardMetric_branch, high, low, hardBranch, add_toNat_mod_two, add_toNat_mod_two]

theorem hardTrellis_eq (r : Nat → Bool) (t n : Nat) : hardTrellis r t n = trellis hardMetric r t n := by
  induction t generalizing n with
  | zero => rfl
  | succ t ih =>
    rw [hardTrellis, trellis]
    simp only [List.foldl_cons, List.foldl_nil, relax, ih, hardBranch_eq, Bool.and_eq_true, hardMetric_lt, hardMetric_add,
      hardMetric_maxError]

theorem hardFinal_eq (r : Nat → Bool) : hardFinal r = finalState hardMetric r := by
  simp only [hardFinal, finalState, hardTrellis_eq, hardMetric_lt]

theorem hardTrace_eq (r : Nat → Bool) (k : Nat) : hardTrace r k = traceState hardMetric r k := by
  induction k with
  | zero => exact hardFinal_eq r
  | succ k ih => rw [hardTrace, traceState, ih, hardTrellis_eq]

theorem hardBit_eq (r : Nat → Bool) (k : Nat) :
    hardBit r k
      = decide ((2 * traceState hardMetric r (39 - k) + 1) % 16 = traceState hardMetric r (38 - k)) := by
  rw [hardBit, hardTrace_eq, hardTrace_eq]

/-! ## The soft trellis -/

/-- A code bit as a binary32 value (R379). -/
theorem flt_odd (k : Nat) : (if k % 2 = 1 then 0x3F800000#32 else 0#32) = F32.ofBit (decide (k % 2 = 1)) :=
  if_congr decide_eq_true_iff.symm rfl rfl

theorem softMetric_branch (o : Nat) (r1 r2 : F32) :
    softMetric.branch o r1 r2
      = F32.add (F32.abs (F32.sub (F32.ofBit (o.testBit 1)) r1)) (F32.abs (F32.sub (F32.ofBit (o.testBit 0)) r2)) := rfl

theorem softMetric_lt : softMetric.lt = F32.lt := rfl

theorem softMetric_add : softMetric.add = F32.add := rfl

theorem softMetric_maxError : softMetric.maxError = 0x429E0000#32 := rfl

/-- The soft metric of an edge (R379). -/
theorem softBranch_eq (p n : Nat) (r1 r2 : F32) :
    softBranch p (n % 2) r1 r2 = softMetric.branch (encOutput p (decide (n % 2 = 1))) r1 r2 := by
  obtain ⟨high, low⟩ := encOutput_testBit_odd p n
  rw [softMetric_branch, high, low]
  simp only [softBranch, flt_odd]

theorem softTrellis_eq (r : Nat → F32) (t n : Nat) : softTrellis r t n = trellis softMetric r t n := by
  induction t generalizing n with
  | zero => rfl
  | succ t ih =>
    rw [softTrellis, trellis]
    simp only [List.foldl_cons, List.foldl_nil, relax, ih, softBranch_eq]
    rw [softMetric_lt, softMetric_add, softMetric_maxError]

theorem softFinal_eq (r : Nat → F32) : softFinal r = finalState softMetric r := by
  simp only [softFinal, finalState, softTrellis_eq]
  rw [softMetric_lt]

theorem softTrace_eq (r : Nat → F32) (k : Nat) : softTrace r k = traceState softMetric r k := by
  induction k with
  | zero => exact softFinal_eq r
  | succ k ih => rw [softTrace, traceState, ih, softTrellis_eq]

theorem softBit_eq (r : Nat → F32) (k : Nat) :
    softBit r k
      = decide ((2 * traceState softMetric r (39 - k) + 1) % 16 = traceState softMetric r (38 - k)) := by
  rw [softBit, softTrace_eq, softTrace_eq]

/-! ## `VITERBI_HARD` -/

/-- The 78 gathered values, in order, as a table. -/
theorem gather_eq_table {β : Type} {rd : Nat → Rd β} {r : Nat → β} {x : Bool} (h : ∀ k ∈ gathered x, rd k = .ok (r k)) :
    gather rd x = .ok ((List.range 78).map fun n => r ((gathered x).getD n 0)) := by
  rw [gather_eq h, map_eq_map_range, gathered_length]

theorem natWord_eq_ofNat (n : Nat) : natWord n = BitVec.ofNat 32 n := rfl

theorem viterbiHardEffect_eq {x : Bool} {s : State} {r : Nat → Bool} (h : BitOn s.mem (s.argN 0) (gathered x) r) :
    viterbiHardEffect x s = .ok
      (let q := fun n => r ((gathered x).getD n 0)
       { stores := [(s.argN 1, bitVec 39 (hardBit q))]
         results := [(0, BitVec.ofNat 32 (hardTrellis q 39 (hardFinal q)).1), (1, BitVec.ofNat 32 (hardFinal q))] }) := by
  rw [viterbiHardEffect, gather_eq_table fun k hk => bread_ok (h k hk), Rd.ok_bind]
  have bits : (hardBit fun n => r ((gathered x).getD n 0)) = _ := funext (hardBit_eq _)
  dsimp only
  obtain ⟨-, metric, state⟩ := viterbiResult_eq_iff.1 (viterbiF_eq hardMetric fun n => r ((gathered x).getD n 0))
  rw [decodedWords_viterbiF, bits, metric, state, hardTrellis_eq, hardFinal_eq, natWord_eq_ofNat, natWord_eq_ofNat]

/-- Settles O55: the checks, and the decoder's trellis by `viterbiF_eq`. -/
theorem viterbiHard : Obligations.ViterbiHard := fun _ =>
  ⟨reportsErrors_of_ne_viterbiSoft nofun, fun _ _ hc h =>
    completes_of_error_none nofun hc (viterbiHardEffect_eq h) (le_refl 1)⟩

/-! ## `VITERBI_SOFT` -/

theorem viterbiSoftEffect_eq {x : Bool} {s : State} {r : Nat → F32} (h : RealOn s.mem (s.argN 0) (gathered x) r) :
    viterbiSoftEffect x s = .ok
      (let q := fun n => r ((gathered x).getD n 0)
       { stores := [(s.argN 1, bitVec 39 (softBit q))]
         results := [(0, (softTrellis q 39 (softFinal q)).1), (1, BitVec.ofNat 32 (softFinal q))] }) := by
  rw [viterbiSoftEffect, gather_eq_table fun k hk => rread_ok (h k hk), Rd.ok_bind]
  have bits : (softBit fun n => r ((gathered x).getD n 0)) = _ := funext (softBit_eq _)
  dsimp only
  obtain ⟨-, metric, state⟩ := viterbiResult_eq_iff.1 (viterbiF_eq softMetric fun n => r ((gathered x).getD n 0))
  rw [decodedWords_viterbiF, bits, metric, state, softTrellis_eq, softFinal_eq, natWord_eq_ofNat]

/-- A failing check on registers is reported before DMEM is read (R382). -/
theorem viterbiSoft_reportsErrors (x : Bool) : ReportsErrors (.viterbiSoft x) := by
  intro s c hc
  obtain ⟨-, registers⟩ := viterbiChecks_eq_error x s
  have reported : checksOf (.viterbiSoft x) s = .ok (some c) := by
    change viterbiSoftChecks x s = _
    rw [viterbiSoftChecks, registers, hc]
  rw [exec_eq_perform, perform_of_error reported]
  rfl

/-- Once the checks on registers pass, the checks are the DATA check on the gathered values (R382). -/
theorem viterbiSoftChecks_eq {x : Bool} {s : State} {r : Nat → F32} (hc : Spec.error (.viterbiSoft x) s = none)
    (h : RealOn s.mem (s.argN 0) (gathered x) r) :
    checksOf (.viterbiSoft x) s
      = if ((gathered x).map r).all softInRange then .ok none else .ok (some .data) := by
  obtain ⟨-, registers⟩ := viterbiChecks_eq_error x s
  change viterbiSoftChecks x s = _
  rw [viterbiSoftChecks, registers, hc]
  dsimp only
  rw [gather_eq fun k hk => rread_ok (h k hk), Rd.ok_bind]

/-- Settles O56: a gathered value out of range fails the DATA check; else the decoder's trellis by `viterbiF_eq`. -/
theorem viterbiSoft : Obligations.ViterbiSoft := by
  refine fun x => ⟨viterbiSoft_reportsErrors x, fun s r hc h => ⟨fun ⟨k, hk, out⟩ => ?_, fun inRange => ?_⟩⟩
  · have fails : ¬ ((gathered x).map r).all softInRange = true := fun all => by
      have passes := List.all_eq_true.1 all (r k) (List.mem_map_of_mem hk)
      exact absurd (passes.symm.trans out) (by decide)
    rw [exec_eq_perform, perform_of_error ((viterbiSoftChecks_eq hc h).trans (if_neg fails))]
    rfl
  · have passes : ((gathered x).map r).all softInRange = true := by
      refine List.all_eq_true.2 fun v hv => ?_
      obtain ⟨k, hk, rfl⟩ := List.mem_map.1 hv
      exact inRange k hk
    exact completes_of_effect ((viterbiSoftChecks_eq hc h).trans (if_pos passes)) (viterbiSoftEffect_eq h)
      (List.pairwise_singleton _ _)

end Sys2Proof.Proofs

/-!
PROOFS. The hard decoder is a maximum-likelihood decoder (44_sch_decoder.md R378, R379): the trellis never exceeds the cost of a
path into its state, and the path traced back attains it. So it undoes the encoder (R376, R381).
-/
namespace Sys2Proof.Proofs

open Sys2Proof.Machine Sys2Proof.Spec

/-! ## The cost of a path -/

/-- The Hamming distance of the first `t` pairs of code bits of `u` from the received bits (R379). -/
def pathCost (u r : Nat → Bool) : (t : Nat) → Nat
  | 0 => 0
  | t + 1 => pathCost u r t + hardMetric.branch (encOutput (pathState u t) (u t)) (r (2 * t)) (r (2 * t + 1))

/-- The metric of a path's edge counts the code bits that differ. -/
theorem branch_pathState (u r : Nat → Bool) (t : Nat) :
    hardMetric.branch (encOutput (pathState u t) (u t)) (r (2 * t)) (r (2 * t + 1))
      = (xor (codeBit u (2 * t)) (r (2 * t))).toNat + (xor (codeBit u (2 * t + 1)) (r (2 * t + 1))).toNat := by
  obtain ⟨high, low⟩ := encOutput_testBit (pathState u t) (u t)
  rw [hardMetric_branch, high, low, codeG0_pathState, codeG1_pathState]

/-- The count of differing bits among the first `n + 1`. -/
theorem length_filter_range_succ (p : Nat → Bool) (n : Nat) :
    ((List.range (n + 1)).filter p).length = ((List.range n).filter p).length + (p n).toNat := by
  rw [List.range_succ, List.filter_append, List.length_append]
  cases h : p n <;> simp [h]

theorem pathCost_eq_length (u r : Nat → Bool) (t : Nat) :
    pathCost u r t = ((List.range (2 * t)).filter fun n => codeBit u n != r n).length := by
  induction t with
  | zero => rfl
  | succ t ih =>
    rw [pathCost, ih, branch_pathState, Nat.mul_succ, length_filter_range_succ, length_filter_range_succ, Nat.add_assoc]

theorem distance_eq_pathCost (u r : Nat → Bool) : distance u r = pathCost u r 39 := (pathCost_eq_length u r 39).symm

theorem pathCost_le (u r : Nat → Bool) (t : Nat) : pathCost u r t ≤ 2 * t := by
  rw [pathCost_eq_length]
  exact (List.length_filter_le _ _).trans_eq List.length_range

/-! ## No path is cheaper than the trellis -/

section
variable (errs : Nat → Nat) (r1 r2 b : Bool)

/-- Relaxing an edge gives at most the error found so far, and at most the error by that edge. -/
theorem relax_hard_le (best : Nat × Nat) (p : Nat) :
    (relax hardMetric errs r1 r2 b best p).1 ≤ best.1
    ∧ (best.1 ≤ 79 →
      (relax hardMetric errs r1 r2 b best p).1 ≤ errs p + hardMetric.branch (encOutput p b) r1 r2) := by
  simp only [relax, Bool.and_eq_true, hardMetric_lt, hardMetric_add, hardMetric_maxError]
  split
  next less =>
    obtain ⟨-, less⟩ := less
    exact ⟨Nat.le_of_lt less, fun _ => Nat.le_refl _⟩
  next notLess => exact ⟨Nat.le_refl _, fun _ => by omega⟩

theorem foldl_relax_hard_le (best : Nat × Nat) (ps : List Nat) :
    (ps.foldl (relax hardMetric errs r1 r2 b) best).1 ≤ best.1
    ∧ (best.1 ≤ 79 → ∀ p ∈ ps,
      (ps.foldl (relax hardMetric errs r1 r2 b) best).1 ≤ errs p + hardMetric.branch (encOutput p b) r1 r2) := by
  induction ps generalizing best with
  | nil => exact ⟨Nat.le_refl _, fun _ _ hp => nomatch hp⟩
  | cons p ps ih =>
    obtain ⟨first, byEdge⟩ := relax_hard_le errs r1 r2 b best p
    obtain ⟨rest, byRest⟩ := ih (relax hardMetric errs r1 r2 b best p)
    refine ⟨rest.trans first, fun h q hq => ?_⟩
    rcases List.mem_cons.1 hq with rfl | hq
    · exact rest.trans (byEdge h)
    · exact byRest (first.trans h) q hq

end

/-- The two states with an edge into `n`. -/
theorem mem_edges_iff {p n : Nat} (hp : p < 16) (hn : n < 16) : p ∈ [n / 2, n / 2 + 8] ↔ p % 8 = n / 2 := by
  rw [List.mem_pair]
  omega

/-- The error of a state is at most the cost of any path into it. -/
theorem trellis_le_pathCost (u r : Nat → Bool) (t : Nat) :
    (trellis hardMetric r t (pathState u t)).1 ≤ pathCost u r t := by
  induction t with
  | zero => exact Nat.le_refl 0
  | succ t ih =>
    obtain ⟨edge, bit⟩ := (nextState_eq_iff (s := pathState u t) (b := u t) (pathState_lt u (t + 1))).1 rfl
    have pred := (mem_edges_iff (pathState_lt u t) (pathState_lt u (t + 1))).2 edge
    obtain ⟨-, byEdge⟩ := foldl_relax_hard_le (fun p => (trellis hardMetric r t p).1) (r (2 * t)) (r (2 * t + 1)) (u t)
      (79, 0) [pathState u (t + 1) / 2, pathState u (t + 1) / 2 + 8]
    have least := byEdge (Nat.le_refl 79) _ pred
    rw [trellis, ← bit, hardMetric_maxError, pathCost]
    omega

/-! ## The path traced back -/

/-- A best edge is the one at the start, or that of a reached predecessor. -/
theorem foldl_relax_cases {β ε : Type} (m : Metric β ε) (errs : Nat → ε) (r1 r2 : β) (b : Bool) (best : ε × Nat)
    (ps : List Nat) :
    ps.foldl (relax m errs r1 r2 b) best = best
    ∨ ∃ p ∈ ps, m.lt (errs p) m.maxError = true
      ∧ ps.foldl (relax m errs r1 r2 b) best = (m.add (errs p) (m.branch (encOutput p b) r1 r2), p) := by
  induction ps generalizing best with
  | nil => exact .inl rfl
  | cons p ps ih =>
    rw [List.foldl_cons]
    rcases ih (relax m errs r1 r2 b best p) with kept | ⟨q, hq, reached, replaced⟩
    · rw [kept]
      rcases relax_cases m errs r1 r2 b best p with kept | ⟨replaced, reached, -⟩
      · exact .inl kept
      · exact .inr ⟨p, List.mem_cons_self, reached, replaced⟩
    · exact .inr ⟨q, List.mem_cons_of_mem _ hq, reached, replaced⟩

/-- The error of a reached state is that of its predecessor, which is reached, and of the edge between them. -/
theorem trellis_hard_pred {r : Nat → Bool} {t n : Nat} (h : (trellis hardMetric r (t + 1) n).1 < 79) :
    let p := (trellis hardMetric r (t + 1) n).2
    p ∈ [n / 2, n / 2 + 8] ∧ (trellis hardMetric r t p).1 < 79
    ∧ (trellis hardMetric r (t + 1) n).1
      = (trellis hardMetric r t p).1
        + hardMetric.branch (encOutput p (decide (n % 2 = 1))) (r (2 * t)) (r (2 * t + 1)) := by
  rw [trellis] at h ⊢
  rcases foldl_relax_cases hardMetric (fun p => (trellis hardMetric r t p).1) (r (2 * t)) (r (2 * t + 1))
    (decide (n % 2 = 1)) (hardMetric.maxError, 0) [n / 2, n / 2 + 8] with kept | ⟨p, hp, reached, replaced⟩
  · rw [kept] at h
    exact absurd h (Nat.lt_irrefl 79)
  · rw [replaced]
    exact ⟨hp, (hardMetric_lt _ _).mp reached, rfl⟩

/-- The final state has the least error. -/
theorem foldl_argmin_le (f : Nat → Nat) (a : Nat) (ns : List Nat) :
    f (ns.foldl (fun b n => if f n < f b then n else b) a) ≤ f a
    ∧ ∀ n ∈ ns, f (ns.foldl (fun b n => if f n < f b then n else b) a) ≤ f n := by
  induction ns generalizing a with
  | nil => exact ⟨Nat.le_refl _, fun _ hn => nomatch hn⟩
  | cons k ns ih =>
    obtain ⟨start, rest⟩ := ih (if f k < f a then k else a)
    have both : f (if f k < f a then k else a) ≤ f a ∧ f (if f k < f a then k else a) ≤ f k := by
      split <;> omega
    obtain ⟨toStart, toFirst⟩ := both
    refine ⟨start.trans toStart, fun n hn => ?_⟩
    rcases List.mem_cons.1 hn with rfl | hn
    · exact start.trans toFirst
    · exact rest n hn

theorem trellis_finalState_le (r : Nat → Bool) {n : Nat} (hn : n < 16) :
    (trellis hardMetric r 39 (finalState hardMetric r)).1 ≤ (trellis hardMetric r 39 n).1 := by
  obtain ⟨start, rest⟩ := foldl_argmin_le (fun n => (trellis hardMetric r 39 n).1) 0 (List.range' 1 15)
  simp only [finalState, hardMetric_lt]
  cases n with
  | zero => exact start
  | succ n => exact rest (n + 1) (List.mem_range'_1.2 ⟨Nat.le_add_left 1 n, by omega⟩)

/-- The final error is at most the cost of every path. -/
theorem trellis_finalState_le_pathCost (u r : Nat → Bool) :
    (trellis hardMetric r 39 (finalState hardMetric r)).1 ≤ pathCost u r 39 :=
  (trellis_finalState_le r (pathState_lt u 39)).trans (trellis_le_pathCost u r 39)

/-- Every state traced back is reached. -/
theorem trellis_traceState_lt (r : Nat → Bool) {k : Nat} (hk : k ≤ 39) :
    (trellis hardMetric r (39 - k) (traceState hardMetric r k)).1 < 79 := by
  induction k with
  | zero =>
    have least := trellis_finalState_le_pathCost (fun _ => false) r
    have bound := pathCost_le (fun _ => false) r 39
    rw [traceState_zero, Nat.sub_zero]
    omega
  | succ k ih =>
    have reached := ih (by omega)
    rw [show 39 - k = 39 - (k + 1) + 1 by omega] at reached
    obtain ⟨-, pred, -⟩ := trellis_hard_pred reached
    rwa [traceState, show 39 - k = 39 - (k + 1) + 1 by omega]

/-- Only state 0 is reached at the start. -/
theorem trellis_hard_zero {r : Nat → Bool} {n : Nat} (h : (trellis hardMetric r 0 n).1 < 79) :
    n = 0 ∧ (trellis hardMetric r 0 n).1 = 0 := by
  rw [trellis] at h ⊢
  split at h
  next zero => exact ⟨zero, if_pos zero⟩
  next => exact absurd h (Nat.lt_irrefl 79)

/-- Before the end of the trace: the state `k` stages from the start is a predecessor of the next one, whose error is that of
the edge more. -/
theorem traceState_edge (r : Nat → Bool) {k : Nat} (hk : k < 39) :
    traceState hardMetric r (39 - k) % 8 = traceState hardMetric r (38 - k) / 2
    ∧ (trellis hardMetric r (k + 1) (traceState hardMetric r (38 - k))).1
      = (trellis hardMetric r k (traceState hardMetric r (39 - k))).1
        + hardMetric.branch (encOutput (traceState hardMetric r (39 - k))
            (decide (traceState hardMetric r (38 - k) % 2 = 1))) (r (2 * k)) (r (2 * k + 1)) := by
  have reached := trellis_traceState_lt r (k := 38 - k) (by omega)
  rw [show 39 - (38 - k) = k + 1 by omega] at reached
  have before : traceState hardMetric r (39 - k)
      = (trellis hardMetric r (k + 1) (traceState hardMetric r (38 - k))).2 := by
    rw [show 39 - k = 38 - k + 1 by omega, traceState, show 39 - (38 - k) = k + 1 by omega]
  obtain ⟨pred, -, error⟩ := trellis_hard_pred reached
  rw [← before] at pred error
  exact ⟨(mem_edges_iff (traceState_lt _ _ _) (traceState_lt _ _ _)).1 pred, error⟩

/-- The decoded bit leads from the state before its stage to the state after it, and is that state's newest bit. -/
theorem hardBit_spec (r : Nat → Bool) {k : Nat} (hk : k < 39) :
    hardBit r k = decide (traceState hardMetric r (38 - k) % 2 = 1)
    ∧ nextState (traceState hardMetric r (39 - k)) (hardBit r k) = traceState hardMetric r (38 - k)
    ∧ prevNext (traceState hardMetric r (39 - k)) (traceState hardMetric r (38 - k)) = (hardBit r k).toNat := by
  obtain ⟨edge, -⟩ := traceState_edge r hk
  have lt := traceState_lt hardMetric r (38 - k)
  have newest : hardBit r k = decide (traceState hardMetric r (38 - k) % 2 = 1) := by
    rw [hardBit_eq, decide_eq_decide]
    omega
  refine ⟨newest, (nextState_eq_iff lt).2 ⟨edge, newest⟩, ?_⟩
  rw [newest, prevNext]
  simp only [nextState_eq_iff lt, edge, true_and]
  cases decide (traceState hardMetric r (38 - k) % 2 = 1) <;> rfl

/-- The path of the decoded bits passes through the states traced back, and its cost is their error. -/
theorem pathState_hardBit (r : Nat → Bool) {k : Nat} (hk : k ≤ 39) :
    pathState (hardBit r) k = traceState hardMetric r (39 - k)
    ∧ pathCost (hardBit r) r k = (trellis hardMetric r k (traceState hardMetric r (39 - k))).1 := by
  induction k with
  | zero =>
    obtain ⟨state, error⟩ := trellis_hard_zero (trellis_traceState_lt r (Nat.le_refl 39))
    exact ⟨state.symm, error.symm⟩
  | succ k ih =>
    obtain ⟨state, cost⟩ := ih (by omega)
    obtain ⟨newest, next, -⟩ := hardBit_spec r hk
    obtain ⟨-, error⟩ := traceState_edge r hk
    have stage : 39 - (k + 1) = 38 - k := by omega
    rw [stage, pathState, pathCost, state, cost, next, error, newest]
    exact ⟨rfl, rfl⟩

/-- Settles O57: the decoded bits are a path whose cost is the final error (`pathState_hardBit`), and no path is below it
(`trellis_finalState_le_pathCost`). -/
theorem hardDecoderFindsANearestPath : Obligations.HardDecoderFindsANearestPath := by
  intro r
  obtain ⟨out, metric, state⟩ := viterbiResult_eq_iff.1 (viterbiF_eq hardMetric r)
  obtain ⟨last, cost⟩ := pathState_hardBit r (Nat.le_refl 39)
  rw [Nat.sub_self, traceState_zero] at last cost
  refine ⟨hardBit r, ?_, ?_, fun u' => ?_, ?_, ?_, fun _ _ => rfl⟩
  · rw [out]
    refine List.map_congr_left fun k hk => ?_
    obtain ⟨-, -, bit⟩ := hardBit_spec r (List.mem_range.1 hk)
    exact bit
  · rw [metric, distance_eq_pathCost, cost]
  · rw [metric, distance_eq_pathCost]
    exact trellis_finalState_le_pathCost u' r
  · rw [state, ← last]
    exact pathState_add_four (hardBit r) 35
  · rw [state, hardFinal_eq]

/-! ## The decoder undoes the encoder -/

theorem codeG0_injective (s : Nat) : Function.Injective (codeG0 s) := fun _ _ h => Bool.xor_left_inj.1 h

/-- Code bits determine the input: with the same state, g0 gives the next bit. -/
theorem eq_of_codeBit_eq {u v : Nat → Bool} {n : Nat} (h : ∀ i < 2 * n, codeBit u i = codeBit v i) {k : Nat} (hk : k < n) :
    pathState u k = pathState v k ∧ u k = v k := by
  have bit {j : Nat} (hj : j < n) (states : pathState u j = pathState v j) : u j = v j := by
    have code := h (2 * j) (by omega)
    rw [← codeG0_pathState, ← codeG0_pathState, states] at code
    exact codeG0_injective _ code
  induction k with
  | zero => exact ⟨rfl, bit hk rfl⟩
  | succ k ih =>
    obtain ⟨before, last⟩ := ih (by omega)
    have states : pathState u (k + 1) = pathState v (k + 1) := by rw [pathState, pathState, before, last]
    exact ⟨states, bit hk states⟩

/-- Distance 0 means that all 78 code bits are the received ones. -/
theorem distance_eq_zero_iff {u r : Nat → Bool} : distance u r = 0 ↔ ∀ n < 78, codeBit u n = r n := by
  simp [distance]

/-- Settles O58: the nearest path is at distance 0 from the code bits, so it is the encoded one. -/
theorem decoderInvertsEncoder : Obligations.DecoderInvertsEncoder := by
  intro block hb
  have tailed := eq_map_range_getD (block ++ List.replicate 4 false) false (n := 39) (by simp [hb])
  generalize hu : (fun k => (block ++ List.replicate 4 false).getD k false) = u at tailed
  obtain ⟨v, out, metric, nearest, state, -⟩ := hardDecoderFindsANearestPath (codeBit u)
  have zero : distance u (codeBit u) = 0 := distance_eq_zero_iff.2 fun _ _ => rfl
  have attained : distance v (codeBit u) = 0 := by
    have le := nearest u
    omega
  have same : ∀ k < 39, v k = u k := fun k hk => by
    obtain ⟨-, bit⟩ := eq_of_codeBit_eq (distance_eq_zero_iff.1 attained) hk
    exact bit
  have tail : ∀ k, 35 ≤ k → k < 39 → v k = false := fun k lo hi => by
    rw [same k hi, ← hu]
    dsimp only
    rw [List.getD_append_right _ _ _ _ (hb.symm ▸ lo), List.getD_replicate _ (by omega)]
  rw [convEncodeF_eq tailed, tailed, viterbiResult_eq_iff, out, metric, attained, state, List.map_map,
    tail 35 (by decide) (by decide), tail 36 (by decide) (by decide), tail 37 (by decide) (by decide),
    tail 38 (by decide) (by decide)]
  exact ⟨List.map_congr_left fun k hk => congrArg Bool.toNat (same k (List.mem_range.1 hk)), rfl, rfl⟩

end Sys2Proof.Proofs

/-!
PROOFS. What a host access leaves in STATUS, said once, with the offset that each change needs (10_state.md R57, R58, R60;
20_memory.md R107, R112; 60_exceptions.md R431, R432; 70_reset_and_hazards.md R452).
-/
namespace Sys2Proof.Proofs

open Sys2Proof.Machine Sys2Proof.Spec

/-! ## Bus errors (R107, R431) -/

/-- Settles O17: such an access is not `accessOk`, so it is answered before its target is looked at. -/
theorem busErrorsChangeNothing : Obligations.BusErrorsChangeNothing := by
  intro s wd off wrong
  have ok : accessOk wd off = false := by
    rw [Bool.eq_false_iff, Ne, accessOk_iff]
    tauto
  refine ⟨?_, fun w => ?_⟩
  · rw [hostAccess, hostRead, ok]
    rfl
  · rw [hostAccess, hostWrite, ok]
    rfl

/-! ## STATUS after a host access -/

/-- STATUS and CMD are written by a 32-bit write at their one offset each. -/
theorem eq_status_offset {c : Config} {off : BitVec 25} (h : targetAt c off.toNat = .reg .status) : off = 0x00C#25 := by
  obtain ⟨-, status, -⟩ := targetAt_offset (c := c) (off := off.toNat)
  exact BitVec.eq_of_toNat_eq (status h)

theorem eq_cmd_offset {c : Config} {off : BitVec 25} (h : targetAt c off.toNat = .reg .cmd) : off = 0x010#25 := by
  obtain ⟨-, -, cmd⟩ := targetAt_offset (c := c) (off := off.toNat)
  exact BitVec.eq_of_toNat_eq (cmd h)

/-- What an aligned offset names is refused only at the offsets the register map marks, however many pulse samples the
configuration has. -/
theorem refusedWhileBusy_of_busyRefused {c : Config} {off : Nat} (hal : off % 4 = 0)
    (h : (targetAt c off).busyRefused = true) : refusedWhileBusy c off = true := by
  cases target : targetAt c off with
  | dmem a =>
    obtain ⟨rfl, inside⟩ := (targetAt_eq_dmem hal).1 target
    simp only [refusedWhileBusy, Bool.or_eq_true, decide_eq_true_eq]
    omega
  | reg r =>
    rw [target] at h
    by_cases block : off < 0x1000
    · rw [targetAt, if_pos block] at target
      rw [← regAt_busyRefused hal block, Target.reg.inj target]
      exact h
    · have reserved : r = .reserved := by
        by_contra held
        rw [targetAt, if_neg block] at target
        split at target
        case isTrue => cases target
        case isFalse => exact held (Target.reg.inj target).symm
      subst reserved
      cases h

/-- STATUS after a host access that answers a next state, and the access that each change takes. -/
inductive StatusAfter (s : State) (acc : Access) : Status → Prop
  | same : StatusAfter s acc s.status
  | refused {off : BitVec 25} (hacc : acc = .read .w32 off ∨ ∃ w, acc = .write .w32 off w) (aligned : off.toNat % 4 = 0)
      (busy : s.status.busy = true) (marked : refusedWhileBusy s.cfg off.toNat = true) :
      StatusAfter s acc { s.status with accViol := true }
  | cleared {w : Word} (hacc : acc = .write .w32 0x00C#25 w) : StatusAfter s acc (s.status.writeOneToClear w)
  | lost {w : Word} (hacc : acc = .write .w32 0x010#25 w) (busy : s.status.busy = true) :
      StatusAfter s acc { s.status with cmdLost := true }
  | accepted {w : Word} (hacc : acc = .write .w32 0x010#25 w) (idle : s.status.busy = false) :
      StatusAfter s acc (s.status.accept w)
  | softReset {w : Word} (hacc : acc = .write .w32 0x008#25 w) (bit : w.getLsbD 1 = true) : StatusAfter s acc .reset

/-- Only the writes of STATUS, CMD and CTRL change STATUS. -/
theorem statusAfter_writeReg {s : State} {acc : Access} {off : BitVec 25} {w : Word} {r : Reg}
    (hacc : acc = .write .w32 off w) (target : targetAt s.cfg off.toNat = .reg r) :
    StatusAfter s acc (s.writeReg r w).status := by
  cases r with
  | ctrl =>
    obtain rfl := eq_ctrl_offset target
    rw [State.writeReg, State.writeCtrl]
    split
    case isTrue bit => exact .softReset hacc bit
    case isFalse => exact .same
  | status =>
    obtain rfl := eq_status_offset target
    exact .cleared hacc
  | cmd =>
    obtain rfl := eq_cmd_offset target
    rw [State.writeReg, State.writeCmd]
    split
    case isTrue busy => exact .lost hacc busy
    case isFalse idle => exact .accepted hacc (by simpa using idle)
  | _ => exact .same

theorem statusAfter_hostAccess {s t : State} {acc : Access} (h : hostAccess s acc = .next t) :
    StatusAfter s acc t.status := by
  obtain ⟨u, ans, left, rfl⟩ := hostAccess_next h
  cases left with
  | same | dmem => exact .same
  | refused hacc aligned busy marked =>
    exact .refused hacc aligned busy (refusedWhileBusy_of_busyRefused aligned marked)
  | register hacc _ target _ => exact statusAfter_writeReg hacc target

/-! ## The flags that a host access sets and clears (R57, R60, R432) -/

section
variable {s : State} {acc : Access} {left : Status}

/-- No host access sets DONE. -/
theorem StatusAfter.done_before (h : StatusAfter s acc left) (done : left.done = true) : s.status.done = true := by
  cases h with
  | same | refused | lost => exact done
  | cleared =>
    rw [Status.writeOneToClear_done] at done
    exact Bool.and_elim_left done
  | accepted | softReset => cases done

/-- ACC_VIOL is set by a refused access only. -/
theorem StatusAfter.accViol_set (h : StatusAfter s acc left) (old : s.status.accViol = false)
    (new : left.accViol = true) :
    s.status.busy = true ∧ ∃ off, refusedWhileBusy s.cfg off.toNat = true ∧ off.toNat % 4 = 0
      ∧ (acc = .read .w32 off ∨ ∃ w, acc = .write .w32 off w) := by
  cases h with
  | refused hacc aligned busy marked => exact ⟨busy, _, marked, aligned, hacc⟩
  | same | cleared | lost | accepted => simp [old] at new
  | softReset => cases new

/-- CMD_LOST is set by a write to CMD while BUSY only. -/
theorem StatusAfter.cmdLost_set (h : StatusAfter s acc left) (old : s.status.cmdLost = false)
    (new : left.cmdLost = true) : s.status.busy = true ∧ ∃ w, acc = .write .w32 0x010#25 w := by
  cases h with
  | lost hacc busy => exact ⟨busy, _, hacc⟩
  | same | refused | cleared | accepted => simp [old] at new
  | softReset => cases new

/-- The access clears the sticky flag at bit `b` of STATUS: a write of STATUS with that bit 1, or a soft reset. -/
def ClearsFlag (acc : Access) (b : Nat) : Prop :=
  (∃ w, acc = .write .w32 0x00C#25 w ∧ w.getLsbD b = true) ∨ ∃ w, acc = .write .w32 0x008#25 w ∧ w.getLsbD 1 = true

theorem ClearsFlag.clearedBy {b : Nat} {rest : List Event} (h : ClearsFlag acc b)
    (due : s.agenda = .host acc :: rest) : ClearedBy s b := by
  refine ⟨rest, .inr ?_⟩
  rcases h with ⟨w, rfl, bit⟩ | ⟨w, rfl, bit⟩
  · exact .inl ⟨w, due, bit⟩
  · exact .inr ⟨w, due, bit⟩

theorem StatusAfter.accViol_cleared (h : StatusAfter s acc left) (old : s.status.accViol = true)
    (new : left.accViol = false) : ClearsFlag acc 4 := by
  cases h with
  | cleared hacc => exact .inl ⟨_, hacc, by simpa [old] using new⟩
  | softReset hacc bit => exact .inr ⟨_, hacc, bit⟩
  | same | refused | lost | accepted => simp [old] at new

theorem StatusAfter.cmdLost_cleared (h : StatusAfter s acc left) (old : s.status.cmdLost = true)
    (new : left.cmdLost = false) : ClearsFlag acc 5 := by
  cases h with
  | cleared hacc => exact .inl ⟨_, hacc, by simpa [old] using new⟩
  | softReset hacc bit => exact .inr ⟨_, hacc, bit⟩
  | same | refused | lost | accepted => simp [old] at new

end

end Sys2Proof.Proofs

/-!
PROOFS. How the engine's turn ends, the errors of a command, the interrupt line and the sticky flags (60_exceptions.md R412, R414,
R425, R432, R433).
-/
namespace Sys2Proof.Proofs

open Sys2Proof.Machine Sys2Proof.Spec

/-! ## Precise errors (R412, R414) -/

/-- Settles O20: a whole effect leaves ERR 0, so the command ended with the code of its checks. -/
theorem errorsArePrecise : Obligations.ErrorsArePrecise := by
  intro i s t h failed
  rcases exec_next h with ⟨c, hc, rfl⟩ | ⟨e, -, -, rfl⟩
  · exact ⟨rfl, checksOf_code hc⟩
  · simp at failed

/-! ## No step is refused (R433) -/

theorem exec_ne_refused (i : Instr) (s : State) (r : Refusal) : exec i s ≠ .refused r := by
  rw [exec_eq_perform]
  exact perform_ne_refused s _ _ r

theorem engineStep_ne_refused (s : State) (r : Refusal) : engineStep s ≠ .refused r := by
  unfold engineStep
  split
  case isTrue =>
    split
    case h_1 => exact nofun
    case h_2 i _ => exact exec_ne_refused i s r
  case isFalse => exact nofun

theorem hostAccess_ne_refused (s : State) (acc : Access) (r : Refusal) : hostAccess s acc ≠ .refused r := by
  cases acc with
  | write wd off w => exact nofun
  | read wd off =>
    rw [hostAccess, hostRead]
    split
    case isTrue => exact nofun
    case isFalse =>
      dsimp only
      split
      case isTrue => exact nofun
      case isFalse =>
        split
        case h_1 => exact nofun
        case h_2 => split <;> exact nofun

theorem step_ne_refused (s : State) (r : Refusal) : step s ≠ .refused r := by
  cases hf : s.fault with
  | some f =>
    rw [step_of_fault hf]
    exact nofun
  | none =>
    cases ha : s.agenda with
    | nil =>
      rw [step_of_empty_agenda hf ha]
      exact engineStep_ne_refused s r
    | cons turn rest =>
      cases turn with
      | engine =>
        rw [step_of_engine_turn hf ha]
        exact engineStep_ne_refused _ r
      | host acc =>
        rw [step_of_host_turn hf ha]
        exact hostAccess_ne_refused _ acc r
      | reset =>
        rw [step_of_reset_turn hf ha]
        exact nofun

/-- A command completes or reads an unwritten word. -/
theorem exec_completes_or_faults (i : Instr) (s : State) :
    (∃ t, exec i s = .next t ∧ t.status.busy = false ∧ t.status.done = true)
      ∨ ∃ a, exec i s = .fault (.unwritten a (some s.cmd)) := by
  cases h : exec i s with
  | next t =>
    obtain ⟨busy, done, -⟩ := completionUpdate i s t h
    exact .inl ⟨t, rfl, busy, done⟩
  | fault f =>
    obtain ⟨a, rfl, -⟩ := exec_fault h
    exact .inr ⟨a, rfl⟩
  | refused r => exact absurd h (exec_ne_refused i s r)

/-- Settles O5: a legal word in flight ends as its command does, an illegal one with ERR_ILLEGAL. -/
theorem nothingIsRefused : Obligations.NothingIsRefused := by
  refine ⟨step_ne_refused, fun s busy => ?_⟩
  cases decoded : decodeWord s.cmd with
  | error e => exact .inl ⟨_, engineStep_of_illegal busy decoded, rfl, rfl⟩
  | ok i =>
    rw [engineStep_of_decode busy decoded]
    exact exec_completes_or_faults i s

/-! ## The interrupt line (R425) -/

/-- IRQ is bit 1 of STATUS and bit 0 of CTRL, as the host reads them. -/
theorem irq_eq_registers (s : State) : s.irq = ((s.readReg .status).getLsbD 1 && (s.readReg .ctrl).getLsbD 0) := by
  have done : s.status.word.getLsbD 1 = s.status.done := by
    rw [status_word_getLsbD _ (by omega)]
    rfl
  have enable : (ctrlWord s.irqEn).getLsbD 0 = s.irqEn := by cases s.irqEn <;> rfl
  rw [State.readReg, State.readReg, done, enable, State.irq]

/-- A host write leaves one state, up to the bus answer, so one level of the interrupt line. -/
theorem irq_eq_of_writesTo {s t u : State} {off : Nat} {w : Word} (ht : WritesTo s off w t) (hu : WritesTo s off w u) :
    t.irq = u.irq := by
  have same : { t with answer := some .taken } = { u with answer := some .taken } := ht.symm.trans hu
  have line := congrArg State.irq same
  exact line

/-- A write to CTRL resets, with no interrupt, or moves the enable only (R56, R452). -/
theorem irq_writeCtrl (s : State) (w : Word) : (s.writeCtrl w).irq = (s.status.done && w.getLsbD 0 && !w.getLsbD 1) := by
  rw [State.writeCtrl]
  split
  case isTrue bit => simp [State.irq, bit, Status.reset]
  case isFalse bit => rw [State.irq, Bool.eq_false_iff.2 bit, Bool.not_false, Bool.and_true]

/-- A completion sets DONE, so the line shows the enable. -/
theorem irq_of_exec {i : Instr} {s t : State} (h : exec i s = .next t) : t.irq = s.irqEn := by
  obtain ⟨-, done, -⟩ := completionUpdate i s t h
  obtain ⟨-, -, -, enable, -⟩ := frameOfEveryCommand i s t h
  rw [State.irq, done, enable, Bool.true_and]

/-- Settles O13: DONE and IRQ_EN after each of the turns. -/
theorem interruptFollowsDone : Obligations.InterruptFollowsDone := by
  intro s
  refine ⟨irq_eq_registers s, fun i t h => irq_of_exec h, fun w t bit written => ?_, fun w t written => ?_,
    fun w t idle written => ?_, fun c => rfl, fun acc t h raised => ?_, fun _ _ => rfl⟩
  · rw [irq_eq_of_writesTo written (writesTo_status s w)]
    simp [State.irq, bit]
  · rw [irq_eq_of_writesTo written (writesTo_writeReg w rfl (by omega) (r := .ctrl) rfl (.inr rfl))]
    exact irq_writeCtrl s w
  · rw [irq_eq_of_writesTo written (writesTo_cmd s w), State.writeCmd, idle]
    rfl
  · obtain ⟨done, -⟩ := Bool.and_eq_true_iff.1 raised
    exact (statusAfter_hostAccess h).done_before done

/-! ## The sticky flags (R432) -/

/-- Settles O19: the engine's turn leaves both flags, the host's is an access, a reset clears both. -/
theorem stickyFlags : Obligations.StickyFlags := by
  intro s t h
  obtain ⟨-, rest, engine | ⟨acc, due, host⟩ | ⟨due, rfl⟩⟩ := step_next h
  · obtain ⟨viol, lost⟩ := engineStep_sticky engine
    rw [viol, lost]
    refine ⟨?_, ?_, ?_, ?_⟩ <;>
    · intro old new
      simp [old] at new
  · have after := statusAfter_hostAccess host
    refine ⟨fun old new => ?_, fun old new => ?_, fun old new => (after.accViol_cleared old new).clearedBy due,
      fun old new => (after.cmdLost_cleared old new).clearedBy due⟩
    · obtain ⟨busy, off, marked, aligned, rfl | ⟨w, rfl⟩⟩ := after.accViol_set old new
      · exact ⟨busy, off, rest, marked, aligned, .inl due⟩
      · exact ⟨busy, off, rest, marked, aligned, .inr ⟨w, due⟩⟩
    · obtain ⟨busy, w, rfl⟩ := after.cmdLost_set old new
      exact ⟨busy, w, rest, due⟩
  · have cleared (b : Nat) : ClearedBy s b := ⟨rest, .inl due⟩
    exact ⟨nofun, nofun, fun _ _ => cleared 4, fun _ _ => cleared 5⟩

end Sys2Proof.Proofs

/-!
PROOFS. Reset and the soft reset (70_reset_and_hazards.md R450-R454): what reset leaves in the registers, that it meets the
invariant, and that the abort of a command in flight makes exactly the destinations of a command whose checks pass unwritten.
-/
namespace Sys2Proof.Proofs

open Sys2Proof.Machine Sys2Proof.Spec

/-! ## The reset state (R450, R451) -/

@[simp] theorem readReg_arg_resetOf (c : Config) (i : Fin 16) : (State.resetOf c).readReg (.arg i) = 0#32 :=
  Vector.getElem_replicate _

@[simp] theorem readReg_res_resetOf (c : Config) (i : Fin 8) : (State.resetOf c).readReg (.res i) = 0#32 :=
  Vector.getElem_replicate _

/-- Every tap of the predictor is 0 (R65). -/
theorem taps_resetOf (c : Config) (i : Fin 17) : (State.resetOf c).fcch.taps[i] = ⟨0#32, 0#32⟩ :=
  Vector.getElem_replicate _

@[simp] theorem readReg_tapRe_resetOf (c : Config) (i : Fin 17) : (State.resetOf c).readReg (.tapRe i) = 0#32 :=
  congrArg Cplx.re (taps_resetOf c i)

@[simp] theorem readReg_tapIm_resetOf (c : Config) (i : Fin 17) : (State.resetOf c).readReg (.tapIm i) = 0#32 :=
  congrArg Cplx.im (taps_resetOf c i)

theorem ofBit_eq_ite (b : Bool) : Word.ofBit b = if b then 1#32 else 0#32 := by
  cases b <;> rfl

/-- Settles O8: STATUS and GP_STATUS as the words of their fields, the register arrays, CFG_FEATURES and the tables of R69 by
their lemmas; every other item is the value that `State.resetOf` gives its field. -/
theorem resetTable : Obligations.ResetTable := by
  intro c
  exact ⟨rfl, rfl, rfl, status_word_eq _, rfl, readReg_arg_resetOf c, readReg_res_resetOf c,
    rfl, rfl, rfl, rfl, rfl, rfl, rfl, rfl, rfl, rfl, readReg_tapRe_resetOf c, readReg_tapIm_resetOf c,
    rfl, rfl, rfl, rfl, readReg_gpStatus _, rfl, fun _ => rfl, rfl, rfl, rfl, rfl, ofBit_eq_ite c.resample,
    rfl, fun _ => rfl, rfl, rfl, rfl, fun n => ⟨rotEntry_eq_rot n, rrotEntry_eq_rrot n⟩⟩

theorem inv_reset (c : Config) : (State.resetOf c).Inv :=
  inv_resetOf (m := []) List.Pairwise.nil nofun nofun []

/-- Settles O24. -/
theorem resetMeetsTheInvariant : Obligations.ResetMeetsTheInvariant :=
  ⟨inv_reset, inv_reset Config.default⟩

/-! ## Checks that pass (R382, R413) -/

/-- Only `VITERBI_SOFT` has a check besides those on registers. -/
theorem passes_iff_error_eq_none {i : Instr} (hi : ∀ x, i ≠ .viterbiSoft x) (s : State) :
    Passes i s ↔ Spec.error i s = none := by
  cases i with
  | viterbiSoft x => exact absurd rfl (hi x)
  | _ => exact and_iff_left trivial

/-- The gathered words, all written, as a vector (R101, R380). -/
theorem exists_realOn_of_written {m : Memory} {a : Nat} {ks : List Nat}
    (h : ∀ k ∈ ks, (m.readWord (a + k)).isSome = true) : ∃ r, RealOn m a ks r :=
  ⟨fun k => (m.readWord (a + k)).getD 0#32, fun k hk => by
    obtain ⟨v, hv⟩ := Option.isSome_iff_exists.1 (h k hk)
    dsimp only
    rw [hv, Option.getD_some]⟩

/-- With its registers in order, `VITERBI_SOFT` passes exactly when every gathered value is in [0, 1] (R382). -/
theorem passes_viterbiSoft_iff {x : Bool} {s : State} {r : Nat → F32} (hc : Spec.error (.viterbiSoft x) s = none)
    (h : RealOn s.mem (s.argN 0) (gathered x) r) :
    Passes (.viterbiSoft x) s ↔ ((gathered x).map r).all softInRange = true := by
  rw [List.all_eq_true, List.forall_mem_map]
  constructor
  · rintro ⟨-, data⟩ k hk
    exact Bool.and_eq_true_iff.2 (data k hk (r k) (h k hk))
  · refine fun inRange => ⟨hc, fun k hk v hv => ?_⟩
    obtain rfl : r k = v := Option.some.inj ((h k hk).symm.trans hv)
    exact Bool.and_eq_true_iff.1 (inRange k hk)

/-- A failing check on registers decides before the DATA check reads DMEM (R382). -/
theorem viterbiSoftChecks_of_error {x : Bool} {s : State} {c : ErrCode} (hc : Spec.error (.viterbiSoft x) s = some c) :
    checksOf (.viterbiSoft x) s = .ok (some c) := by
  obtain ⟨-, registers⟩ := viterbiChecks_eq_error x s
  change viterbiSoftChecks x s = _
  rw [viterbiSoftChecks, registers, hc]

/-- Where the words that the checks read are written, the checks report no code when the command passes, and some code when it
does not (R413, R453). -/
theorem checksOf_of_checkWordsWritten {i : Instr} {s : State} (written : CheckWordsWritten i s) :
    (Passes i s ∧ checksOf i s = .ok none) ∨ (¬ Passes i s ∧ ∃ c, checksOf i s = .ok (some c)) := by
  by_cases soft : ∃ x, i = .viterbiSoft x
  · obtain ⟨x, rfl⟩ := soft
    cases registers : Spec.error (.viterbiSoft x) s with
    | none =>
      obtain ⟨r, values⟩ := exists_realOn_of_written (written registers)
      rw [passes_viterbiSoft_iff registers values, viterbiSoftChecks_eq registers values]
      split
      case isTrue inRange => exact .inl ⟨inRange, rfl⟩
      case isFalse outside => exact .inr ⟨outside, .data, rfl⟩
    | some c =>
      have fails : ¬ Passes (.viterbiSoft x) s := fun ⟨passed, _⟩ => nomatch registers.symm.trans passed
      exact .inr ⟨fails, c, viterbiSoftChecks_of_error registers⟩
  · have only := not_exists.1 soft
    rw [passes_iff_error_eq_none only, checksOf_eq_error only]
    cases Spec.error i s with
    | none => exact .inl ⟨rfl, rfl⟩
    | some c => exact .inr ⟨nofun, c, rfl⟩

/-! ## The abort of the command in flight (R452, R453) -/

theorem abortedMem_of_idle {s : State} (idle : ¬ s.status.busy = true) : s.abortedMem = s.mem :=
  if_neg idle

theorem abortedMem_of_illegal {s : State} (illegal : ¬ ∃ i, decodeWord s.cmd = .ok i) : s.abortedMem = s.mem := by
  cases word : decodeWord s.cmd with
  | ok i => exact absurd ⟨i, word⟩ illegal
  | error e =>
    rw [State.abortedMem, word]
    exact ite_self _

section
variable {s : State} {i : Instr} (busy : s.status.busy = true) (legal : decodeWord s.cmd = .ok i)
include busy legal

/-- A command that passes its checks leaves its destinations unwritten. -/
theorem abortedMem_of_passes (checks : checksOf i s = .ok none) : s.abortedMem = s.mem.unwriteAll (destinations i s) := by
  rw [State.abortedMem, if_pos busy, legal]
  dsimp only
  rw [checks, dstWords_eq_destinations]

/-- A command that a check would end with an error leaves DMEM as it is. -/
theorem abortedMem_of_fails {c : ErrCode} (checks : checksOf i s = .ok (some c)) : s.abortedMem = s.mem := by
  rw [State.abortedMem, if_pos busy, legal]
  dsimp only
  rw [checks]

end

/-- The soft reset is the write of CTRL with bit 1 set, which is never refused (R56, R112, R452). -/
theorem writesTo_softReset (s : State) {w : Word} (bit : w.getLsbD 1 = true) : WritesTo s 0x008 w s.softReset := by
  have written := writesTo_writeReg w rfl (by omega) (s := s) (off := 0x008) (r := .ctrl) rfl (.inr rfl)
  rwa [State.writeReg, State.writeCtrl, if_pos bit] at written

/-- Settles O9: DMEM is what the abort leaves, by whether a legal command is in flight and passes its checks. -/
theorem softResetAbortsAndResets : Obligations.SoftResetAbortsAndResets := by
  intro s w _ bit checkWords
  refine ⟨s.abortedMem, writesTo_softReset s bit, fun a => ⟨?_, fun kept => ?_⟩⟩
  · rintro ⟨busy, i, legal, passes, named⟩
    rcases checksOf_of_checkWordsWritten (checkWords i busy legal) with ⟨-, checks⟩ | ⟨fails, -⟩
    · rw [abortedMem_of_passes busy legal checks, Memory.readWord_unwriteAll, if_pos named]
    · exact absurd passes fails
  · by_cases busy : s.status.busy = true
    · by_cases legal : ∃ i, decodeWord s.cmd = .ok i
      · obtain ⟨i, legal⟩ := legal
        rcases checksOf_of_checkWordsWritten (checkWords i busy legal) with ⟨passes, checks⟩ | ⟨-, c, checks⟩
        · have unnamed : ¬ ∃ d ∈ destinations i s, d.1 ≤ a ∧ a < d.1 + d.2 := fun named =>
            kept ⟨busy, i, legal, passes, named⟩
          rw [abortedMem_of_passes busy legal checks, Memory.readWord_unwriteAll, if_neg unnamed]
        · rw [abortedMem_of_fails busy legal checks]
      · rw [abortedMem_of_illegal legal]
    · rw [abortedMem_of_idle busy]

end Sys2Proof.Proofs
